-- ==== Sys2Proof/Word.lean ====
section
/-!
DEFINITION. The bit vectors of the block: bytes, 7-bit bus addresses, 32-bit host words, and single-bit access.
Bit 0 is the least significant bit (00_scope.md R10). Every value is unsigned.
-/

namespace Sys2Proof

/-- Eight bits: one byte frame's data (20_memory.md R67). -/
abbrev Byte := BitVec 8

/-- A 7-bit bus address (20_memory.md R60). -/
abbrev BusAddr := BitVec 7

/-- A host command word or the value of a host register (10_state.md R40). -/
abbrev Word := BitVec 32

end Sys2Proof
end

