-- ==== Sys2Proof/Config.lean ====
section
/-!
DEFINITION. The parameters of the block, each under the spec's own name, never inlined elsewhere
(00_scope.md R7, R8). The parameters of R8 that a rule reads are arguments of the model: plain data of State
(`Machine.Params`, and NMAX as the length of the table; logs 5 to 9), of which only the defaults stand here. Those that no
rule reads have a name and no value (log 15).
-/

namespace Sys2Proof.Config

/-- ADDR_MAX, the largest legal 7-bit address (R7). -/
def addrMax : Byte := 0x7F
/-- BOOT_ADDR (R7). -/
def bootAddr : BusAddr := 0x60
/-- BCAST_ADDR (R7). -/
def bcastAddr : BusAddr := 0x00
/-- CHAIN_BASE (R7). -/
def chainBase : Byte := 0x20
/-- CHAIN_STEP (R7). -/
def chainStep : Byte := 2
/-- SEL_TICKREAD (R7). -/
def selTickread : Byte := 0x40
/-- SEL_RESET (R7). -/
def selReset : Byte := 0x4A
/-- SEL_PROPAGATE (R7). -/
def selPropagate : Byte := 0x4B
/-- SEL_TERMINATE (R7). -/
def selTerminate : Byte := 0x4C
/-- SEL_SETADDR (R7). -/
def selSetaddr : Byte := 0x4D
/-- SEL_GCRESET (R7). -/
def selGcreset : Byte := 0x4E
/-- SEL_COLOR (R7). -/
def selColor : Byte := 0x5E
/-- GCR_MAGIC, in this order (R7). -/
def gcrMagic : List Byte := [0xCA, 0x03]
/-- TICKREAD_LEN (R7). -/
def tickreadLen : Nat := 6
/-- PROBE_RETRIES (R7). -/
def probeRetries : Nat := 1
/-- T_SETTLE in microseconds (R7). -/
def tSettle : Nat := 5
/-- T_SETUP_MIN in microseconds (R7). -/
def tSetupMin : Nat := 1
/-- T_SCAN_GAP in microseconds (R7). -/
def tScanGap : Nat := 100
/-- F_BUS_MAX in hertz: speeds above it are a non-goal (R7; 40_line_primitives.md R132). -/
def fBusMax : Nat := 100000

/-! ## Open parameters that no rule reads (R8) -/

/-- T_PROP_SETTLE in microseconds, OPEN (R8). -/
opaque tPropSettle : Nat
/-- T_GCR_SETTLE in microseconds, OPEN (R8). -/
opaque tGcrSettle : Nat
/-- T_PROBE_RETRY in microseconds, OPEN (R8). -/
opaque tProbeRetry : Nat
/-- T_ADDR_WRITE in microseconds, OPEN (R8). -/
opaque tAddrWrite : Nat
/-- COUNTER_WIDTH in bits: "no value; no rule reads them" (R8; 10_state.md R46). -/
opaque counterWidth : Nat
/-- COUNTER_RATE in counts a second (R8; 10_state.md R46). -/
opaque counterRate : Nat

/-! ## Free values -/

/-- What the `n`-th host read of CMD returns: the spec gives CMD write access and states no value of a read (10_state.md
R40, R44; log 10). -/
opaque cmdRead : Nat → Word

/-! ## Defaults of the parameters of R8 -/

/-- NMAX: entries of the chain table after reset (R8, R9; the spec's decision D26; log 6). -/
def nmaxDefault : Nat := 32
/-- CTRL_DDIR_BIT (R8; D4; log 8). -/
def ctrlDdirBitDefault : Fin 32 := 2
/-- CTRL_SCL_BIT (R8; D4; log 8). -/
def ctrlSclBitDefault : Fin 32 := 1
/-- CTRL_SDA_BIT (R8; D4; log 8). -/
def ctrlSdaBitDefault : Fin 32 := 0
/-- addr_payload: the 7-bit address unshifted (R8; D27; log 7). -/
def addrPayloadDefault : Vector Byte 128 := ⟨⟨(List.range 128).map (BitVec.ofNat 8)⟩, rfl⟩

/-- Opcodes of format C (30_encoding.md R91). -/
def opStart : Byte := 0x01
def opStop : Byte := 0x02
def opWritebyte : Byte := 0x03
def opReadbyte : Byte := 0x04
def opBusscan : Byte := 0x05
def opInit : Byte := 0x06
def opClaim : Byte := 0x20
def opDevTickread : Byte := 0x40
def opDevReset : Byte := 0x4A
def opGcallReset : Byte := 0x4E
def opDevColor : Byte := 0x5E

end Sys2Proof.Config
end

