-- ==== Sys2Proof/Syntax.lean ====
section
/-!
DEFINITION. The instructions: the eleven host commands (format C, 30_encoding.md R91) and the eight wire commands
(format W, R99), one constructor per row of spec/opcode_table.json.
-/

namespace Sys2Proof

/-- One row of the opcode table with its operands. Operands of a host command are the fields `a`, `b` (8 bits) and
`f` (1 bit) of R90, taken as written. A wire command's target is held in a byte; only values up to ADDR_MAX have an
encoding (`WellFormed`). -/
inductive Instr where
  /-- START a, f: address, isRead (R144). -/
  | start (a : Byte) (f : Bool)
  /-- STOP (R147). -/
  | stop
  /-- WRITEBYTE a: the byte to send (R148). -/
  | writebyte (a : Byte)
  /-- READBYTE f: isLastByte (R150). -/
  | readbyte (f : Bool)
  /-- BUSSCAN a, b: min, max (R160). -/
  | busscan (a b : Byte)
  /-- INIT (R141). -/
  | init
  /-- CLAIM a: an address already held, or any other value for a new device (R201). -/
  | claim (a : Byte)
  /-- DEV_TICKREAD a (R181). -/
  | devTickread (a : Byte)
  /-- DEV_RESET a (R182). -/
  | devReset (a : Byte)
  /-- GCALL_RESET (R212). -/
  | gcallReset
  /-- DEV_COLOR a, b: address, payload byte (R183). -/
  | devColor (a b : Byte)
  /-- W.PROBE A (R177). -/
  | wProbe (t : Byte)
  /-- W.TICKREAD A (R187). -/
  | wTickread (t : Byte)
  /-- W.RESET A (R178). -/
  | wReset (t : Byte)
  /-- W.PROPAGATE A (R179). -/
  | wPropagate (t : Byte)
  /-- W.TERMINATE A (R180). -/
  | wTerminate (t : Byte)
  /-- W.SETADDR: the payload byte sent to BOOT_ADDR (R184). -/
  | wSetaddr (p : Byte)
  /-- W.GCRESET (R185). -/
  | wGcreset
  /-- W.COLOR A, p (R186). -/
  | wColor (t p : Byte)
deriving DecidableEq, Repr

end Sys2Proof
end

