-- ==== Sys2Proof/WellFormed.lean ====
section
/-!
DEFINITION. Which instructions have an encoding. A host command's operands fill their fields, so every host command
has one, an address operand above ADDR_MAX included: that is no decoding error (30_encoding.md R93). A wire command's
target is 7 bits wide (20_memory.md R60, R66): the address byte `(address << 1) | readFlag` loses no bit only then (R96).
-/

namespace Sys2Proof

/-- The range rule on a wire command's target (20_memory.md R66). -/
def targetOk (t : Byte) : Bool := t ≤ Config.addrMax

/-- The instruction has an encoding. -/
def WellFormed : Instr → Bool
  | .start _ _ => true
  | .stop => true
  | .writebyte _ => true
  | .readbyte _ => true
  | .busscan _ _ => true
  | .init => true
  | .claim _ => true
  | .devTickread _ => true
  | .devReset _ => true
  | .gcallReset => true
  | .devColor _ _ => true
  | .wProbe t => targetOk t
  | .wTickread t => targetOk t
  | .wReset t => targetOk t
  | .wPropagate t => targetOk t
  | .wTerminate t => targetOk t
  | .wSetaddr _ => true
  | .wGcreset => true
  | .wColor t _ => targetOk t

end Sys2Proof
end

