-- ==== Sys2Proof/Decode.lean ====
section
/-!
DEFINITION. Decoding and encoding. Format C, the 32-bit host command word: 30_encoding.md R90-R93. Format W, the bytes
the master transmits: R96, R98, R99. Both decoders are total; what they do not read is refused (`none`).
-/

namespace Sys2Proof

/-! ## Format C -/

/-- bits[31:24], the opcode (R90). -/
def fieldOp (w : Word) : Byte := w.extractLsb' 24 8
/-- bits[23:17], reserved (R90). -/
def fieldReserved (w : Word) : BitVec 7 := w.extractLsb' 17 7
/-- bit [16], the flag operand (R90). -/
def fieldF (w : Word) : Bool := w.getLsbD 16
/-- bits[15:8], the second byte operand (R90). -/
def fieldB (w : Word) : Byte := w.extractLsb' 8 8
/-- bits[7:0], the first byte operand (R90). -/
def fieldA (w : Word) : Byte := w.extractLsb' 0 8

/-- The word is read only if the condition on its unused fields holds (R90: "A field a command does not use is reserved
for that command and must be 0"). -/
def readIf (unusedAreZero : Bool) (i : Instr) : Option Instr := if unusedAreZero then some i else none

/-- The host command a 32-bit word stands for, `none` for an illegal word (R92). -/
def decodeCommand (w : Word) : Option Instr :=
  let op := fieldOp w
  let f := fieldF w
  let b := fieldB w
  let a := fieldA w
  if fieldReserved w ≠ 0 then none
  else if op = Config.opStart then readIf (b == 0) (.start a f)
  else if op = Config.opStop then readIf (!f && b == 0 && a == 0) .stop
  else if op = Config.opWritebyte then readIf (!f && b == 0) (.writebyte a)
  else if op = Config.opReadbyte then readIf (b == 0 && a == 0) (.readbyte f)
  else if op = Config.opBusscan then readIf (!f) (.busscan a b)
  else if op = Config.opInit then readIf (!f && b == 0 && a == 0) .init
  else if op = Config.opClaim then readIf (!f && b == 0) (.claim a)
  else if op = Config.opDevTickread then readIf (!f && b == 0) (.devTickread a)
  else if op = Config.opDevReset then readIf (!f && b == 0) (.devReset a)
  else if op = Config.opGcallReset then readIf (!f && b == 0 && a == 0) .gcallReset
  else if op = Config.opDevColor then readIf (!f) (.devColor a b)
  else none

/-- The word with the given fields (R90). -/
def packCommand (op : Byte) (f : Bool) (b a : Byte) : Word :=
  op ++ (0 : BitVec 7) ++ BitVec.ofBool f ++ b ++ a

/-! ## Format W -/

/-- The 7-bit address of an address byte of the write direction: `AB[0] = 0`, `AB[7:1]` the address (R96). -/
def writeTarget (ab : Byte) : Option Byte := if ab.getLsbD 0 then none else some (ab >>> 1)

/-- The address byte of a target: `(address << 1) | readFlag` (R96). -/
def packTarget (t : Byte) (rd : Bool) : Byte := (t <<< 1) ||| (BitVec.ofBool rd).setWidth 8

/-- The wire command that sends one selector and no payload, by its selector (R99). -/
def wireNoPayload (t sel : Byte) : Option Instr :=
  if sel = Config.selReset then some (.wReset t)
  else if sel = Config.selPropagate then some (.wPropagate t)
  else if sel = Config.selTerminate then some (.wTerminate t)
  else none

/-- The wire command of three transmitted bytes (R99): a tick read's third byte is the restart's address byte of the
same target in the read direction; change-address goes to BOOT_ADDR only. -/
def wireThree (t sel x : Byte) : Option Instr :=
  if sel = Config.selTickread then (if x = packTarget t true then some (.wTickread t) else none)
  else if sel = Config.selSetaddr then
    (if t = Config.bootAddr.setWidth 8 then some (.wSetaddr x) else none)
  else if sel = Config.selColor then some (.wColor t x)
  else none

/-- The wire command that the bytes the master transmits stand for, in the order they are sent (R99). -/
def decodeWire : List Byte → Option Instr
  | [ab] => (writeTarget ab).map .wProbe
  | [ab, sel] => (writeTarget ab).bind (wireNoPayload · sel)
  | [ab, sel, x] => (writeTarget ab).bind (wireThree · sel x)
  | [ab, sel, x, y] =>
    if writeTarget ab = some (Config.bcastAddr.setWidth 8) ∧ sel = Config.selGcreset ∧ [x, y] = Config.gcrMagic
    then some .wGcreset else none
  | _ => none

/-! ## The table's own numbering -/

/-- The `n` bytes of a table row's number: the first transmitted byte stands highest (log 13). -/
def bytesHighFirst : Nat → Nat → List Byte
  | 0, _ => []
  | n + 1, w => BitVec.ofNat 8 (w >>> (8 * n)) :: bytesHighFirst n w

/-- The instruction of an opcode-table row's number `w` of `nbits` bits. A 32-bit number is a host command word; where
it is an illegal one, the four bytes of a wire command (log 13). -/
def decodeTableWord (nbits w : Nat) : Option Instr :=
  if nbits = 32 then
    match decodeCommand (BitVec.ofNat 32 w) with
    | some i => some i
    | none => decodeWire (bytesHighFirst 4 w)
  else if nbits = 8 ∨ nbits = 16 ∨ nbits = 24 then decodeWire (bytesHighFirst (nbits / 8) w)
  else none

/-! ## Encoding -/

/-- What an instruction is on its way in: a host command word, or the bytes of a wire command. -/
inductive Code where
  | command (w : Word)
  | wire (bytes : List Byte)
deriving DecidableEq, Repr

/-- The code of a well-formed instruction (R91, R99). -/
def encode : Instr → Code
  | .start a f => .command (packCommand Config.opStart f 0 a)
  | .stop => .command (packCommand Config.opStop false 0 0)
  | .writebyte a => .command (packCommand Config.opWritebyte false 0 a)
  | .readbyte f => .command (packCommand Config.opReadbyte f 0 0)
  | .busscan a b => .command (packCommand Config.opBusscan false b a)
  | .init => .command (packCommand Config.opInit false 0 0)
  | .claim a => .command (packCommand Config.opClaim false 0 a)
  | .devTickread a => .command (packCommand Config.opDevTickread false 0 a)
  | .devReset a => .command (packCommand Config.opDevReset false 0 a)
  | .gcallReset => .command (packCommand Config.opGcallReset false 0 0)
  | .devColor a b => .command (packCommand Config.opDevColor false b a)
  | .wProbe t => .wire [packTarget t false]
  | .wTickread t => .wire [packTarget t false, Config.selTickread, packTarget t true]
  | .wReset t => .wire [packTarget t false, Config.selReset]
  | .wPropagate t => .wire [packTarget t false, Config.selPropagate]
  | .wTerminate t => .wire [packTarget t false, Config.selTerminate]
  | .wSetaddr p => .wire [packTarget (Config.bootAddr.setWidth 8) false, Config.selSetaddr, p]
  | .wGcreset => .wire (packTarget (Config.bcastAddr.setWidth 8) false :: Config.selGcreset :: Config.gcrMagic)
  | .wColor t p => .wire [packTarget t false, Config.selColor, p]

/-- Decoding of either kind of code. -/
def decode : Code → Option Instr
  | .command w => decodeCommand w
  | .wire bs => decodeWire bs

end Sys2Proof
end

