-- ==== Sys2Proof/Machine/Seq.lean ====
section
/-!
DEFINITION. The sequencer position as plain data (10_state.md R34: "A model may hold it as data"). It has two levels:
the lines still to do of the bus procedure being run, and the line of the running command's own pseudocode at which the
engine goes on when no bus line is left.
-/

namespace Sys2Proof.Machine

/-- The delays the pseudocode names (00_scope.md R7, R8). -/
inductive Delay where
  /-- T_SETTLE, after every control-register write (R120). -/
  | settle
  /-- T_SETUP_MIN - T_SETTLE (R128). -/
  | setup
  /-- T_SCAN_GAP (R160). -/
  | scanGap
  /-- T_PROP_SETTLE, OPEN (R201). -/
  | propSettle
  /-- T_GCR_SETTLE, OPEN (R201, R212). -/
  | gcrSettle
  /-- T_PROBE_RETRY, OPEN (R201). -/
  | probeRetry
  /-- T_ADDR_WRITE, OPEN (R201). -/
  | addrWrite
deriving DecidableEq, Repr

/-- The least time of a delay, in microseconds (R127: "A `t` is a lower bound"). The model has no time, so no step reads
it (log 15). -/
def Delay.atLeast : Delay → Nat
  | .settle => Config.tSettle
  | .setup => Config.tSetupMin - Config.tSettle
  | .scanGap => Config.tScanGap
  | .propSettle => Config.tPropSettle
  | .gcrSettle => Config.tGcrSettle
  | .probeRetry => Config.tProbeRetry
  | .addrWrite => Config.tAddrWrite

/-- A line of a bus procedure. -/
inductive BusOp where
  /-- `SDA_out(v)` (R121). -/
  | sdaOut (v : Bool)
  /-- `SDA_release()` (R122). -/
  | sdaRelease
  /-- `SCL_low()` (R123). -/
  | sclLow
  /-- `SCL_raise()` (R124): the write; the wait follows as `awaitScl`. -/
  | sclRaise
  /-- `WriteCtrl(0, 1, 1)` (R141). -/
  | releaseLines
  /-- `Delay(t)` (R127). -/
  | delay (d : Delay)
  /-- One read of the loop of `SCL_raise` (R124). -/
  | awaitScl
  /-- The first read of an iteration of `WaitIdle`, SCL (R126). -/
  | awaitIdle
  /-- The second read of an iteration of `WaitIdle`, SDA; `scl` is what the first one read (R126). -/
  | awaitIdleSda (scl : Bool)
  /-- `s <- ReadSDA()` (R128). -/
  | sample
  /-- `BitCell(d, v)` (R128). -/
  | bitCell (d v : Bool)
  /-- `TxByte(b)` (R129). -/
  | txByte (b : Byte)
  /-- The end of `TxByte(b)`: `RecordAck(s)`, `return (s = 0)` (R129). -/
  | txAck (b : Byte)
  /-- `RxByte(last)` (R130). -/
  | rxByte (last : Bool)
  /-- `v[i] <- s` (R130). -/
  | rxBit (i : Nat)
  /-- The end of `RxByte`: `RecordAck(s)`, `return v` (R130). -/
  | rxAck
  /-- `DoStart(addr, rd)` (R142). -/
  | doStart (addr : BusAddr) (rd : Bool)
  /-- `if owned = 0: ackvec <- 0; nb <- 0` (R142). -/
  | openRecord
  /-- `owned <- 1` (R142). -/
  | own
  /-- `DoStop()` (R146). -/
  | doStop
  /-- `owned <- 0` (R146). -/
  | disown
  /-- `Xfer(addr, wr, nread)` (R171). -/
  | xfer (addr : BusAddr) (wr : List Byte) (nread : Nat)
  /-- `Touch(addr, acked)` with the `acked` just returned (R176). -/
  | touch (addr : BusAddr)
  /-- `Xfer` after the first start's `Touch` (R171). -/
  | xferStarted (addr : BusAddr) (wr : List Byte) (nread : Nat)
  /-- `Xfer` after the restart's `Touch` (R171). -/
  | xferRestarted (nread : Nat)
  /-- `rx[k] <-` the byte just received (R171). -/
  | rxKeep
  /-- `return` of `Xfer`: `(true, rx)` or `(false, [])` (R171). -/
  | xferReturn (okx : Bool)
deriving DecidableEq, Repr

/-- The error codes (60_exceptions.md R241). Codes 7 and 13 to 15 are not used. -/
inductive Err where
  | none
  | nackStart
  | addrRange
  | illegalCmd
  | seq
  | notInit
  | fatal
  | chainBroken
  | noBootDevice
  | handshake
  | enumLatched
  | chainFull
deriving DecidableEq, Repr

/-- A line of a command's own pseudocode, with its loop counters. -/
inductive Line where
  /-- No command (R34). -/
  | none
  /-- A command word has been accepted and is decoded next (R32). -/
  | decode
  /-- `complete(ok, err, result)` (R33). -/
  | finish (ok : Bool) (e : Err) (result : Byte)
  /-- INIT: the version check (R141). -/
  | initCheck
  /-- INIT: `owned <- 0` (R141). -/
  | initRelease
  /-- INIT: `init_done <- 1` (R141). -/
  | initMark
  /-- START: after `DoStart` (R144). -/
  | startDone
  /-- WRITEBYTE: after `TxByte` (R148). -/
  | writeDone
  /-- READBYTE: after `RxByte` (R150). -/
  | readDone
  /-- BUSSCAN: the head of the loop at candidate `c`, held in 9 bits (R160). -/
  | scan (c : BitVec 9) (max count : Byte) (first : Bool)
  /-- BUSSCAN: after the probe of `c` (R160). -/
  | scanned (c : BitVec 9) (max count : Byte)
  /-- DEV_TICKREAD: after `Xfer` (R181). -/
  | tickreadDone
  /-- DEV_TICKREAD: `rxbuf[k] <- rx[k]` (R181). -/
  | tickreadKeep (k : Fin 6)
  /-- DEV_RESET, DEV_COLOR: after `Xfer` (R182, R183). -/
  | devDone
  /-- GCALL_RESET: after `Xfer` (R212). -/
  | gcallDestroy
  /-- GCALL_RESET: the head of the loop over the entries at `i`, and `entry[i] <- all fields 0` (R212). -/
  | gcallEntry (i : Nat)
  /-- GCALL_RESET: `idx <- 0` (R212). -/
  | gcallIdx
  /-- GCALL_RESET: `next_addr <- CHAIN_BASE` (R212). -/
  | gcallNext
  /-- GCALL_RESET: `enum_failed <- 0` (R212). -/
  | gcallLatch
  /-- CLAIM: parts A, B, C up to the hand-off's `Xfer` (R201). -/
  | claim (a : Byte)
  /-- CLAIM: after the propagate's `Xfer` (R201, part C). -/
  | claimPropagated
  /-- CLAIM: a probe of the boot address (R201, part D). -/
  | claimProbe
  /-- CLAIM: after a probe (R201, part D). -/
  | claimProbed
  /-- CLAIM: `retry_w <- retry_w + 1` (R201, part D). -/
  | claimRetry
  /-- CLAIM: after the change-address `Xfer` (R201, part E). -/
  | claimAddressed
  /-- CLAIM: after the terminate's `Xfer` (R201, part E). -/
  | claimTerminated
  /-- `ROLLBACK(e)` (R209). -/
  | rollback (e : Err)
  /-- `ROLLBACK(e)` after the re-terminate's `Xfer` (R209). -/
  | rolledBack (e : Err)
  /-- `enum_failed <- 1` before `complete(0, e, 0)` (R209, R204). -/
  | claimFailed (e : Err)
  /-- The end of a wire command run by itself (log 11). -/
  | wireDone
deriving DecidableEq, Repr

/-- The sequencer position and the values its procedures have just returned (R34). None of the latter has a meaning
between commands (log 17). -/
structure Seq where
  /-- Lines of the bus procedure still to do, next first. -/
  bus : List BusOp
  /-- The command's line to go on at when `bus` is empty. -/
  line : Line
  /-- `s`, the last sample of SDA (R128). -/
  samp : Bool
  /-- `v`, the byte being received (R130). -/
  byte : Byte
  /-- `acked`, as the last `TxByte` returned it (R129). -/
  acked : Bool
  /-- `okx`, as the last `Xfer` returned it (R171). -/
  okx : Bool
  /-- `rx`, the bytes the last `Xfer` received (R171). -/
  rx : List Byte
  /-- `new`, the address the running claim is assigning (R201). -/
  newAddr : BusAddr
deriving DecidableEq, Repr

/-- No command (log 17). -/
def Seq.idle : Seq :=
  { bus := [], line := .none, samp := false, byte := 0, acked := false, okx := false, rx := [], newAddr := 0 }

end Sys2Proof.Machine
end

