-- ==== Sys2Proof/Machine/State.lean ====
section
/-!
DEFINITION. The state of the block (10_state.md R20 to R39), as plain data, and its reset value (R48). Below the block's
own state stand the model's own fields: the two agents beside the engine (environment and host), the open parameters and
a history of the wire.
-/

namespace Sys2Proof.Machine

/-- The line-control register (R21). -/
structure Ctrl where
  /-- `ctrl.DDIR`: the block drives the data line. -/
  ddir : Bool
  /-- `ctrl.SCLO`: the clock line value last written. -/
  sclo : Bool
  /-- `ctrl.SDAO`: the data line value last written. -/
  sdao : Bool
deriving DecidableEq, Repr

/-- What the environment drives: for each line, true = no slave pulls it low (R23). -/
structure Drive where
  scl : Bool
  sda : Bool
deriving DecidableEq, Repr

/-- One entry of the chain table (R38). -/
structure Entry where
  addr : BusAddr
  registered : Bool
  active : Bool
  terminated : Bool
  retry : Byte
deriving DecidableEq, Repr

/-- All fields 0 (R38, R212). -/
def Entry.zero : Entry := { addr := 0, registered := false, active := false, terminated := false, retry := 0 }

/-- What the block produces on the bus, in the notation of 00_scope.md R12. -/
inductive WireEvent where
  /-- `S`: a start condition on a bus the block did not own. -/
  | start
  /-- `Sr`: a restart. -/
  | restart
  /-- `P`: a stop condition issued. -/
  | stop
  /-- `>XX a` or `>XX n`: a byte the master transmits and its 9th bit (true = low = ack). -/
  | tx (b : Byte) (ack : Bool)
  /-- `<XX a` or `<XX n`: a byte the master receives and its 9th bit. -/
  | rx (b : Byte) (ack : Bool)
deriving DecidableEq, Repr

/-- The parameters that are an implementation's and that a rule reads (00_scope.md R8): arguments of the model, which no
step writes (10_state.md R20). NMAX is the length of the table (log 6). -/
structure Params where
  /-- HW_VERSION (OPEN; log 5). -/
  hwVersion : Word
  /-- EXPECTED_VERSION (OPEN; log 5). -/
  expectedVersion : Word
  /-- CTRL_DDIR_BIT (log 8). -/
  ctrlDdirBit : Fin 32
  /-- CTRL_SCL_BIT (log 8). -/
  ctrlSclBit : Fin 32
  /-- CTRL_SDA_BIT (log 8). -/
  ctrlSdaBit : Fin 32
  /-- HOST_BASE, a byte address (OPEN; log 9). -/
  hostBase : Nat
  /-- addr_payload, the payload byte of each 7-bit address (log 7). -/
  addrPayload : Vector Byte 128
deriving DecidableEq, Repr

/-- The parameters of State.reset: the spec's defaults, and 0 for the OPEN ones (logs 5, 7, 8, 9). -/
def Params.atReset : Params where
  hwVersion := 0
  expectedVersion := 0
  ctrlDdirBit := Config.ctrlDdirBitDefault
  ctrlSclBit := Config.ctrlSclBitDefault
  ctrlSdaBit := Config.ctrlSdaBitDefault
  hostBase := 0
  addrPayload := Config.addrPayloadDefault

/-- A host access, at a byte address, of a width in bits (R40, R44). -/
inductive Access where
  | write (addr width : Nat) (value : Word)
  | read (addr width : Nat)
deriving DecidableEq, Repr

/-- A coming host access, and how many engine micro-steps the host then lets pass before its next one; `none`: it polls
STATUS until BUSY = 0 (70_reset_and_hazards.md R296 duty D-b; log 1). -/
structure HostMove where
  access : Access
  gapAfter : Option Nat
deriving DecidableEq, Repr

/-- Why a step stops with a fault. -/
inductive Fault where
  /-- Raised by `step` alone: `busy = 1` and the sequencer is at no command. No run reaches such a state (log 19).
  Safe: nothing is claimed of it. -/
  | noPosition
deriving DecidableEq, Repr

/-- Why a step refuses. -/
inductive Refusal where
  /-- Raised by a refused arm of `exec` alone: the instruction has no meaning yet. Safe. -/
  | notModelled (mnemonic : String)
  /-- Raised by `hostAccess`: not an aligned 32-bit access to an offset of the map (R44: "the model refuses it"). Safe. -/
  | hostAccess
  /-- Raised by `step`: a wire request whose bytes are no wire command of 30_encoding.md R99 (log 11). Safe. -/
  | notAWireCommand
deriving DecidableEq, Repr

structure State where
  /-- The line-control register (R21). -/
  ctrl : Ctrl
  /-- A host command is running (R25). -/
  busy : Bool
  /-- The accepted command word (R32). -/
  cmdw : Word
  /-- A successful INIT has run (R26). -/
  initDone : Bool
  /-- The version check has failed (R26). -/
  fatal : Bool
  /-- A start condition has been issued and no stop since (R27). -/
  owned : Bool
  /-- The last outcome's boolean (R28). -/
  ok : Bool
  /-- The last outcome's code (R28). -/
  err : Err
  /-- The last outcome's byte (R28). -/
  result : Byte
  /-- A CMD write was dropped (R29). -/
  ovr : Bool
  /-- The acks of the transaction's byte frames (R30). -/
  ackvec : BitVec 16
  /-- How many frames are recorded (R30). -/
  nb : BitVec 5
  /-- The bytes of the last successful tick read (R31). -/
  rxbuf : Vector Byte 6
  /-- The claim's scratch retry counter (R34). -/
  retryW : Byte
  /-- The sequencer position (R34). -/
  seq : Seq
  /-- Devices enumerated (R35). -/
  idx : Byte
  /-- The next address to assign (R36). -/
  nextAddr : Byte
  /-- The enumeration failure latch (R37). -/
  enumFailed : Bool
  /-- The chain table (R38); its length is NMAX (log 6). -/
  entry : List Entry
  /-- Input: `env.scl`, `env.sda` now (R23; log 3). -/
  env : Drive
  /-- Input: the drives at the coming looks at the lines, next first; when none is left `env` stays (R23; log 3). -/
  looks : List Drive
  /-- Input: the host's coming accesses, next first (R13; log 1). -/
  hostQ : List HostMove
  /-- Input: engine micro-steps before the host's next access; `none`: it waits for BUSY = 0 (log 1). -/
  gap : Option Nat
  /-- Output: the value the last host read returned (R44; log 10). -/
  hostRd : Word
  /-- How many free values host reads of CMD have returned (log 10). -/
  freeReads : Nat
  /-- Input: the bytes of a wire command to run by itself; empty for none (log 11). -/
  wireReq : List Byte
  /-- The parameters (00_scope.md R8). -/
  params : Params
  /-- Output: what the block has produced on the bus, oldest first (00_scope.md R12; log 14). -/
  trace : List WireEvent
deriving DecidableEq, Repr

/-- NMAX, the number of entries of the chain table (00_scope.md R8, R9; log 6). -/
def State.nmax (s : State) : Nat := s.entry.length

/-- The state after reset (10_state.md R48). The fields after `entry` are the model's own: logs 1, 3, 5 to 11, 14. -/
def State.reset : State where
  ctrl := { ddir := false, sclo := true, sdao := true }
  busy := false
  cmdw := 0
  initDone := false
  fatal := false
  owned := false
  ok := false
  err := .none
  result := 0
  ovr := false
  ackvec := 0
  nb := 0
  rxbuf := Vector.replicate 6 0
  retryW := 0
  seq := Seq.idle
  idx := 0
  nextAddr := Config.chainBase
  enumFailed := false
  entry := List.replicate Config.nmaxDefault Entry.zero
  env := { scl := true, sda := true }
  looks := []
  hostQ := []
  gap := none
  hostRd := 0
  freeReads := 0
  wireReq := []
  params := Params.atReset
  trace := []

end Sys2Proof.Machine
end

