-- ==== Sys2Proof/Machine/Operands.lean ====
section
/-!
DEFINITION. Operands: the one assembled operand of the block, the address byte (30_encoding.md R96, R101), the address
of a byte operand, the change-address payload, single-bit writes, and the codes of the errors (60_exceptions.md R241).
-/

namespace Sys2Proof.Machine

/-- `a[6:0]` (R142, R144). -/
def addr7 (a : Byte) : BusAddr := a.extractLsb' 0 7

/-- The address byte `(address << 1) | readFlag`: `AB[7:1] = address`, `AB[0] = readFlag` (R96). -/
def addressByte (addr : BusAddr) (rd : Bool) : Byte := addr ++ BitVec.ofBool rd

/-- `addr_payload(a)`, the payload of change-address (00_scope.md R8, R101; log 7). -/
def Params.payload (p : Params) (a : BusAddr) : Byte := p.addrPayload[a.toNat]'a.isLt

/-- `v[i] <- b`. -/
def putBit {n : Nat} (v : BitVec n) (i : Nat) (b : Bool) : BitVec n :=
  if b then v ||| BitVec.twoPow n i else v &&& ~~~BitVec.twoPow n i

/-- The 4-bit code of an error (R241). -/
def Err.code : Err → BitVec 4
  | .none => 0
  | .nackStart => 1
  | .addrRange => 2
  | .illegalCmd => 3
  | .seq => 4
  | .notInit => 5
  | .fatal => 6
  | .chainBroken => 8
  | .noBootDevice => 9
  | .handshake => 10
  | .enumLatched => 11
  | .chainFull => 12

end Sys2Proof.Machine
end

