-- ==== Sys2Proof/Machine/Ops.lean ====
section
/-!
DEFINITION. The named operations over the state: the lines and the looks at them (10_state.md R22 to R24), writing the
line-control register (40_line_primitives.md R120), moving the sequencer, ending a command (R33, R243: what takes the
place of taking an exception, 00_scope.md R11; there is no return from one, 60_exceptions.md R246), and the chain table.
-/

namespace Sys2Proof.Machine

/-! ## Lines -/

/-- `m_scl`: the block releases SCL (R22). -/
def Ctrl.releasesScl (c : Ctrl) : Bool := c.sclo

/-- `m_sda`: the block releases SDA; it pulls only when `DDIR = 1` and `SDAO = 0` (R22). -/
def Ctrl.releasesSda (c : Ctrl) : Bool := !(c.ddir && !c.sdao)

/-- The level of SCL: wired-AND of the block and the environment (R23). -/
def State.sclLevel (s : State) : Bool := s.ctrl.releasesScl && s.env.scl

/-- The level of SDA (R23). -/
def State.sdaLevel (s : State) : Bool := s.ctrl.releasesSda && s.env.sda

/-- The environment moves before a look at the lines: the next drive, or the present one when none is left (log 3). -/
def State.look (s : State) : State :=
  match s.looks with
  | [] => s
  | d :: ds => { s with env := d, looks := ds }

/-! ## The sequencer -/

/-- The engine goes on with these lines of the bus procedure. -/
def State.onward (s : State) (bus : List BusOp) : State := { s with seq := { s.seq with bus := bus } }

/-- The engine runs these bus lines and then goes on at that line of the command. -/
def State.goto (s : State) (bus : List BusOp) (line : Line) : State :=
  { s with seq := { s.seq with bus := bus, line := line } }

/-- The first micro-step of `WriteCtrl`; the second is the settle delay (R120). -/
def State.writeCtrl (s : State) (c : Ctrl) (rest : List BusOp) : State :=
  { s with ctrl := c, seq := { s.seq with bus := .delay .settle :: rest } }

/-! ## Ending a command -/

/-- `complete(o, e, r)` (R33): the only way a command that has started running ends. The sequencer returns to
"no command" (R34). -/
def State.complete (s : State) (ok : Bool) (e : Err) (result : Byte) : State :=
  { s with ok := ok, err := e, result := result, busy := false, seq := { s.seq with bus := [], line := .none } }

/-- `refuse(e)` (60_exceptions.md R243): nothing ran. -/
def State.refuse (s : State) (e : Err) : State :=
  { s with ok := false, err := e, result := 0, busy := false, seq := { s.seq with bus := [], line := .none } }

/-! ## The host's timing -/

/-- One engine micro-step passes (log 1). -/
def State.pass (s : State) : State := { s with gap := s.gap.map (· - 1) }

/-- The host's next access will not wait for `BUSY = 0` (log 1). -/
def State.hostPending (s : State) : Bool := !s.hostQ.isEmpty && s.gap.isSome

/-- The host's next access comes now, whatever the engine does (log 1). -/
def State.hostDue (s : State) : Bool := !s.hostQ.isEmpty && s.gap == some 0

/-! ## The chain table -/

/-- A registered entry with `i < idx` has the address `a`; an operand above ADDR_MAX matches none (44_chain_enumeration.md
R202). -/
def State.holds (s : State) (a : Byte) : Bool :=
  decide (a ≤ Config.addrMax) && (s.entry.take s.idx.toNat).any fun e => e.registered && e.addr == addr7 a

/-- `entry[idx-1]` (R204). -/
def State.prevEntry (s : State) : Entry := s.entry.getD (s.idx.toNat - 1) Entry.zero

/-- `entry[idx-1].terminated <- t` (R205, R209). -/
def State.setPrevTerminated (s : State) (t : Bool) : State :=
  { s with entry := s.entry.modify (s.idx.toNat - 1) fun e => { e with terminated := t } }

/-- The three commit assignments of a new claim, done together (R207). -/
def State.commitClaim (s : State) : State :=
  { s with
    entry := s.entry.set s.idx.toNat
      { addr := s.seq.newAddr, registered := true, active := true, terminated := true, retry := s.retryW }
    idx := s.idx + 1
    nextAddr := s.nextAddr + Config.chainStep }

/-- `entry[i] <- all fields 0` (R212). -/
def State.clearEntry (s : State) (i : Nat) : State := { s with entry := s.entry.set i Entry.zero }

end Sys2Proof.Machine
end

