-- ==== Sys2Proof/Machine/Flags.lean ====
section
/-!
DEFINITION. The flags whose value is computed: the ack record of a byte frame (10_state.md R30), the `active` flags
(43_device_commands.md R176), and the checks of 60_exceptions.md R244 that decide whether a command runs.
-/

namespace Sys2Proof.Machine

/-- `RecordAck(s)` with the sample just taken: `if nb < 16: ackvec[nb] <- NOT s; nb <- nb + 1` (R30), in one
micro-step (log 2). -/
def State.recordAck (s : State) : State :=
  { s with
    ackvec := if s.nb < 16 then putBit s.ackvec s.nb.toNat (!s.seq.samp) else s.ackvec
    nb := if s.nb < 16 then s.nb + 1 else s.nb }

/-- `Touch(addr, acked)` (R176: "at most one entry changes"), in one micro-step (log 2). -/
def State.touch (s : State) (addr : BusAddr) (acked : Bool) : State :=
  { s with entry := s.entry.mapIdx fun i e =>
      if i < s.idx.toNat && e.registered && e.addr == addr then { e with active := acked } else e }

/-- What a command needs of the state to run (41_bus_commands.md R141, R151). -/
inductive Needs where
  /-- INIT: `init_done = 0`. -/
  | notInitialised
  /-- START, STOP: a successful INIT. -/
  | initialised
  /-- WRITEBYTE, READBYTE: and `owned = 1`. -/
  | ownedBus
  /-- The composite commands: and `owned = 0`. -/
  | freeBus
deriving DecidableEq, Repr

/-- The first check of R244, steps 2, 4 and 5, that fails; `Err.none` when the command runs. -/
def firstFailure (n : Needs) (s : State) : Err :=
  if s.fatal then .fatal
  else match n with
    | .notInitialised => if s.initDone then .seq else .none
    | .initialised => if s.initDone then .none else .notInit
    | .ownedBus => if !s.initDone then .notInit else if s.owned then .none else .seq
    | .freeBus => if !s.initDone then .notInit else if s.owned then .seq else .none

end Sys2Proof.Machine
end

