-- ==== Sys2Proof/Machine/Lines.lean ====
section
/-!
DEFINITION. The bus procedures and the engine's micro-step inside them: line primitives, bit cell, byte frames
(40_line_primitives.md R120 to R131), `DoStart` and `DoStop` (41_bus_commands.md R142, R146), and `Xfer`
(43_device_commands.md R171). Each body is the list of lines of the spec's pseudocode, in its order.
-/

namespace Sys2Proof.Machine

/-- `if T_SETTLE < T_SETUP_MIN: Delay(T_SETUP_MIN - T_SETTLE)` (R128). -/
def setupDelay : List BusOp := if Config.tSettle < Config.tSetupMin then [.delay .setup] else []

/-- `BitCell(d, v)` (R128). -/
def bitCellBody (d v : Bool) : List BusOp :=
  (if d then .sdaOut v else .sdaRelease) :: setupDelay ++ [.sclRaise, .sample, .sclLow]

/-- The eight data cells of a transmitted byte, bit 7 first (R129, 20_memory.md R63). -/
def txBits (b : Byte) : List BusOp := [7, 6, 5, 4, 3, 2, 1, 0].map fun i => .bitCell true (b.getLsbD i)

/-- `TxByte(b)` (R129). -/
def txByteBody (b : Byte) : List BusOp := txBits b ++ [.bitCell false false, .txAck b]

/-- The eight data cells of a received byte, bit 7 first (R130). -/
def rxBits : List BusOp := [7, 6, 5, 4, 3, 2, 1, 0].flatMap fun i => [.bitCell false false, .rxBit i]

/-- `RxByte(last)` after `v <- 0` (R130). -/
def rxByteBody (last : Bool) : List BusOp := rxBits ++ [.bitCell true last, .rxAck]

/-- `DoStart(addr, rd)` (R142). -/
def doStartBody (addr : BusAddr) (rd : Bool) : List BusOp :=
  [.openRecord, .sdaRelease, .sclRaise, .awaitIdle, .sdaOut false, .sclLow, .own, .txByte (addressByte addr rd)]

/-- `DoStop()` (R146). -/
def doStopBody : List BusOp := [.sclLow, .sdaOut false, .sclRaise, .sdaRelease, .disown]

/-- `Xfer(addr, wr, nread)` up to the first test (R171). -/
def xferBody (addr : BusAddr) (wr : List Byte) (nread : Nat) : List BusOp :=
  [.doStart addr false, .touch addr, .xferStarted addr wr nread]

/-- The read phase: `rx[k] <- RxByte(k = nread - 1)` for `k = 0 .. nread - 1` (R171). -/
def readPhase (nread : Nat) : List BusOp :=
  (List.range nread).flatMap fun k => [.rxByte (k + 1 == nread), .rxKeep]

/-- `DoStop()` and `return` of `Xfer` (R171, R175). -/
def xferEnd (okx : Bool) : List BusOp := [.doStop, .xferReturn okx]

/-- `Xfer` after the first start (R171, R174). -/
def xferAfterStart (acked : Bool) (addr : BusAddr) (wr : List Byte) (nread : Nat) : List BusOp :=
  if acked then
    wr.map .txByte ++
      (if 0 < nread then [.doStart addr true, .touch addr, .xferRestarted nread] else xferEnd true)
  else xferEnd false

/-- `Xfer` after the restart (R171). -/
def xferAfterRestart (acked : Bool) (nread : Nat) : List BusOp :=
  if acked then readPhase nread ++ xferEnd true else xferEnd false

/-- One read of a wait: go on when the line reads high, stay otherwise (R124). -/
def awaitSclTick (rest : List BusOp) (s : State) : State :=
  if s.look.sclLevel then s.look.onward rest else s.look

/-- The SCL read of an iteration of `WaitIdle`; the iteration's SDA read follows whatever it finds (R126). -/
def awaitIdleTick (rest : List BusOp) (s : State) : State :=
  s.look.onward (.awaitIdleSda s.look.sclLevel :: rest)

/-- The SDA read of an iteration of `WaitIdle`: the loop starts again unless both lines read high (R126). -/
def awaitIdleSdaTick (scl : Bool) (rest : List BusOp) (s : State) : State :=
  if scl && s.look.sdaLevel then s.look.onward rest else s.look.onward (.awaitIdle :: rest)

/-- `s <- ReadSDA()` (R125, R128). -/
def sampleTick (rest : List BusOp) (s : State) : State :=
  { s.look with seq := { s.seq with samp := s.look.sdaLevel, bus := rest } }

/-- The end of `TxByte` (R129). -/
def txAckTick (b : Byte) (rest : List BusOp) (s : State) : State :=
  { s.recordAck with
    seq := { s.seq with acked := !s.seq.samp, bus := rest }
    trace := s.trace ++ [.tx b (!s.seq.samp)] }

/-- The end of `RxByte` (R130). -/
def rxAckTick (rest : List BusOp) (s : State) : State :=
  { s.recordAck with
    seq := { s.seq with bus := rest }
    trace := s.trace ++ [.rx s.seq.byte (!s.seq.samp)] }

/-- `if owned = 0: ackvec <- 0; nb <- 0` (R142), in one micro-step (log 2). -/
def openRecordTick (rest : List BusOp) (s : State) : State :=
  { s with ackvec := if s.owned then s.ackvec else 0, nb := if s.owned then s.nb else 0 }.onward rest

/-- `owned <- 1` (R142). -/
def ownTick (rest : List BusOp) (s : State) : State :=
  { s.onward rest with owned := true, trace := s.trace ++ [if s.owned then .restart else .start] }

/-- `owned <- 0` (R146). -/
def disownTick (rest : List BusOp) (s : State) : State :=
  { s.onward rest with owned := false, trace := s.trace ++ [.stop] }

/-- The engine's next micro-step at the line `op` of a bus procedure, `rest` being what follows. -/
def busTick (op : BusOp) (rest : List BusOp) (s : State) : State :=
  match op with
  | .sdaOut v => s.writeCtrl { ddir := true, sclo := s.ctrl.sclo, sdao := v } rest
  | .sdaRelease => s.writeCtrl { ddir := false, sclo := s.ctrl.sclo, sdao := true } rest
  | .sclLow => s.writeCtrl { s.ctrl with sclo := false } rest
  | .sclRaise => s.writeCtrl { s.ctrl with sclo := true } (.awaitScl :: rest)
  | .releaseLines => s.writeCtrl { ddir := false, sclo := true, sdao := true } rest
  | .delay _ => s.onward rest
  | .awaitScl => awaitSclTick rest s
  | .awaitIdle => awaitIdleTick rest s
  | .awaitIdleSda scl => awaitIdleSdaTick scl rest s
  | .sample => sampleTick rest s
  | .bitCell d v => s.onward (bitCellBody d v ++ rest)
  | .txByte b => s.onward (txByteBody b ++ rest)
  | .txAck b => txAckTick b rest s
  | .rxByte last => { s with seq := { s.seq with byte := 0, bus := rxByteBody last ++ rest } }
  | .rxBit i => { s with seq := { s.seq with byte := putBit s.seq.byte i s.seq.samp, bus := rest } }
  | .rxAck => rxAckTick rest s
  | .doStart addr rd => s.onward (doStartBody addr rd ++ rest)
  | .openRecord => openRecordTick rest s
  | .own => ownTick rest s
  | .doStop => s.onward (doStopBody ++ rest)
  | .disown => disownTick rest s
  | .xfer addr wr nread => s.onward (xferBody addr wr nread ++ rest)
  | .touch addr => (s.touch addr s.seq.acked).onward rest
  | .xferStarted addr wr nread =>
    { s with seq := { s.seq with rx := [], bus := xferAfterStart s.seq.acked addr wr nread ++ rest } }
  | .xferRestarted nread => s.onward (xferAfterRestart s.seq.acked nread ++ rest)
  | .rxKeep => { s with seq := { s.seq with rx := s.seq.rx ++ [s.seq.byte], bus := rest } }
  | .xferReturn okx => { s with seq := { s.seq with okx := okx, bus := rest } }

end Sys2Proof.Machine
end

