-- ==== Sys2Proof/Machine/Wire.lean ====
section
/-!
DEFINITION. The wire commands as calls of `Xfer` (30_encoding.md R99; 43_device_commands.md R177 to R187). The host's
device commands, the chain engine and the wire commands run by themselves all use these.
-/

namespace Sys2Proof.Machine

/-- W.PROBE A = `Xfer(A, [], 0)` (R173, R177). -/
def wireProbe (addr : BusAddr) : BusOp := .xfer addr [] 0
/-- W.TICKREAD A = `Xfer(A, [0x40], 6)` (R187). -/
def wireTickread (addr : BusAddr) : BusOp := .xfer addr [Config.selTickread] Config.tickreadLen
/-- W.RESET A = `Xfer(A, [0x4A], 0)` (R178). -/
def wireReset (addr : BusAddr) : BusOp := .xfer addr [Config.selReset] 0
/-- W.PROPAGATE A = `Xfer(A, [0x4B], 0)` (R179). -/
def wirePropagate (addr : BusAddr) : BusOp := .xfer addr [Config.selPropagate] 0
/-- W.TERMINATE A = `Xfer(A, [0x4C], 0)` (R180). -/
def wireTerminate (addr : BusAddr) : BusOp := .xfer addr [Config.selTerminate] 0
/-- W.SETADDR with payload `p` = `Xfer(BOOT_ADDR, [0x4D, p], 0)` (R184). -/
def wireSetaddr (p : Byte) : BusOp := .xfer Config.bootAddr [Config.selSetaddr, p] 0
/-- W.GCRESET = `Xfer(BCAST_ADDR, [0x4E, 0xCA, 0x03], 0)` (R185). -/
def wireGcreset : BusOp := .xfer Config.bcastAddr (Config.selGcreset :: Config.gcrMagic) 0
/-- W.COLOR A, p = `Xfer(A, [0x5E, p], 0)` (R186). -/
def wireColor (addr : BusAddr) (p : Byte) : BusOp := .xfer addr [Config.selColor, p] 0

end Sys2Proof.Machine
end

