-- ==== Sys2Proof/Machine/Commands.lean ====
section
/-!
DEFINITION. The engine's micro-step at a line of a command's own pseudocode: INIT, the raw commands
(41_bus_commands.md), BUSSCAN (42_bus_scan.md R160), the device commands (43_device_commands.md R181 to R183), CLAIM and
GCALL_RESET (44_chain_enumeration.md R201, R209, R212).
-/

namespace Sys2Proof.Machine

/-- INIT's version check, with the update it guards (R141; log 2). -/
def initCheckTick (s : State) : State :=
  if s.params.hwVersion ≠ s.params.expectedVersion then
    { s with fatal := true }.goto [] (.finish false .fatal 0)
  else s.goto [.releaseLines] .initRelease

/-- INIT's `owned <- 0`, a micro-step of its own (R141; log 2). -/
def initReleaseTick (s : State) : State := { s with owned := false }.goto [] .initMark

/-- INIT's `init_done <- 1`, a micro-step of its own (R141; log 2). -/
def initMarkTick (s : State) : State := { s with initDone := true }.goto [] (.finish true .none 0)

/-- BUSSCAN's loop head at candidate `c` (R160): above `max` the scan ends, above ADDR_MAX the candidate is skipped. -/
def scanTick (c : BitVec 9) (max count : Byte) (first : Bool) (s : State) : State :=
  if max.setWidth 9 < c then s.goto [] (.finish true .none count)
  else if Config.addrMax.setWidth 9 < c then s.goto [] (.scan (c + 1) max count first)
  else s.goto ((if first then [] else [.delay .scanGap]) ++ [.doStart (c.extractLsb' 0 7) false, .doStop])
    (.scanned c max count)

/-- BUSSCAN's count after a probe (R160). -/
def scannedTick (c : BitVec 9) (max count : Byte) (s : State) : State :=
  s.goto [] (.scan (c + 1) max (if s.seq.acked then count + 1 else count) false)

/-- DEV_TICKREAD after `Xfer` (R181): on failure `rxbuf` is not written; on success its bytes are copied first, each in a
micro-step of its own (log 2). -/
def tickreadDoneTick (s : State) : State :=
  if s.seq.okx then s.goto [] (.tickreadKeep 0) else s.complete false .nackStart 0

/-- `rxbuf[k] <- rx[k]`, one micro-step for each `k` from 0 to 5 (R181). -/
def tickreadKeepTick (k : Fin 6) (s : State) : State :=
  { s with rxbuf := s.rxbuf.set k (s.seq.rx.getD k 0) }.goto []
    (if h : k.val + 1 < 6 then .tickreadKeep ⟨k.val + 1, h⟩ else .finish true .none 0)

/-- DEV_RESET and DEV_COLOR after `Xfer` (R182, R183). -/
def devDoneTick (s : State) : State :=
  s.complete s.seq.okx (if s.seq.okx then .none else .nackStart) 0

/-- GCALL_RESET after `Xfer`: the table is destroyed whatever the ack was (R212), each entry, `idx`, `next_addr` and the
latch in a micro-step of its own (log 2). -/
def gcallDestroyTick (s : State) : State := s.goto [] (.gcallEntry 0)

/-- One entry is cleared in each micro-step of the loop (R212). -/
def gcallEntryTick (i : Nat) (s : State) : State :=
  if i < s.nmax then (s.clearEntry i).goto [] (.gcallEntry (i + 1)) else s.goto [] .gcallIdx

/-- `idx <- 0` (R212). -/
def gcallIdxTick (s : State) : State := { s with idx := 0 }.goto [] .gcallNext

/-- `next_addr <- CHAIN_BASE` (R212). -/
def gcallNextTick (s : State) : State := { s with nextAddr := Config.chainBase }.goto [] .gcallLatch

/-- `enum_failed <- 0`, then the settle delay and the end (R212). -/
def gcallLatchTick (s : State) : State :=
  { s with enumFailed := false }.goto [.delay .gcrSettle]
    (.finish s.seq.okx (if s.seq.okx then .none else .nackStart) 0)

/-- CLAIM, parts A to C up to the hand-off's `Xfer` (R202 to R205), in the order of R211: the tests with the one update
between them, `retry_w <- 0` (log 2). -/
def claimTick (a : Byte) (s : State) : State :=
  if s.holds a then s.goto [wireReset (addr7 a)] (.finish true .none a)
  else if s.enumFailed then s.goto [] (.finish false .enumLatched 0)
  else if s.nmax ≤ s.idx.toNat then s.goto [] (.finish false .chainFull 0)
  else
    let s1 := { s with retryW := 0, seq := { s.seq with newAddr := addr7 s.nextAddr } }
    if s.idx = 0 then s1.goto [wireGcreset, .delay .gcrSettle] .claimProbe
    else if s.prevEntry.registered && s.prevEntry.active then
      s1.goto [wirePropagate s.prevEntry.addr] .claimPropagated
    else s1.goto [] (.claimFailed .chainBroken)

/-- CLAIM after the propagate, with the update its test guards (R205; log 2). -/
def claimPropagatedTick (s : State) : State :=
  if s.seq.okx then (s.setPrevTerminated false).goto [.delay .propSettle] .claimProbe
  else s.goto [] (.rollback .handshake)

/-- CLAIM probes the boot address (R206). -/
def claimProbeTick (s : State) : State := s.goto [wireProbe Config.bootAddr] .claimProbed

/-- CLAIM after a probe: change-address, another probe, or failure (R206, R207). -/
def claimProbedTick (s : State) : State :=
  if s.seq.okx then s.goto [wireSetaddr (s.params.payload s.seq.newAddr)] .claimAddressed
  else if s.retryW.toNat < Config.probeRetries then s.goto [.delay .probeRetry] .claimRetry
  else s.goto [] (.rollback .noBootDevice)

/-- `retry_w <- retry_w + 1` before the next probe (R206). -/
def claimRetryTick (s : State) : State := { s with retryW := s.retryW + 1 }.goto [] .claimProbe

/-- CLAIM after change-address: terminate the newly addressed device (R207). -/
def claimAddressedTick (s : State) : State :=
  if s.seq.okx then s.goto [.delay .addrWrite, wireTerminate s.seq.newAddr] .claimTerminated
  else s.goto [] (.rollback .handshake)

/-- CLAIM after terminate: the commit its test guards ("done together", R207; log 2), then the tick-counter clear whose
outcome is not used (R208; log 18). -/
def claimTerminatedTick (s : State) : State :=
  if s.seq.okx then
    s.commitClaim.goto [wireReset s.seq.newAddr] (.finish true .none (s.seq.newAddr.setWidth 8))
  else s.goto [] (.rollback .handshake)

/-- `ROLLBACK(e)`: re-terminate the previous device, if there is one (R209). -/
def rollbackTick (e : Err) (s : State) : State :=
  if s.idx = 0 then s.goto [] (.claimFailed e)
  else s.goto [wireTerminate s.prevEntry.addr] (.rolledBack e)

/-- `ROLLBACK(e)` after the re-terminate: the flag is set only if its start was acked (R209; log 2). -/
def rolledBackTick (e : Err) (s : State) : State :=
  (if s.seq.okx then s.setPrevTerminated true else s).goto [] (.claimFailed e)

/-- `enum_failed <- 1`, then `complete(0, e, 0)` (R204, R209). -/
def claimFailedTick (e : Err) (s : State) : State :=
  { s with enumFailed := true }.goto [] (.finish false e 0)

/-- A wire command run by itself has ended: the engine is at no command; it was no host command, so it reports no
outcome (log 11). -/
def wireDoneTick (s : State) : State := { s with busy := false }.goto [] .none

/-- The engine's next micro-step at a line of the running command. At `decode` and at no command it has none of its
own: `step` decodes. -/
def lineTick (l : Line) (s : State) : State :=
  match l with
  | .none => s
  | .decode => s
  | .finish ok e r => s.complete ok e r
  | .initCheck => initCheckTick s
  | .initRelease => initReleaseTick s
  | .initMark => initMarkTick s
  | .startDone => s.complete s.seq.acked (if s.seq.acked then .none else .nackStart) 0
  | .writeDone => s.complete s.seq.acked .none 0
  | .readDone => s.complete true .none s.seq.byte
  | .scan c max count first => scanTick c max count first s
  | .scanned c max count => scannedTick c max count s
  | .tickreadDone => tickreadDoneTick s
  | .tickreadKeep k => tickreadKeepTick k s
  | .devDone => devDoneTick s
  | .gcallDestroy => gcallDestroyTick s
  | .gcallEntry i => gcallEntryTick i s
  | .gcallIdx => gcallIdxTick s
  | .gcallNext => gcallNextTick s
  | .gcallLatch => gcallLatchTick s
  | .claim a => claimTick a s
  | .claimPropagated => claimPropagatedTick s
  | .claimProbe => claimProbeTick s
  | .claimProbed => claimProbedTick s
  | .claimRetry => claimRetryTick s
  | .claimAddressed => claimAddressedTick s
  | .claimTerminated => claimTerminatedTick s
  | .rollback e => rollbackTick e s
  | .rolledBack e => rolledBackTick e s
  | .claimFailed e => claimFailedTick e s
  | .wireDone => wireDoneTick s

end Sys2Proof.Machine
end

