-- ==== Sys2Proof/Machine/Engine.lean ====
section
/-!
DEFINITION. The engine: one micro-step (`tick`), and the engine left to itself until it has completed its command, waits
for a line that nothing will raise, or the host's next access is due (log 1, log 4).
-/

namespace Sys2Proof.Machine

/-- One micro-step of the engine (00_scope.md R13, 10_state.md R34; log 2). -/
def tick (s : State) : State :=
  (match s.seq.bus with
   | op :: rest => busTick op rest s
   | [] => lineTick s.seq.line s).pass

/-- The engine waits for a line, the line reads low, and the environment makes no more moves: it waits for ever
(60_exceptions.md R250; log 4). -/
def State.hung (s : State) : Bool :=
  s.looks.isEmpty &&
    match s.seq.bus with
    | .awaitScl :: _ => !s.sclLevel
    | .awaitIdle :: _ => !(s.sclLevel && s.sdaLevel)
    | .awaitIdleSda scl :: _ => !(s.sdaLevel && (scl || s.sclLevel))
    | _ => false

/-- The engine has no micro-step of its own: it is at no command, or a command word waits to be decoded. -/
def State.atRest (s : State) : Bool :=
  s.seq.bus.isEmpty && (s.seq.line == .none || s.seq.line == .decode)

/-- The engine is left here (log 1, log 4). -/
def State.paused (s : State) : Bool := s.atRest || s.hostDue || (s.hung && !s.hostPending)

/-- At most `fuel` micro-steps. -/
def engine : Nat → State → State
  | 0, s => s
  | fuel + 1, s => if s.paused then s else engine fuel (tick s)

/-- More micro-steps than any command takes beside its repeated reads of a low line (a full BUSSCAN takes fewer than
30000; log 1), the loop over the table apart. -/
def maxTicks : Nat := 65536

/-- The engine runs until it is left. Every repeated read of a line uses up a look or a micro-step of the gap, and only
GCALL_RESET takes longer with a longer table. -/
def engineRun (s : State) : State := engine (s.looks.length + s.gap.getD 0 + (s.nmax + maxTicks)) s

/-- The engine starts a command at these lines. -/
def launch (bus : List BusOp) (line : Line) (s : State) : Host.Outcome State Fault Refusal :=
  .next (engineRun ({ s with busy := true }.goto bus line))

/-- A host command runs if the checks let it, and is refused otherwise (60_exceptions.md R244, steps 2, 4, 5). -/
def checked (n : Needs) (s : State) (run : Host.Outcome State Fault Refusal) : Host.Outcome State Fault Refusal :=
  match firstFailure n s with
  | .none => run
  | e => .next (s.refuse e)

/-- An address operand above ADDR_MAX is rejected before any bus activity: the command's first line completes it
(41_bus_commands.md R143, 43_device_commands.md R172). -/
def addressed (a : Byte) (s : State) (run : Host.Outcome State Fault Refusal) : Host.Outcome State Fault Refusal :=
  if Config.addrMax < a then launch [] (.finish false .addrRange 0) s else run

/-- A wire command run by itself (log 11). A target above ADDR_MAX is rejected before any bus activity
(20_memory.md R66). -/
def wireAlone (t : Byte) (op : BusOp) (s : State) : Host.Outcome State Fault Refusal :=
  if targetOk t then launch [op] .wireDone s
  else .next { s with seq := { s.seq with okx := false, rx := [] } }

end Sys2Proof.Machine
end

