-- ==== Sys2Proof/Machine/BusCommands.lean ====
section
/-!
DEFINITION. The bus commands (41_bus_commands.md) and the bus scan (42_bus_scan.md): INIT, START, STOP, WRITEBYTE,
READBYTE, BUSSCAN.
-/

namespace Sys2Proof.Machine

/-- INIT (R141). -/
def execInit (s : State) : Host.Outcome State Fault Refusal :=
  checked .notInitialised s (launch [] .initCheck s)

/-- START a, f (R144). -/
def execStart (a : Byte) (f : Bool) (s : State) : Host.Outcome State Fault Refusal :=
  checked .initialised s (addressed a s (launch [.doStart (addr7 a) f] .startDone s))

/-- STOP (R147). -/
def execStop (s : State) : Host.Outcome State Fault Refusal :=
  checked .initialised s (launch [.doStop] (.finish true .none 0) s)

/-- WRITEBYTE a (R148). -/
def execWritebyte (a : Byte) (s : State) : Host.Outcome State Fault Refusal :=
  checked .ownedBus s (launch [.txByte a] .writeDone s)

/-- READBYTE f (R150). -/
def execReadbyte (f : Bool) (s : State) : Host.Outcome State Fault Refusal :=
  checked .ownedBus s (launch [.rxByte f] .readDone s)

/-- BUSSCAN a, b with `a = min`, `b = max` (R160). -/
def execBusscan (a b : Byte) (s : State) : Host.Outcome State Fault Refusal :=
  checked .freeBus s (launch [] (.scan (a.setWidth 9) b 0 true) s)

end Sys2Proof.Machine
end

