-- ==== Sys2Proof/Machine/ChainCommands.lean ====
section
/-!
DEFINITION. The chain engine's host commands (44_chain_enumeration.md): CLAIM, GCALL_RESET.
-/

namespace Sys2Proof.Machine

/-- CLAIM a (R201). Its operand is never rejected (R202, 30_encoding.md R93). -/
def execClaim (a : Byte) (s : State) : Host.Outcome State Fault Refusal :=
  checked .freeBus s (launch [] (.claim a) s)

/-- GCALL_RESET (R212). -/
def execGcallReset (s : State) : Host.Outcome State Fault Refusal :=
  checked .freeBus s (launch [wireGcreset] .gcallDestroy s)

end Sys2Proof.Machine
end

