-- ==== Sys2Proof/Machine/DeviceCommands.lean ====
section
/-!
DEFINITION. The host's device commands (43_device_commands.md R181 to R183): DEV_TICKREAD, DEV_RESET, DEV_COLOR.
-/

namespace Sys2Proof.Machine

/-- DEV_TICKREAD a (R181). -/
def execDevTickread (a : Byte) (s : State) : Host.Outcome State Fault Refusal :=
  checked .freeBus s (addressed a s (launch [wireTickread (addr7 a)] .tickreadDone s))

/-- DEV_RESET a (R182). -/
def execDevReset (a : Byte) (s : State) : Host.Outcome State Fault Refusal :=
  checked .freeBus s (addressed a s (launch [wireReset (addr7 a)] .devDone s))

/-- DEV_COLOR a, b (R183). -/
def execDevColor (a b : Byte) (s : State) : Host.Outcome State Fault Refusal :=
  checked .freeBus s (addressed a s (launch [wireColor (addr7 a) b] .devDone s))

end Sys2Proof.Machine
end

