-- ==== Sys2Proof/Machine/WireCommands.lean ====
section
/-!
DEFINITION. The wire commands run by themselves (30_encoding.md R99; 43_device_commands.md R177 to R187; log 11). They are
the engine's own procedures, no host commands, so the checks of 60_exceptions.md R244 are not theirs.
-/

namespace Sys2Proof.Machine

/-- W.PROBE A (R177). -/
def execWProbe (t : Byte) (s : State) : Host.Outcome State Fault Refusal :=
  wireAlone t (wireProbe (addr7 t)) s

/-- W.TICKREAD A (R187). -/
def execWTickread (t : Byte) (s : State) : Host.Outcome State Fault Refusal :=
  wireAlone t (wireTickread (addr7 t)) s

/-- W.RESET A (R178). -/
def execWReset (t : Byte) (s : State) : Host.Outcome State Fault Refusal :=
  wireAlone t (wireReset (addr7 t)) s

/-- W.PROPAGATE A (R179). -/
def execWPropagate (t : Byte) (s : State) : Host.Outcome State Fault Refusal :=
  wireAlone t (wirePropagate (addr7 t)) s

/-- W.TERMINATE A (R180). -/
def execWTerminate (t : Byte) (s : State) : Host.Outcome State Fault Refusal :=
  wireAlone t (wireTerminate (addr7 t)) s

/-- W.SETADDR (R184). -/
def execWSetaddr (p : Byte) (s : State) : Host.Outcome State Fault Refusal :=
  launch [wireSetaddr p] .wireDone s

/-- W.GCRESET (R185). -/
def execWGcreset (s : State) : Host.Outcome State Fault Refusal :=
  launch [wireGcreset] .wireDone s

/-- W.COLOR A, p (R186). -/
def execWColor (t p : Byte) (s : State) : Host.Outcome State Fault Refusal :=
  wireAlone t (wireColor (addr7 t) p) s

end Sys2Proof.Machine
end

