-- ==== Sys2Proof/Machine/Dispatch.lean ====
section
/-!
DEFINITION. One arm per constructor of Instr.
-/

namespace Sys2Proof.Machine

def exec (i : Instr) (s : State) : Host.Outcome State Fault Refusal :=
  match i with
  | .start a f => Sys2Proof.Machine.execStart a f s
  | .stop => Sys2Proof.Machine.execStop s
  | .writebyte a => Sys2Proof.Machine.execWritebyte a s
  | .readbyte f => Sys2Proof.Machine.execReadbyte f s
  | .busscan a b => Sys2Proof.Machine.execBusscan a b s
  | .init => Sys2Proof.Machine.execInit s
  | .claim a => Sys2Proof.Machine.execClaim a s
  | .devTickread a => Sys2Proof.Machine.execDevTickread a s
  | .devReset a => Sys2Proof.Machine.execDevReset a s
  | .gcallReset => Sys2Proof.Machine.execGcallReset s
  | .devColor a b => Sys2Proof.Machine.execDevColor a b s
  | .wProbe t => Sys2Proof.Machine.execWProbe t s
  | .wTickread t => Sys2Proof.Machine.execWTickread t s
  | .wReset t => Sys2Proof.Machine.execWReset t s
  | .wPropagate t => Sys2Proof.Machine.execWPropagate t s
  | .wTerminate t => Sys2Proof.Machine.execWTerminate t s
  | .wSetaddr p => Sys2Proof.Machine.execWSetaddr p s
  | .wGcreset => Sys2Proof.Machine.execWGcreset s
  | .wColor t p => Sys2Proof.Machine.execWColor t p s

end Sys2Proof.Machine
end

