-- ==== Sys2Proof/Machine/HostWindow.lean ====
section
/-!
DEFINITION. The host register window (10_state.md R40 to R44) and the acceptance of a command word (R32).
-/

namespace Sys2Proof.Machine

/-- STATUS (R41). -/
def statusReg (s : State) : Word :=
  (0 : BitVec 20) ++ s.err.code ++ (0 : BitVec 1) ++ BitVec.ofBool s.ovr ++ BitVec.ofBool s.enumFailed ++
    BitVec.ofBool s.fatal ++ BitVec.ofBool s.initDone ++ BitVec.ofBool s.owned ++ BitVec.ofBool s.ok ++
    BitVec.ofBool s.busy

/-- RESULT (R40). -/
def resultReg (s : State) : Word := s.result.setWidth 32

/-- ACKVEC (R40). -/
def ackvecReg (s : State) : Word := (0 : BitVec 11) ++ s.nb ++ s.ackvec

/-- RXLO: the first received byte in the lowest bits (R40, 20_memory.md R64). -/
def rxloReg (s : State) : Word := s.rxbuf[3] ++ s.rxbuf[2] ++ s.rxbuf[1] ++ s.rxbuf[0]

/-- RXHI (R40). -/
def rxhiReg (s : State) : Word := (0 : BitVec 16) ++ s.rxbuf[5] ++ s.rxbuf[4]

/-- CTRL: the direction bit and the two line levels (R42; log 8). -/
def ctrlReg (s : State) : Word :=
  putBit (putBit (putBit 0 s.params.ctrlDdirBit s.ctrl.ddir) s.params.ctrlSclBit s.sclLevel) s.params.ctrlSdaBit
    s.sdaLevel

/-- CHAIN (R40). -/
def chainReg (s : State) : Word := (0 : BitVec 16) ++ s.idx ++ s.nextAddr

/-- ENTRY[i] (R43). -/
def entryReg (e : Entry) : Word :=
  (0 : BitVec 8) ++ e.retry ++ (0 : BitVec 5) ++ BitVec.ofBool e.terminated ++ BitVec.ofBool e.active ++
    BitVec.ofBool e.registered ++ (0 : BitVec 1) ++ e.addr

/-- The value of the readable register at an offset of the map (R40); `none` where there is none. -/
def readReg (s : State) (off : Nat) : Option Word :=
  if off = 0x04 then some (statusReg s)
  else if off = 0x08 then some (resultReg s)
  else if off = 0x0C then some (ackvecReg s)
  else if off = 0x10 then some (rxloReg s)
  else if off = 0x14 then some (rxhiReg s)
  else if off = 0x18 then some (ctrlReg s)
  else if off = 0x1C then some s.params.hwVersion
  else if off = 0x20 then some (chainReg s)
  else if 0x40 ≤ off ∧ off % 4 = 0 then (s.entry[(off - 0x40) / 4]?).map entryReg
  else none

/-- The offset of CMD (R40). -/
def cmdOffset : Nat := 0x00

/-- The byte offset of an address in the window; `none` below HOST_BASE (R40; log 9). -/
def Params.offset (p : Params) (addr : Nat) : Option Nat :=
  if p.hostBase ≤ addr then some (addr - p.hostBase) else none

/-- A host read (R44). A read of CTRL is a look at the lines, a read of CMD returns a free value (log 10); no read changes
the block's state. -/
def hostRead (off width : Nat) (s : State) : Host.Outcome State Fault Refusal :=
  if width ≠ 32 then .refused .hostAccess
  else if off = cmdOffset then
    .next { s with hostRd := Config.cmdRead s.freeReads, freeReads := s.freeReads + 1 }
  else
    let s1 := if off = 0x18 then s.look else s
    match readReg s1 off with
    | some v => .next { s1 with hostRd := v }
    | none => .refused .hostAccess

/-- A host write to a register other than CMD changes nothing (R44). -/
def hostWriteOther (off width : Nat) (s : State) : Host.Outcome State Fault Refusal :=
  if width ≠ 32 then .refused .hostAccess
  else match readReg s off with
    | some _ => .next s
    | none => .refused .hostAccess

/-- `cmdw <- w; busy <- 1`: the command word waits to be decoded (R32). -/
def accept (w : Word) (s : State) : State := { s with cmdw := w, busy := true }.goto [] .decode

end Sys2Proof.Machine
end

