-- ==== Sys2Proof/Machine/Fetch.lean ====
section
/-!
DEFINITION. What a step calls: decoding the accepted word (60_exceptions.md R244, steps 2 and 3), a host access
(10_state.md R32, R44), and a wire request (log 11).
-/

namespace Sys2Proof.Machine

/-- The micro-step that decodes `cmdw` and applies the checks (R32, R244): fatal first, then illegal, then the
command's own. -/
def runCommand (s : State) : Host.Outcome State Fault Refusal :=
  if s.fatal then .next (s.refuse .fatal)
  else match decodeCommand s.cmdw with
    | none => .next (s.refuse .illegalCmd)
    | some i => exec i s

/-- A host write of `w` to CMD (R32): dropped while busy; otherwise accepted, and decoded by the engine's next micro-step
unless the host's next access comes before it (log 1). -/
def hostCommand (w : Word) (s : State) : Host.Outcome State Fault Refusal :=
  if s.busy then .next { s with ovr := true }
  else if (accept w s).hostDue then .next (accept w s)
  else runCommand (accept w s).pass

/-- A host write at an offset of the window (R44). -/
def hostWrite (off width : Nat) (w : Word) (s : State) : Host.Outcome State Fault Refusal :=
  if off = cmdOffset then (if width = 32 then hostCommand w s else .refused .hostAccess)
  else hostWriteOther off width s

/-- A host access (R44); one below the window is refused (log 9). -/
def hostAccess (a : Access) (s : State) : Host.Outcome State Fault Refusal :=
  match a with
  | .read addr width =>
    match s.params.offset addr with
    | some off => hostRead off width s
    | none => .refused .hostAccess
  | .write addr width w =>
    match s.params.offset addr with
    | some off => hostWrite off width w s
    | none => .refused .hostAccess

/-- The host's next access, taken from its list. -/
def hostStep (m : HostMove) (q : List HostMove) (s : State) : Host.Outcome State Fault Refusal :=
  hostAccess m.access { s with hostQ := q, gap := m.gapAfter }

/-- The engine goes on: it decodes a waiting word, or runs on; with `busy = 1` and no position it cannot (log 19). -/
def engineStep (s : State) : Host.Outcome State Fault Refusal :=
  if s.seq.bus.isEmpty && s.seq.line == .none then .fault .noPosition
  else if s.seq.bus.isEmpty && s.seq.line == .decode then runCommand s.pass
  else .next (engineRun s)

/-- A wire command handed to the engine from outside (log 11). -/
def wireStep (s : State) : Host.Outcome State Fault Refusal :=
  match decodeWire s.wireReq with
  | some i => exec i { s with wireReq := [] }
  | none => .refused .notAWireCommand

end Sys2Proof.Machine
end

