-- ==== Sys2Proof/Machine/Step.lean ====
section
/-!
DEFINITION. One step of the machine, and where its next instruction is put (log 1, log 12).
-/

namespace Sys2Proof.Machine

/-- One step. While a command runs, the host's access if it is due, else the engine. Otherwise a wire request, else the
host's next access; with neither, the block waits (10_state.md R48) and nothing changes (log 12). -/
def step (s : State) : Host.Outcome State Fault Refusal :=
  match s.busy, s.hostQ with
  | true, m :: q => if s.hostDue then hostStep m q s else engineStep s
  | true, [] => engineStep s
  | false, q =>
    if s.wireReq ≠ [] then wireStep s
    else match q with
      | m :: q' => hostStep m q' s
      | [] => .next s

/-- `s` with an instruction put where the next step takes it: a host command word as the host's next access (a write to
CMD), a wire command as a wire request; the engine is at no command, and the host polls after the access. -/
def State.withFetchWord (s : State) (nbits w : Nat) : State :=
  let t := { s with busy := false, seq := { s.seq with bus := [], line := .none }, wireReq := [] }
  if nbits = 32 ∧ (decodeCommand (BitVec.ofNat 32 w)).isSome then
    let m : HostMove := { access := .write (s.params.hostBase + cmdOffset) 32 (BitVec.ofNat 32 w), gapAfter := none }
    { t with hostQ := m :: s.hostQ }
  else { t with wireReq := bytesHighFirst (nbits / 8) w }

end Sys2Proof.Machine
end

