-- ==== Sys2Proof/Safety.lean ====
section
/-!
DEFINITION. The terms claims are stated in: the answers an environment gives to the block's looks at the lines, the
control-register writes of a run, what a transaction leaves, how a command ends, and the invariants.
-/

namespace Sys2Proof.Machine

/-! ## Answers of the environment

Each of the following is one way the environment may behave at the looks of one procedure, as plain data, with nothing
left out that lets the procedure end: any number of low reads of a stretched clock, any failed iterations of the idle
wait, any level of a line at a look where it does not matter. `looks` is the list of drives it stands for. -/

/-- `SCL_raise` (40_line_primitives.md R124): the reads at which SCL is held low (each with its SDA), then the read that
finds it high. -/
structure Rise where
  waits : List Bool
  sda : Bool

def Rise.looks (r : Rise) : List Drive := r.waits.map (Drive.mk false) ++ [⟨true, r.sda⟩]

/-- A bit cell (R128): the rise, then the sample of SDA. -/
structure Cell where
  rise : Rise
  scl : Bool
  samp : Bool

def Cell.looks (c : Cell) : List Drive := c.rise.looks ++ [⟨c.scl, c.samp⟩]

/-- A failed iteration of `WaitIdle` (R126): SCL low and whatever the SDA read finds, or SCL high and then SDA low. -/
inductive Miss where
  | scl (sda1 : Bool) (second : Drive)
  | sda (sda1 scl2 : Bool)

def Miss.looks : Miss → List Drive
  | .scl x d => [⟨false, x⟩, d]
  | .sda x y => [⟨true, x⟩, ⟨y, false⟩]

/-- What comes before a start condition (41_bus_commands.md R142): the rise, failed iterations of the idle wait, and the
iteration that finds both lines high. -/
structure Opening where
  rise : Rise
  misses : List Miss
  sda1 : Bool
  scl2 : Bool

def Opening.looks (o : Opening) : List Drive :=
  o.rise.looks ++ o.misses.flatMap Miss.looks ++ [⟨true, o.sda1⟩, ⟨o.scl2, true⟩]

/-- A byte frame (R129, R130): eight data cells, bit 7 first, and the ack cell. -/
structure Frame where
  c7 : Cell
  c6 : Cell
  c5 : Cell
  c4 : Cell
  c3 : Cell
  c2 : Cell
  c1 : Cell
  c0 : Cell
  ack : Cell

def Frame.looks (f : Frame) : List Drive :=
  f.c7.looks ++ f.c6.looks ++ f.c5.looks ++ f.c4.looks ++ f.c3.looks ++ f.c2.looks ++ f.c1.looks ++ f.c0.looks ++
    f.ack.looks

/-- The environment leaves SDA low in the ack cell. -/
def Frame.acked (f : Frame) : Bool := !f.ack.samp

/-- The byte a slave sends: the levels of the data cells, the first in bit 7 (20_memory.md R63). -/
def Frame.byte (f : Frame) : Byte :=
  BitVec.ofBool f.c7.samp ++ BitVec.ofBool f.c6.samp ++ BitVec.ofBool f.c5.samp ++ BitVec.ofBool f.c4.samp ++
    BitVec.ofBool f.c3.samp ++ BitVec.ofBool f.c2.samp ++ BitVec.ofBool f.c1.samp ++ BitVec.ofBool f.c0.samp

/-- A start: the opening and the address frame (R142). -/
structure Start where
  opening : Opening
  frame : Frame

def Start.looks (o : Start) : List Drive := o.opening.looks ++ o.frame.looks
def Start.acked (o : Start) : Bool := o.frame.acked

/-- A transaction without a read phase (43_device_commands.md R171): a start, the frames of the write phase, a stop. -/
structure Write where
  start : Start
  frames : List Frame
  stop : Rise

def Write.looks (w : Write) : List Drive := w.start.looks ++ w.frames.flatMap Frame.looks ++ w.stop.looks

/-- The answers are those to `n` written bytes: none is sent after a nacked start. -/
def Write.fits (w : Write) (n : Nat) : Prop := w.frames.length = if w.start.acked then n else 0

/-- A transaction with a read phase whose first start is acked (R171): the write phase, the restart, the received bytes,
a stop. -/
structure Read where
  start : Start
  frames : List Frame
  restart : Start
  data : List Frame
  stop : Rise

def Read.looks (r : Read) : List Drive :=
  r.start.looks ++ r.frames.flatMap Frame.looks ++ r.restart.looks ++ r.data.flatMap Frame.looks ++ r.stop.looks

/-- The answers are those to `n` written bytes and `m` read ones: none is read after a nacked restart. -/
def Read.fits (r : Read) (n m : Nat) : Prop :=
  r.start.acked = true ∧ r.frames.length = n ∧ r.data.length = if r.restart.acked then m else 0

/-- A start and a stop with nothing between: a probe of BUSSCAN (42_bus_scan.md R160). -/
structure Ping where
  start : Start
  stop : Rise

def Ping.looks (p : Ping) : List Drive := p.start.looks ++ p.stop.looks

/-- The environment at the end of a procedure. -/
def Frame.last (f : Frame) : Drive := ⟨f.ack.scl, f.ack.samp⟩
def Rise.last (r : Rise) : Drive := ⟨true, r.sda⟩

/-! ## What a transaction leaves -/

/-- The ack record of a transaction whose byte frames had these 9th bits (true = low): frame `k` in bit `k` (10_state.md
R30). -/
def ackBits (acks : List Bool) : BitVec 16 := (BitVec.ofBoolListLE acks).setWidth 16

/-- `nb` after these frames: no more than 16 (R30). -/
def ackCount (acks : List Bool) : BitVec 5 := BitVec.ofNat 5 (min acks.length 16)

/-- The 9th bits of received bytes: the master acks all but the last; the last one's is the line (R130, R171). -/
def readAcks : List Frame → List Bool
  | [] => []
  | [f] => [f.acked]
  | _ :: g :: fs => true :: readAcks (g :: fs)

/-- After a transaction that the bus was free for: the lines released, the bus free, a new ack record. -/
def State.afterTransaction (s : State) (acks : List Bool) (events : List WireEvent) (last : Drive) (more : List Drive) :
    State :=
  { s with
    ctrl := ⟨false, true, true⟩, owned := false, ackvec := ackBits acks, nb := ackCount acks,
    trace := s.trace ++ events, env := last, looks := more }

def Write.acks (w : Write) : List Bool := w.start.acked :: w.frames.map Frame.acked

/-- The wire trace in the notation of 00_scope.md R12. -/
def Write.events (w : Write) (addr : BusAddr) (bytes : List Byte) : List WireEvent :=
  [.start, .tx (addressByte addr false) w.start.acked] ++ List.zipWith (fun b f => .tx b f.acked) bytes w.frames ++
    [.stop]

/-- After `Xfer(addr, bytes, 0)` (R171), `active` flag included (R176). -/
def State.afterWrite (s : State) (addr : BusAddr) (bytes : List Byte) (w : Write) (more : List Drive) : State :=
  (s.afterTransaction w.acks (w.events addr bytes) w.stop.last more).touch addr w.start.acked

def Read.acks (r : Read) : List Bool :=
  (r.start.acked :: r.frames.map Frame.acked) ++ r.restart.acked :: readAcks r.data

def Read.events (r : Read) (addr : BusAddr) (bytes : List Byte) : List WireEvent :=
  [.start, .tx (addressByte addr false) r.start.acked] ++ List.zipWith (fun b f => .tx b f.acked) bytes r.frames ++
    [.restart, .tx (addressByte addr true) r.restart.acked] ++
    List.zipWith (fun f a => .rx f.byte a) r.data (readAcks r.data) ++ [.stop]

/-- After `Xfer(addr, bytes, nread)` with a read phase (R171): the restart's ack decides the `active` flag. -/
def State.afterRead (s : State) (addr : BusAddr) (bytes : List Byte) (r : Read) (more : List Drive) : State :=
  (s.afterTransaction r.acks (r.events addr bytes) r.stop.last more).touch addr r.restart.acked

/-- After the probes of a bus scan, in order (42_bus_scan.md R160): no `active` flag is touched. -/
def State.afterPings (s : State) : List BusAddr → List Ping → List Drive → State
  | c :: cs, p :: ps, more =>
    (s.afterTransaction [p.start.acked] [.start, .tx (addressByte c false) p.start.acked, .stop] p.stop.last
      (ps.flatMap Ping.looks ++ more)).afterPings cs ps more
  | _, _, _ => s

/-- The addresses a bus scan probes: from `min` to `max` ascending, none above ADDR_MAX (R160, R161). -/
def scanned (min max : Byte) : List BusAddr :=
  ((List.range (Config.addrMax.toNat + 1)).filter fun c => min.toNat ≤ c && c ≤ max.toNat).map (BitVec.ofNat 7)

/-! ## The parts of a claim (44_chain_enumeration.md R201) -/

/-- The operand asks for a new device: it is no registered address (R202). -/
def asksForNew (s : State) (a : Byte) : Prop :=
  Config.addrMax < a ∨
    ∀ (i : Nat) (e : Entry), i < s.idx.toNat → s.entry[i]? = some e → e.registered = true → e.addr ≠ a.setWidth 7

/-- The gates of a new claim are open (R203, R204). -/
structure GatesOpen (s : State) : Prop where
  latch : s.enumFailed = false
  room : s.idx.toNat < s.nmax
  upstream : s.idx ≠ 0 → s.prevEntry.registered = true ∧ s.prevEntry.active = true

/-- Part C's transaction answered by `w`: general call reset for the first claim, propagate to the previous device for a
later one (R205). -/
def State.afterHandoff (s : State) (w : Write) (more : List Drive) : State :=
  if s.idx = 0 then
    { s.afterWrite Config.bcastAddr (Config.selGcreset :: Config.gcrMagic) w more with retryW := 0 }
  else { s.afterWrite s.prevEntry.addr [Config.selPropagate] w more with retryW := 0 }

def State.handoffFits (s : State) (w : Write) : Prop :=
  w.fits (if s.idx = 0 then (Config.selGcreset :: Config.gcrMagic).length else 1)

/-- The previous device no longer ends the chain, once it has acked the propagate (R205). -/
def State.handedOff (s : State) : State :=
  if s.idx = 0 then s
  else { s with entry := s.entry.modify (s.idx.toNat - 1) fun e => { e with terminated := false } }

/-- The answers to the probes of the boot address: one, or a nacked one and the retry (R206). -/
structure Probing where
  first : Option Write
  last : Write

def Probing.looks (p : Probing) : List Drive := (p.first.elim [] Write.looks) ++ p.last.looks

def Probing.fits (p : Probing) : Prop :=
  (∀ w, p.first = some w → w.fits 0 ∧ w.start.acked = false) ∧ p.last.fits 0

/-- After the probes: `retry_w` counts the retry (R206). -/
def State.afterProbing (s : State) (p : Probing) (more : List Drive) : State :=
  match p.first with
  | none => s.afterWrite Config.bootAddr [] p.last more
  | some w =>
    { s.afterWrite Config.bootAddr [] w (p.last.looks ++ more) with retryW := 1 }.afterWrite Config.bootAddr [] p.last
      more

/-- The commit: the three assignments of R207. -/
def State.committed (s : State) : State :=
  { s with
    entry := s.entry.set s.idx.toNat ⟨addr7 s.nextAddr, true, true, true, s.retryW⟩
    idx := s.idx + 1
    nextAddr := s.nextAddr + Config.chainStep }

/-- W.SETADDR with the payload the parameter addr_payload has for the next address (R184, R207; log 7). -/
def State.afterSetaddr (s : State) (w : Write) (more : List Drive) : State :=
  s.afterWrite Config.bootAddr [Config.selSetaddr, s.params.payload (addr7 s.nextAddr)] w more

/-- W.TERMINATE to the next address (R207). -/
def State.afterTerminate (s : State) (w : Write) (more : List Drive) : State :=
  s.afterWrite (addr7 s.nextAddr) [Config.selTerminate] w more

/-- The rollback (R209): re-terminate the previous device, if there is one, and set the latch. -/
def State.afterRollback (s : State) (w : Write) (more : List Drive) : State :=
  if s.idx = 0 then { s with enumFailed := true }
  else
    let t := s.afterWrite s.prevEntry.addr [Config.selTerminate] w more
    { t with
      enumFailed := true,
      entry := if w.start.acked then t.entry.modify (s.idx.toNat - 1) fun e => { e with terminated := true } else t.entry }

/-- The looks of a rollback. -/
def State.rollbackLooks (s : State) (w : Write) : List Drive := if s.idx = 0 then [] else w.looks

/-! ## The host's accesses -/

/-- A host access that is outside the spec (10_state.md R44): another width, below the window, misaligned, or at an offset
the map does not list. Alignment is that of the offset (log 9). -/
def State.undefinedAccess (s : State) (addr width : Nat) : Prop :=
  width ≠ 32 ∨ addr < s.params.hostBase ∨
    (let off := addr - s.params.hostBase
     off % 4 ≠ 0 ∨ (0x24 ≤ off ∧ off < 0x40) ∨ 0x40 + 4 * s.nmax ≤ off)

/-- An offset that the map lists (R40). -/
def State.listedOffset (s : State) (off : Nat) : Prop :=
  off ∈ [0x00, 0x04, 0x08, 0x0C, 0x10, 0x14, 0x18, 0x1C, 0x20] ∨ ∃ i, i < s.nmax ∧ off = 0x40 + 4 * i

/-- The chain table and its counters are those of `s`. -/
structure SameChain (s t : State) : Prop where
  entry : t.entry = s.entry
  idx : t.idx = s.idx
  nextAddr : t.nextAddr = s.nextAddr
  enumFailed : t.enumFailed = s.enumFailed

/-- What no command but GCALL_RESET undoes (10_state.md R37, R38): the failure latch, and that a device is registered, at
its address and with its retry count. -/
structure ChainKept (s t : State) : Prop where
  latch : s.enumFailed = true → t.enumFailed = true
  registered : ∀ (k : Nat) (e : Entry), s.entry[k]? = some e → e.registered = true →
    ∃ e', t.entry[k]? = some e' ∧ e'.registered = true ∧ e'.addr = e.addr ∧ e'.retry = e.retry

/-! ## How a command ends -/

/-- `exec i s` answers the state `t`, up to the values the sequencer's procedures returned last, which mean nothing
between commands (10_state.md R34; log 17). -/
def Answers (i : Instr) (s t : State) : Prop :=
  ∃ q : Seq, q.bus = [] ∧ q.line = .none ∧ exec i s = .next { t with seq := q }

/-- The outcome fields as `complete` leaves them (10_state.md R33). -/
def State.outcome (s : State) (ok : Bool) (e : Err) (result : Byte) : State :=
  { s with ok := ok, err := e, result := result, busy := false }

/-! ## What the block does to the lines -/

/-- The line is a write of the control register (R120). -/
def BusOp.writes : BusOp → Bool
  | .sdaOut _ => true
  | .sdaRelease => true
  | .sclLow => true
  | .sclRaise => true
  | .releaseLines => true
  | _ => false

/-- The value the next micro-step writes to the control register, if it is a write. -/
def wrote (s : State) : List Ctrl :=
  match s.seq.bus with
  | op :: _ => if op.writes then [(tick s).ctrl] else []
  | [] => []

/-- `n` micro-steps of the engine. -/
def ticks : Nat → State → State
  | 0, s => s
  | n + 1, s => ticks n (tick s)

/-- The values written to the control register in `n` micro-steps, in order. -/
def ctrlWrites : Nat → State → List Ctrl
  | 0, _ => []
  | n + 1, s => wrote s ++ ctrlWrites n (tick s)

/-- The writes of a bit cell in which the block drives `v` (R128): SDA set with SCL low, SCL raised, SCL lowered. -/
def drivenCell (v : Bool) : List Ctrl := [⟨true, false, v⟩, ⟨true, true, v⟩, ⟨true, false, v⟩]

/-- The writes of a bit cell in which the block releases SDA (R128). -/
def releasedCell : List Ctrl := [⟨false, false, true⟩, ⟨false, true, true⟩, ⟨false, false, true⟩]

/-- The bits of a byte in the order they go on the wire, bit 7 first (20_memory.md R63). -/
def wireBits (b : Byte) : List Bool := (List.range 8).map fun k => b.getLsbD (7 - k)

/-- The writes of a transmitted byte (R129): its bits driven in order, then the ack cell released. -/
def txWrites (b : Byte) : List Ctrl := (wireBits b).flatMap drivenCell ++ releasedCell

/-- The writes of a received byte (R130): eight cells released, then the ack cell driven low (more bytes are wanted) or
left high (the last byte). -/
def rxWrites (last : Bool) : List Ctrl := (List.replicate 8 releasedCell).flatten ++ drivenCell last

/-- The writes of a start (41_bus_commands.md R142) from `ctrl.SCLO = c`: SDA released, SCL raised, SDA pulled low with
SCL high, SCL lowered; then the address byte. -/
def startWrites (c : Bool) (ab : Byte) : List Ctrl :=
  [⟨false, c, true⟩, ⟨false, true, true⟩, ⟨true, true, false⟩, ⟨true, false, false⟩] ++ txWrites ab

/-- The writes of a stop (R146) from the control register `c`: SCL lowered, SDA pulled low, SCL raised, SDA released with
SCL high. -/
def stopWrites (c : Ctrl) : List Ctrl :=
  [⟨c.ddir, false, c.sdao⟩, ⟨true, false, false⟩, ⟨true, true, false⟩, ⟨false, true, true⟩]

/-! ## Invariants -/

/-- The sequencer is at a command exactly while `busy = 1` (10_state.md R25, R34). -/
structure PositionInv (s : State) : Prop where
  busy : s.busy = true ↔ s.seq.line ≠ .none
  none : s.seq.line = .none → s.seq.bus = []
  decode : s.seq.line = .decode → s.seq.bus = []

/-- The chain table (10_state.md R35, R36, R38, R39 (a), (b)). -/
structure TableInv (s : State) : Prop where
  /-- The bound of 00_scope.md R9. -/
  room : s.nmax ≤ 32
  /-- R35. -/
  idx : s.idx.toNat ≤ s.nmax
  /-- R36. -/
  next : s.nextAddr = Config.chainBase + Config.chainStep * s.idx
  /-- R38, R39 (a). -/
  listed : ∀ (i : Nat) (e : Entry), s.entry[i]? = some e → i < s.idx.toNat →
    e.registered = true ∧ e.addr = addr7 (Config.chainBase + Config.chainStep * BitVec.ofNat 8 i) ∧
      e.retry.toNat ≤ Config.probeRetries
  /-- R38. -/
  free : ∀ (i : Nat) (e : Entry), s.entry[i]? = some e → s.idx.toNat ≤ i → e = Entry.zero
  /-- R39 (b): the one entry that may be terminated is the newest. -/
  newest : ∀ (i : Nat) (e : Entry), s.entry[i]? = some e → e.terminated = true → i + 1 = s.idx.toNat

/-- A running claim is past its gates and knows the address it assigns. -/
structure Claiming (s : State) : Prop where
  room : s.idx.toNat < s.nmax
  new : s.seq.newAddr = addr7 s.nextAddr

/-- No entry is terminated. -/
def State.noneTerminated (s : State) : Prop := ∀ (i : Nat) (e : Entry), s.entry[i]? = some e → e.terminated = false

/-- What holds at the lines of a running CLAIM (44_chain_enumeration.md R201); from the acked propagate to the commit no
entry is terminated (10_state.md R39 (c)). -/
def ClaimInv (s : State) : Prop :=
  match s.seq.line with
  | .claimPropagated => Claiming s ∧ s.idx ≠ 0 ∧ s.retryW = 0
  | .claimProbe => Claiming s ∧ s.noneTerminated ∧ s.retryW.toNat ≤ Config.probeRetries
  | .claimProbed => Claiming s ∧ s.noneTerminated ∧ s.retryW.toNat ≤ Config.probeRetries
  | .claimRetry => Claiming s ∧ s.noneTerminated ∧ s.retryW.toNat < Config.probeRetries
  | .claimAddressed => Claiming s ∧ s.noneTerminated ∧ s.retryW.toNat ≤ Config.probeRetries
  | .claimTerminated => Claiming s ∧ s.noneTerminated ∧ s.retryW.toNat ≤ Config.probeRetries
  | .rolledBack _ => s.idx ≠ 0
  | _ => True

/-- A table of which GCALL_RESET has cleared the entries below `i` (R212). -/
structure Destroying (s : State) (i : Nat) : Prop where
  room : s.nmax ≤ 32
  idx : s.idx.toNat ≤ s.nmax
  cleared : ∀ (k : Nat) (e : Entry), s.entry[k]? = some e → k < i → e = Entry.zero

/-- The table, whole except while GCALL_RESET destroys it, one state update at a time (R212). -/
def TableAt (s : State) : Prop :=
  match s.seq.line with
  | .gcallEntry i => s.seq.bus = [] ∧ Destroying s i
  | .gcallIdx => s.seq.bus = [] ∧ Destroying s s.nmax
  | .gcallNext => s.seq.bus = [] ∧ Destroying s s.nmax ∧ s.idx = 0
  | _ => TableInv s

/-- The chain's invariant. -/
structure ChainInv (s : State) : Prop where
  table : TableAt s
  claim : ClaimInv s

/-! ## Where a command can touch the chain -/

/-- The line is no part of `Xfer`, the only bus procedure that touches the table (43_device_commands.md R176). -/
def BusOp.raw : BusOp → Bool
  | .xfer _ _ _ => false
  | .touch _ => false
  | .xferStarted _ _ _ => false
  | .xferRestarted _ => false
  | _ => true

/-- A line of INIT, a raw command or BUSSCAN, or the end of any command (41_bus_commands.md, 42_bus_scan.md R160). -/
def Line.raw : Line → Bool
  | .none => true
  | .finish _ _ _ => true
  | .initCheck => true
  | .initRelease => true
  | .initMark => true
  | .startDone => true
  | .writeDone => true
  | .readDone => true
  | .scan _ _ _ _ => true
  | .scanned _ _ _ => true
  | _ => false

/-- The engine is inside INIT, a raw command or BUSSCAN, or at no command. -/
def State.runsRaw (s : State) : Prop := s.seq.bus.all BusOp.raw = true ∧ s.seq.line.raw = true

/-- The engine is copying the bytes of a successful tick read into `rxbuf` (R181). -/
def Line.keepsRx : Line → Bool
  | .tickreadKeep _ => true
  | _ => false

/-- A line of DEV_TICKREAD (R181). -/
def Line.ofTickread : Line → Bool
  | .tickreadDone => true
  | .tickreadKeep _ => true
  | _ => false

/-- A line of GCALL_RESET (R212). -/
def Line.ofGcall : Line → Bool
  | .gcallDestroy => true
  | .gcallEntry _ => true
  | .gcallIdx => true
  | .gcallNext => true
  | .gcallLatch => true
  | _ => false

/-- The ack record holds nothing above its count, which is at most 16 (10_state.md R30). -/
structure RecordInv (s : State) : Prop where
  count : s.nb.toNat ≤ 16
  above : ∀ k, s.nb.toNat ≤ k → s.ackvec.getLsbD k = false

/-- What a line of a bus procedure makes of the control register and of `owned` when it is run to its end
(40_line_primitives.md R120 to R130, 41_bus_commands.md R142, R146, 43_device_commands.md R171). -/
def BusOp.settle : BusOp → Ctrl × Bool → Ctrl × Bool
  | .sdaOut v, (c, o) => (⟨true, c.sclo, v⟩, o)
  | .sdaRelease, (c, o) => (⟨false, c.sclo, true⟩, o)
  | .sclLow, (c, o) => (⟨c.ddir, false, c.sdao⟩, o)
  | .sclRaise, (c, o) => (⟨c.ddir, true, c.sdao⟩, o)
  | .releaseLines, (_, o) => (⟨false, true, true⟩, o)
  | .bitCell d v, (_, o) => (⟨d, false, if d then v else true⟩, o)
  | .txByte _, (_, o) => (⟨false, false, true⟩, o)
  | .rxByte last, (_, o) => (⟨true, false, last⟩, o)
  | .doStart _ _, _ => (⟨false, false, true⟩, true)
  | .own, (c, _) => (c, true)
  | .doStop, _ => (⟨false, true, true⟩, false)
  | .disown, (c, _) => (c, false)
  | .xfer _ _ _, _ => (⟨false, true, true⟩, false)
  | .xferStarted _ _ _, _ => (⟨false, true, true⟩, false)
  | .xferRestarted _, _ => (⟨false, true, true⟩, false)
  | _, p => p

/-- Where the lines end when the bus procedure being run is over. -/
def State.settled (s : State) : Ctrl × Bool := s.seq.bus.foldl (fun p op => op.settle p) (s.ctrl, s.owned)

/-- The lines (10_state.md R27): whatever is running, once its bus procedure is over the block holds SCL low if it owns
the bus, and has released both lines if it does not; it owns the bus only after a successful INIT. -/
structure LinesInv (s : State) : Prop where
  held : s.settled.2 = true → s.settled.1.sclo = false ∧ s.initDone = true
  released : s.settled.2 = false → s.settled.1 = ⟨false, true, true⟩
  init : s.seq.line = .initCheck ∨ s.seq.line = .initRelease → s.settled.2 = false

/-- All of the above. -/
structure Inv (s : State) : Prop where
  position : PositionInv s
  chain : ChainInv s
  record : RecordInv s
  lines : LinesInv s

end Sys2Proof.Machine
end

