-- ==== Sys2Proof/Certificates/Slice0/Obligations.lean ====
section
/-!
DEFINITION. The statements about the model, for the provers. `looks`, `gap`, `hostQ`, `wireReq`, `hostRd`, `freeReads`,
`trace` and the split of the sequencer position are the model's own (logs 1, 3, 10, 11, 14); the parameters of 00_scope.md R8
are `params` and the length of `entry` (logs 5 to 9), of any value in every statement; the environment's answers (`Rise`, `Cell`,
`Frame`, `Start`, `Write`, `Read`, `Ping`) cover every way it lets a procedure end.
-/

open Sys2Proof Sys2Proof.Machine

/-! ## The named values -/

/-- The values of 00_scope.md R7, each under its name; the terms of the statements use the names. -/
def Obligations.NamedValuesAreTheSpecs : Prop :=
  Config.addrMax = 0x7F ∧ Config.bootAddr = 0x60 ∧ Config.bcastAddr = 0x00 ∧ Config.chainBase = 0x20 ∧
  Config.chainStep = 2 ∧ Config.selTickread = 0x40 ∧ Config.selReset = 0x4A ∧ Config.selPropagate = 0x4B ∧
  Config.selTerminate = 0x4C ∧ Config.selSetaddr = 0x4D ∧ Config.selGcreset = 0x4E ∧ Config.selColor = 0x5E ∧
  Config.gcrMagic = [0xCA, 0x03] ∧ Config.tickreadLen = 6 ∧ Config.probeRetries = 1 ∧ Config.tSettle = 5 ∧
  Config.tSetupMin = 1 ∧ Config.tScanGap = 100 ∧ Config.fBusMax = 100 * 1000

/-! ## Encoding -/

/-- Decoding undoes encoding, for every instruction that has an encoding (30_encoding.md R91, R99). -/
def Obligations.DecodeEncodeAgree : Prop :=
  ∀ i : Instr, WellFormed i = true → decode (encode i) = some i

/-- A host command word that decodes is the encoding of what it decodes to, and what it decodes to has an encoding
(30_encoding.md R90: "A field a command does not use is reserved for that command and must be 0"). -/
def Obligations.CommandWordHasOneMeaning : Prop :=
  ∀ (w : Word) (i : Instr), decodeCommand w = some i → encode i = .command w ∧ WellFormed i = true

/-- Transmitted bytes that decode are the encoding of what they decode to, whose target is at most ADDR_MAX. -/
def Obligations.WireBytesHaveOneMeaning : Prop :=
  ∀ (bs : List Byte) (i : Instr), decodeWire bs = some i → encode i = .wire bs ∧ WellFormed i = true

/-- The match and mask of every row of format C, and the operand fields (30_encoding.md R90, R92). -/
def Obligations.CommandDecodesByMatchAndMask : Prop :=
  ∀ w : Word,
    let a : Byte := w.extractLsb' 0 8
    let b : Byte := w.extractLsb' 8 8
    let f : Bool := w.getLsbD 16
    (∀ a' f', decodeCommand w = some (.start a' f') ↔ w &&& 0xFFFEFF00 = 0x01000000 ∧ a' = a ∧ f' = f) ∧
    (decodeCommand w = some .stop ↔ w &&& 0xFFFFFFFF = 0x02000000) ∧
    (∀ a', decodeCommand w = some (.writebyte a') ↔ w &&& 0xFFFFFF00 = 0x03000000 ∧ a' = a) ∧
    (∀ f', decodeCommand w = some (.readbyte f') ↔ w &&& 0xFFFEFFFF = 0x04000000 ∧ f' = f) ∧
    (∀ a' b', decodeCommand w = some (.busscan a' b') ↔ w &&& 0xFFFF0000 = 0x05000000 ∧ a' = a ∧ b' = b) ∧
    (decodeCommand w = some .init ↔ w &&& 0xFFFFFFFF = 0x06000000) ∧
    (∀ a', decodeCommand w = some (.claim a') ↔ w &&& 0xFFFFFF00 = 0x20000000 ∧ a' = a) ∧
    (∀ a', decodeCommand w = some (.devTickread a') ↔ w &&& 0xFFFFFF00 = 0x40000000 ∧ a' = a) ∧
    (∀ a', decodeCommand w = some (.devReset a') ↔ w &&& 0xFFFFFF00 = 0x4A000000 ∧ a' = a) ∧
    (decodeCommand w = some .gcallReset ↔ w &&& 0xFFFFFFFF = 0x4E000000) ∧
    (∀ a' b', decodeCommand w = some (.devColor a' b') ↔ w &&& 0xFFFF0000 = 0x5E000000 ∧ a' = a ∧ b' = b)

/-- Words written out from the table of 30_encoding.md R103 and bytes from R99, in the table's numbering (log 13). -/
def Obligations.SampleWordsDecode : Prop :=
  decodeTableWord 32 0x01010020 = some (.start 0x20 true) ∧
  decodeTableWord 32 0x05002320 = some (.busscan 0x20 0x23) ∧
  decodeTableWord 32 0x5E000520 = some (.devColor 0x20 0x05) ∧
  decodeTableWord 32 0x00000000 = none ∧
  decodeTableWord 32 0x4B000020 = none ∧
  decodeTableWord 24 0x404041 = some (.wTickread 0x20) ∧
  decodeTableWord 24 0xC04D22 = some (.wSetaddr 0x22) ∧
  decodeTableWord 16 0x444C = some (.wTerminate 0x22) ∧
  decodeTableWord 32 0x004ECA03 = some .wGcreset

/-! ## Reset, the step, and the order of checks -/

/-- Every piece of the block's state after reset, and that the block then waits for a host command (10_state.md R48). -/
def Obligations.ResetLeavesTheListedValues : Prop :=
  State.reset.ctrl = ⟨false, true, true⟩ ∧ State.reset.busy = false ∧ State.reset.cmdw = 0 ∧
  State.reset.initDone = false ∧ State.reset.fatal = false ∧ State.reset.owned = false ∧ State.reset.ok = false ∧
  State.reset.err.code = 0 ∧ State.reset.result = 0 ∧ State.reset.ovr = false ∧ State.reset.ackvec = 0 ∧
  State.reset.nb = 0 ∧ (∀ k : Fin 6, State.reset.rxbuf[k] = 0) ∧ State.reset.retryW = 0 ∧ State.reset.idx = 0 ∧
  State.reset.nextAddr = 0x20 ∧ State.reset.enumFailed = false ∧
  (∀ i, i < State.reset.nmax → State.reset.entry[i]? = some ⟨0, false, false, false, 0⟩) ∧
  State.reset.seq.line = .none ∧ State.reset.seq.bus = [] ∧ core.reset = State.reset ∧
  step State.reset = .next State.reset

/-- The invariants hold after reset. -/
def Obligations.InvariantsHoldAtReset : Prop := Inv State.reset

/-- Every step keeps the invariants, whatever the host, the environment and a wire request do (10_state.md R25, R27, R30,
R35, R36, R38, R39). -/
def Obligations.EveryStepKeepsTheInvariants : Prop :=
  ∀ s t : State, Inv s → step s = .next t → Inv t

/-- With `busy = 1` the sequencer is at a command, so the step's one fault never happens: every step answers a next state,
or refuses an undefined access of the host (10_state.md R44) or an undefined wire request (log 11). -/
def Obligations.StepsStopOnlyOnUndefinedRequests : Prop :=
  ∀ s : State, PositionInv s →
    (∃ t, step s = .next t) ∨
    (∃ m q addr width, s.hostQ = m :: q ∧ (m.access = .read addr width ∨ ∃ w, m.access = .write addr width w) ∧
      s.undefinedAccess addr width ∧ step s = .refused .hostAccess) ∨
    (s.wireReq ≠ [] ∧ decodeWire s.wireReq = none ∧ step s = .refused .notAWireCommand)

/-- An idle block that the host writes a command word to runs the instruction the word decodes to, in one step, on the
state with the word accepted, when the host then polls (10_state.md R32; the grain of a step is log 1). -/
def Obligations.StepRunsTheDecodedCommand : Prop :=
  ∀ (s : State) (w : Word) (q : List HostMove) (i : Instr),
    s.busy = false → s.wireReq = [] → s.fatal = false →
    s.hostQ = ⟨.write s.params.hostBase 32 w, none⟩ :: q → decodeCommand w = some i →
    step s = exec i { s with
      hostQ := q, gap := none, cmdw := w, busy := true, seq := { s.seq with bus := [], line := .decode } }

/-- An idle block takes a wire request in one step (log 11). -/
def Obligations.StepRunsTheWireRequest : Prop :=
  ∀ (s : State) (i : Instr), s.busy = false → decodeWire s.wireReq = some i →
    step s = exec i { s with wireReq := [] }

/-- The order of checks on a host write of `w` to CMD (60_exceptions.md R244): dropped while busy; then fatal, illegal,
not initialised, sequencing (41_bus_commands.md R151), each refused with `ok = 0`, its code, `result = 0` (R243) and
nothing else changed. -/
def Obligations.ChecksDecideInOrder : Prop :=
  ∀ (s : State) (w : Word),
    let accepted : State := { s with cmdw := w, gap := none, seq := { s.seq with bus := [], line := .none } }
    let refused : Err → State := fun e => { accepted with ok := false, err := e, result := 0, busy := false }
    let answer := hostAccess (.write s.params.hostBase 32 w) { s with gap := none }
    (s.busy = true → answer = .next { s with gap := none, ovr := true }) ∧
    (s.busy = false →
      (s.fatal = true → answer = .next (refused .fatal)) ∧
      (s.fatal = false →
        (decodeCommand w = none → answer = .next (refused .illegalCmd)) ∧
        (∀ i, decodeCommand w = some i →
          (i = .init →
            (s.initDone = true → answer = .next (refused .seq))) ∧
          (i ≠ .init →
            (s.initDone = false → answer = .next (refused .notInit)) ∧
            (s.initDone = true →
              ((∃ a, i = .writebyte a) ∨ (∃ f, i = .readbyte f) → s.owned = false → answer = .next (refused .seq)) ∧
              ((∃ a b, i = .busscan a b) ∨ (∃ a, i = .claim a) ∨ (∃ a, i = .devTickread a) ∨ (∃ a, i = .devReset a) ∨
                i = .gcallReset ∨ (∃ a b, i = .devColor a b) → s.owned = true → answer = .next (refused .seq)))))))

/-- A write to CMD while busy is dropped, in every state; `ovr` says so and no step clears it (10_state.md R29). -/
def Obligations.BusyWriteIsDroppedAndOvrStays : Prop :=
  (∀ (s : State) (w : Word), s.busy = true →
    hostAccess (.write s.params.hostBase 32 w) s = .next { s with ovr := true }) ∧
  (∀ s t : State, s.ovr = true → step s = .next t → t.ovr = true)

/-- What a step is (00_scope.md R13, 10_state.md R32; logs 1, 24). While busy, the host's next access is taken when it is
due; when it is not, an accepted word is decoded (fatal first, then illegal, 60_exceptions.md R244) and run, and a running
command goes on. An idle block takes the host's next access, of any kind; a word that the host follows at once with another
access waits to be decoded; with nothing to do nothing changes. -/
def Obligations.StepIsHostOrEngine : Prop :=
  ∀ s : State,
    (s.busy = true →
      (∀ m q, s.hostQ = m :: q → s.gap = some 0 →
        step s = hostAccess m.access { s with hostQ := q, gap := m.gapAfter }) ∧
      (s.hostQ = [] ∨ s.gap ≠ some 0 →
        (s.seq.line ≠ .none → s.seq.line ≠ .decode → step s = .next (engineRun s)) ∧
        (s.seq.bus = [] → s.seq.line = .decode →
          let u : State := { s with gap := s.gap.map (· - 1) }
          (s.fatal = true → step s = .next (u.refuse .fatal)) ∧
          (s.fatal = false → decodeCommand s.cmdw = none → step s = .next (u.refuse .illegalCmd)) ∧
          (∀ i, s.fatal = false → decodeCommand s.cmdw = some i → step s = exec i u)))) ∧
    (s.busy = false → s.wireReq = [] →
      (∀ m q, s.hostQ = m :: q → step s = hostAccess m.access { s with hostQ := q, gap := m.gapAfter }) ∧
      (∀ w m q, s.hostQ = ⟨.write s.params.hostBase 32 w, some 0⟩ :: m :: q →
        step s = .next { s with
          hostQ := m :: q, gap := some 0, cmdw := w, busy := true, seq := { s.seq with bus := [], line := .decode } }) ∧
      (s.hostQ = [] → step s = .next s))

/-! ## The host's registers -/

/-- The fields of STATUS, all read-only (10_state.md R41), and the number each error has in `ERR` (60_exceptions.md R241). -/
def Obligations.StatusReadsItsFields : Prop :=
  (Err.none.code = 0 ∧ Err.nackStart.code = 1 ∧ Err.addrRange.code = 2 ∧ Err.illegalCmd.code = 3 ∧ Err.seq.code = 4 ∧
    Err.notInit.code = 5 ∧ Err.fatal.code = 6 ∧ Err.chainBroken.code = 8 ∧ Err.noBootDevice.code = 9 ∧
    Err.handshake.code = 10 ∧ Err.enumLatched.code = 11 ∧ Err.chainFull.code = 12) ∧
  ∀ s : State, ∃ v : Word, hostAccess (.read (s.params.hostBase + 0x04) 32) s = .next { s with hostRd := v } ∧
    v.getLsbD 0 = s.busy ∧ v.getLsbD 1 = s.ok ∧ v.getLsbD 2 = s.owned ∧ v.getLsbD 3 = s.initDone ∧
    v.getLsbD 4 = s.fatal ∧ v.getLsbD 5 = s.enumFailed ∧ v.getLsbD 6 = s.ovr ∧ v.getLsbD 7 = false ∧
    v.extractLsb' 8 4 = s.err.code ∧ v.extractLsb' 12 20 = 0 ∧
    (∀ w : Word, hostAccess (.write (s.params.hostBase + 0x04) 32 w) s = .next s)

/-- RESULT, ACKVEC, RXLO, RXHI, VERSION and CHAIN (10_state.md R40), with the received bytes in order, first byte lowest. -/
def Obligations.ResultAndChainRegistersRead : Prop :=
  ∀ s : State,
    hostAccess (.read (s.params.hostBase + 0x08) 32) s = .next { s with hostRd := s.result.setWidth 32 } ∧
    (∃ v : Word, hostAccess (.read (s.params.hostBase + 0x0C) 32) s = .next { s with hostRd := v } ∧
      v.extractLsb' 0 16 = s.ackvec ∧ v.extractLsb' 16 5 = s.nb ∧ v.extractLsb' 21 11 = 0) ∧
    (∃ lo hi : Word, hostAccess (.read (s.params.hostBase + 0x10) 32) s = .next { s with hostRd := lo } ∧
      hostAccess (.read (s.params.hostBase + 0x14) 32) s = .next { s with hostRd := hi } ∧
      (∀ k : Fin 4, lo.extractLsb' (8 * k) 8 = s.rxbuf[k.val]) ∧
      hi.extractLsb' 0 8 = s.rxbuf[4] ∧ hi.extractLsb' 8 8 = s.rxbuf[5] ∧ hi.extractLsb' 16 16 = 0) ∧
    hostAccess (.read (s.params.hostBase + 0x1C) 32) s = .next { s with hostRd := s.params.hwVersion } ∧
    (∃ v : Word, hostAccess (.read (s.params.hostBase + 0x20) 32) s = .next { s with hostRd := v } ∧
      v.extractLsb' 0 8 = s.nextAddr ∧ v.extractLsb' 8 8 = s.idx ∧ v.extractLsb' 16 16 = 0)

/-- ENTRY[i] for every `i < NMAX`, read-only (10_state.md R43). -/
def Obligations.EntryReadsItsFields : Prop :=
  ∀ (s : State) (i : Nat) (e : Entry), s.entry[i]? = some e →
    ∃ v : Word, hostAccess (.read (s.params.hostBase + (0x40 + 4 * i)) 32) s = .next { s with hostRd := v } ∧
      v.extractLsb' 0 7 = e.addr ∧ v.getLsbD 7 = false ∧ v.getLsbD 8 = e.registered ∧ v.getLsbD 9 = e.active ∧
      v.getLsbD 10 = e.terminated ∧ v.extractLsb' 11 5 = 0 ∧ v.extractLsb' 16 8 = e.retry ∧ v.extractLsb' 24 8 = 0 ∧
      (∀ w : Word, hostAccess (.write (s.params.hostBase + (0x40 + 4 * i)) 32 w) s = .next s)

/-- CTRL as the host reads it: the direction bit and the levels of the two lines, each the wired-AND of the block and the
environment (10_state.md R22, R23, R42); the block's state does not change. Where the environment has a coming drive, the
read sees it (log 3); the three bit positions are parameters, of any three different values (log 8). -/
def Obligations.CtrlReadsTheLines : Prop :=
  ∀ s : State, s.params.ctrlDdirBit ≠ s.params.ctrlSclBit → s.params.ctrlDdirBit ≠ s.params.ctrlSdaBit →
    s.params.ctrlSclBit ≠ s.params.ctrlSdaBit →
    ∃ (v : Word) (d : Drive) (ds : List Drive),
      (s.looks = d :: ds ∨ (s.looks = [] ∧ ds = [] ∧ d = s.env)) ∧
      hostAccess (.read (s.params.hostBase + 0x18) 32) s = .next { s with env := d, looks := ds, hostRd := v } ∧
      v.getLsbD s.params.ctrlDdirBit = s.ctrl.ddir ∧
      v.getLsbD s.params.ctrlSclBit = (s.ctrl.sclo && d.scl) ∧
      v.getLsbD s.params.ctrlSdaBit = (!(s.ctrl.ddir && !s.ctrl.sdao) && d.sda) ∧
      ∀ k : Fin 32, k ≠ s.params.ctrlDdirBit → k ≠ s.params.ctrlSclBit → k ≠ s.params.ctrlSdaBit → v.getLsbD k = false

/-- The host may read any register of the map at any time, and a read changes none of the block's state (10_state.md R44):
only the model's own fields, the value read, the look at the lines of a read of CTRL (log 3), and the count of free values
of a read of CMD, whose value the spec does not state (log 10). -/
def Obligations.EveryListedRegisterCanBeRead : Prop :=
  ∀ (s : State) (off : Nat), s.listedOffset off →
    ∃ (v : Word) (d : Drive) (ds : List Drive) (n : Nat),
      hostAccess (.read (s.params.hostBase + off) 32) s =
        .next { s with hostRd := v, env := d, looks := ds, freeReads := n } ∧
      (off ≠ 0x18 → d = s.env ∧ ds = s.looks) ∧ (off ≠ 0x00 → n = s.freeReads) ∧
      (off = 0x00 → v = Config.cmdRead s.freeReads ∧ n = s.freeReads + 1)

/-- A write to a register other than CMD changes nothing (10_state.md R44). -/
def Obligations.OtherWritesChangeNothing : Prop :=
  ∀ (s : State) (w : Word) (off : Nat),
    s.listedOffset off → off ≠ 0x00 → hostAccess (.write (s.params.hostBase + off) 32 w) s = .next s

/-- Another width, a misaligned access, or an offset the map does not list is refused (10_state.md R44), and nothing else
is: an access that is not refused is at an offset of the map. -/
def Obligations.UndefinedAccessesAreRefused : Prop :=
  ∀ (s : State) (w : Word) (addr width : Nat),
    (s.undefinedAccess addr width →
      hostAccess (.read addr width) s = .refused .hostAccess ∧
      hostAccess (.write addr width w) s = .refused .hostAccess) ∧
    (¬s.undefinedAccess addr width →
      width = 32 ∧ ∃ off, addr = s.params.hostBase + off ∧ s.listedOffset off)

/-! ## Lines, bit cells, byte frames -/

/-- `SDA_out`, `SDA_release`, `SCL_low` (40_line_primitives.md R121, R122, R123): one write of all three fields, then the
settle delay, and nothing else. -/
def Obligations.LineWritesSetTheControlRegister : Prop :=
  ∀ (s : State) (rest : List BusOp), s.gap = none →
    (∀ v, ticks 2 (s.onward (.sdaOut v :: rest)) = { s with ctrl := ⟨true, s.ctrl.sclo, v⟩ }.onward rest ∧
      ctrlWrites 2 (s.onward (.sdaOut v :: rest)) = [⟨true, s.ctrl.sclo, v⟩]) ∧
    ticks 2 (s.onward (.sdaRelease :: rest)) = { s with ctrl := ⟨false, s.ctrl.sclo, true⟩ }.onward rest ∧
    ctrlWrites 2 (s.onward (.sdaRelease :: rest)) = [⟨false, s.ctrl.sclo, true⟩] ∧
    ticks 2 (s.onward (.sclLow :: rest)) = { s with ctrl := ⟨s.ctrl.ddir, false, s.ctrl.sdao⟩ }.onward rest ∧
    ctrlWrites 2 (s.onward (.sclLow :: rest)) = [⟨s.ctrl.ddir, false, s.ctrl.sdao⟩]

/-- `SCL_raise` honours clock stretching (40_line_primitives.md R124): however often SCL reads low, the engine goes on at
the first read that finds it high, and has done one write. -/
def Obligations.SclRaiseWaitsForTheLine : Prop :=
  ∀ (s : State) (r : Rise) (more : List Drive) (rest : List BusOp), s.gap = none → s.looks = r.looks ++ more →
    ∃ n, ticks n (s.onward (.sclRaise :: rest)) =
        { s with ctrl := ⟨s.ctrl.ddir, true, s.ctrl.sdao⟩, env := r.last, looks := more }.onward rest ∧
      ctrlWrites n (s.onward (.sclRaise :: rest)) = [⟨s.ctrl.ddir, true, s.ctrl.sdao⟩]

/-- `WaitIdle` with both lines released goes on at the first iteration that reads both lines high, however many failed
before it, and writes nothing (40_line_primitives.md R126). -/
def Obligations.WaitIdleWaitsForBothLines : Prop :=
  ∀ (s : State) (ms : List Miss) (x y : Bool) (more : List Drive) (rest : List BusOp), s.gap = none →
    s.ctrl.sclo = true → s.ctrl.releasesSda = true →
    s.looks = ms.flatMap Miss.looks ++ ⟨true, x⟩ :: ⟨y, true⟩ :: more →
    ∃ n, ticks n (s.onward (.awaitIdle :: rest)) = { s with env := ⟨y, true⟩, looks := more }.onward rest ∧
      ctrlWrites n (s.onward (.awaitIdle :: rest)) = []

/-- `BitCell(d, v)` from SCL low (40_line_primitives.md R128): SDA set with SCL low, SCL raised and waited for, one sample
of the line, SCL lowered; three writes. -/
def Obligations.BitCellCarriesOneBit : Prop :=
  ∀ (s : State) (d v : Bool) (c : Cell) (more : List Drive) (rest : List BusOp), s.gap = none →
    s.ctrl.sclo = false → s.looks = c.looks ++ more →
    ∃ n, ticks n (s.onward (.bitCell d v :: rest)) =
        { s with
          ctrl := ⟨d, false, if d then v else true⟩, env := ⟨c.scl, c.samp⟩, looks := more,
          seq := { s.seq with samp := (if d then v else true) && c.samp } }.onward rest ∧
      ctrlWrites n (s.onward (.bitCell d v :: rest)) = if d then drivenCell v else releasedCell

/-- `TxByte(b)` (40_line_primitives.md R129, R131): the eight bits driven in wire order, then SDA released and the ack
sampled; `RecordAck` (10_state.md R30); no other level of SDA changes the outcome. -/
def Obligations.TxByteSendsAndRecords : Prop :=
  ∀ (s : State) (b : Byte) (f : Frame) (more : List Drive) (rest : List BusOp), s.gap = none →
    s.ctrl.sclo = false → s.looks = f.looks ++ more →
    ∃ n, ticks n (s.onward (.txByte b :: rest)) =
        { s with
          ctrl := ⟨false, false, true⟩, env := f.last, looks := more,
          ackvec := if s.nb < 16 then putBit s.ackvec s.nb.toNat (!f.ack.samp) else s.ackvec,
          nb := if s.nb < 16 then s.nb + 1 else s.nb,
          seq := { s.seq with samp := f.ack.samp, acked := !f.ack.samp },
          trace := s.trace ++ [WireEvent.tx b (!f.ack.samp)] }.onward rest ∧
      ctrlWrites n (s.onward (.txByte b :: rest)) =
        (wireBits b).flatMap drivenCell ++ releasedCell

/-- `RxByte(last)` (40_line_primitives.md R130): eight released cells whose samples make the byte, first bit in bit 7, then
the master's ack (low) or nack (released); what is recorded is the line. -/
def Obligations.RxByteReceivesAndAcks : Prop :=
  ∀ (s : State) (last : Bool) (f : Frame) (more : List Drive) (rest : List BusOp), s.gap = none →
    s.ctrl.sclo = false → s.looks = f.looks ++ more →
    ∃ n, ticks n (s.onward (.rxByte last :: rest)) =
        { s with
          ctrl := ⟨true, false, last⟩, env := f.last, looks := more,
          ackvec := if s.nb < 16 then putBit s.ackvec s.nb.toNat (!(last && f.ack.samp)) else s.ackvec,
          nb := if s.nb < 16 then s.nb + 1 else s.nb,
          seq := { s.seq with samp := last && f.ack.samp, byte := f.byte },
          trace := s.trace ++ [WireEvent.rx f.byte (!(last && f.ack.samp))] }.onward rest ∧
      ctrlWrites n (s.onward (.rxByte last :: rest)) =
        (List.replicate 8 releasedCell).flatten ++ drivenCell last

/-- `DoStart(addr, rd)` (41_bus_commands.md R142): SDA released, SCL raised and waited for, the bus seen idle, SDA pulled
low with SCL high, SCL lowered, `owned` set, the address byte sent; a new ack record only where the bus was not owned. -/
def Obligations.DoStartMakesTheCondition : Prop :=
  ∀ (s : State) (addr : BusAddr) (rd : Bool) (o : Start) (more : List Drive) (rest : List BusOp), s.gap = none →
    s.looks = o.looks ++ more →
    ∃ n, ticks n (s.onward (.doStart addr rd :: rest)) =
        (let nb0 : BitVec 5 := if s.owned then s.nb else 0
         let av0 : BitVec 16 := if s.owned then s.ackvec else 0
         { s with
          ctrl := ⟨false, false, true⟩, owned := true, env := o.frame.last, looks := more,
          ackvec := if nb0 < 16 then putBit av0 nb0.toNat o.acked else av0,
          nb := if nb0 < 16 then nb0 + 1 else nb0,
          seq := { s.seq with samp := o.frame.ack.samp, acked := o.acked },
          trace := s.trace ++ [if s.owned then WireEvent.restart else WireEvent.start] ++
            [WireEvent.tx (addr ++ BitVec.ofBool rd) o.acked] }.onward rest) ∧
      ctrlWrites n (s.onward (.doStart addr rd :: rest)) =
        [⟨false, s.ctrl.sclo, true⟩, ⟨false, true, true⟩, ⟨true, true, false⟩, ⟨true, false, false⟩] ++
          txWrites (addr ++ BitVec.ofBool rd)

/-- `DoStop()` (41_bus_commands.md R146): SCL lowered, SDA pulled low, SCL raised and waited for, SDA released with SCL
high, `owned` cleared; four writes; whether SDA rose is not checked. -/
def Obligations.DoStopMakesTheCondition : Prop :=
  ∀ (s : State) (r : Rise) (more : List Drive) (rest : List BusOp), s.gap = none → s.looks = r.looks ++ more →
    ∃ n, ticks n (s.onward (.doStop :: rest)) =
        { s with
          ctrl := ⟨false, true, true⟩, owned := false, env := r.last, looks := more,
          trace := s.trace ++ [WireEvent.stop] }.onward rest ∧
      ctrlWrites n (s.onward (.doStop :: rest)) =
        [⟨s.ctrl.ddir, false, s.ctrl.sdao⟩, ⟨true, false, false⟩, ⟨true, true, false⟩, ⟨false, true, true⟩]

/-- A recorded transaction keeps each of its first sixteen 9th bits at its own place and counts no further (10_state.md
R30): the record of a list of frames is `RecordAck` applied to them in order. -/
def Obligations.RecordKeepsSixteenAcks : Prop :=
  ∀ (s : State) (acks : List Bool), s.ackvec = ackBits acks → s.nb = ackCount acks →
    (s.recordAck.ackvec = ackBits (acks ++ [!s.seq.samp]) ∧ s.recordAck.nb = ackCount (acks ++ [!s.seq.samp])) ∧
    (∀ k, s.ackvec.getLsbD k = (decide (k < 16) && acks.getD k false)) ∧ s.nb.toNat = min acks.length 16

/-! ## The bus commands

`Answers i s t`: `exec i s` answers the next state `t` (up to the sequencer's scratch values). Every field of `t` that is
not named is that of `s`. -/

/-- INIT (41_bus_commands.md R141), for every pair of versions (log 5). -/
def Obligations.InitChecksTheVersion : Prop :=
  ∀ s : State, s.gap = none → s.fatal = false → s.initDone = false →
    (s.params.hwVersion = s.params.expectedVersion →
      Answers .init s ({ s with ctrl := ⟨false, true, true⟩, owned := false, initDone := true }.outcome true .none 0)) ∧
    (s.params.hwVersion ≠ s.params.expectedVersion →
      Answers .init s ({ s with fatal := true }.outcome false .fatal 0))

/-- START with an address in range (41_bus_commands.md R142, R144), on a free bus and as a restart, acked and not. -/
def Obligations.StartEndsWithTheAck : Prop :=
  ∀ (s : State) (a : Byte) (f : Bool) (o : Start) (more : List Drive), s.gap = none → s.fatal = false →
    s.initDone = true → a ≤ 0x7F → s.looks = o.looks ++ more →
    let nb0 : BitVec 5 := if s.owned then s.nb else 0
    let av0 : BitVec 16 := if s.owned then s.ackvec else 0
    Answers (.start a f) s
      ({ s with
        ctrl := ⟨false, false, true⟩, owned := true, env := o.frame.last, looks := more,
        ackvec := if nb0 < 16 then putBit av0 nb0.toNat o.acked else av0,
        nb := if nb0 < 16 then nb0 + 1 else nb0,
        trace := s.trace ++ [if s.owned then WireEvent.restart else WireEvent.start] ++
          [WireEvent.tx ((a <<< 1) ||| (BitVec.ofBool f).setWidth 8) o.acked] }.outcome
            o.acked (if o.acked then .none else .nackStart) 0)

/-- An address operand above 0x7F (41_bus_commands.md R143): the command completes with `ERR_ADDR_RANGE`, and nothing but
the outcome changes. That takes one micro-step, before which no access of the host is due (log 1). -/
def Obligations.AddressAboveMaxIsRejected : Prop :=
  ∀ (s : State) (a b : Byte) (f : Bool), s.hostQ = [] ∨ s.gap ≠ some 0 → s.fatal = false → s.initDone = true → 0x7F < a →
    let t : State := { s with gap := s.gap.map (· - 1) }
    Answers (.start a f) s (t.outcome false .addrRange 0) ∧
    (s.owned = false →
      Answers (.devTickread a) s (t.outcome false .addrRange 0) ∧
      Answers (.devReset a) s (t.outcome false .addrRange 0) ∧
      Answers (.devColor a b) s (t.outcome false .addrRange 0))

/-- STOP, on an owned and on a free bus (41_bus_commands.md R146, R147): the ack record is kept. -/
def Obligations.StopReleasesTheBus : Prop :=
  ∀ (s : State) (r : Rise) (more : List Drive), s.gap = none → s.fatal = false → s.initDone = true →
    s.looks = r.looks ++ more →
    Answers .stop s
      ({ s with
        ctrl := ⟨false, true, true⟩, owned := false, env := r.last, looks := more,
        trace := s.trace ++ [WireEvent.stop] }.outcome true .none 0)

/-- WRITEBYTE (41_bus_commands.md R148): the ack is the result, a nack no error. The engine holds SCL low on an owned bus
(10_state.md R27), which `LinesInv` gives. -/
def Obligations.WritebyteEndsWithTheAck : Prop :=
  ∀ (s : State) (a : Byte) (fr : Frame) (more : List Drive), s.gap = none → s.fatal = false → s.initDone = true →
    s.owned = true → s.ctrl.sclo = false → s.looks = fr.looks ++ more →
    Answers (.writebyte a) s
      ({ s with
        ctrl := ⟨false, false, true⟩, env := fr.last, looks := more,
        ackvec := if s.nb < 16 then putBit s.ackvec s.nb.toNat fr.acked else s.ackvec,
        nb := if s.nb < 16 then s.nb + 1 else s.nb,
        trace := s.trace ++ [WireEvent.tx a fr.acked] }.outcome fr.acked .none 0)

/-- READBYTE (41_bus_commands.md R150): the byte is the result; `rxbuf` is not written. -/
def Obligations.ReadbyteReturnsTheByte : Prop :=
  ∀ (s : State) (f : Bool) (fr : Frame) (more : List Drive), s.gap = none → s.fatal = false → s.initDone = true →
    s.owned = true → s.ctrl.sclo = false → s.looks = fr.looks ++ more →
    Answers (.readbyte f) s
      ({ s with
        ctrl := ⟨true, false, f⟩, env := fr.last, looks := more,
        ackvec := if s.nb < 16 then putBit s.ackvec s.nb.toNat (!(f && fr.ack.samp)) else s.ackvec,
        nb := if s.nb < 16 then s.nb + 1 else s.nb,
        trace := s.trace ++ [WireEvent.rx fr.byte (!(f && fr.ack.samp))] }.outcome true .none fr.byte)

/-- BUSSCAN (42_bus_scan.md R160, R161): one start and one stop for each address of the range up to ADDR_MAX, ascending,
and the number of acked ones is the result. An empty range leaves all but the outcome as it was. -/
def Obligations.BusscanCountsTheAcks : Prop :=
  ∀ (s : State) (a b : Byte) (ps : List Ping) (more : List Drive), s.gap = none → s.fatal = false →
    s.initDone = true → s.owned = false → ps.length = (scanned a b).length →
    s.looks = ps.flatMap Ping.looks ++ more →
    Answers (.busscan a b) s
      ((s.afterPings (scanned a b) ps more).outcome true .none
        (BitVec.ofNat 8 (ps.countP fun p => p.start.acked)))

/-! ## The device commands -/

/-- DEV_TICKREAD whose starts are both acked (43_device_commands.md R181, R187): the six bytes, first in `rxbuf[0]`. -/
def Obligations.TickreadDeliversSixBytes : Prop :=
  ∀ (s : State) (a : Byte) (x : Read) (more : List Drive), s.gap = none → s.fatal = false → s.initDone = true →
    s.owned = false → a ≤ 0x7F → x.fits 1 6 → x.restart.acked = true → s.looks = x.looks ++ more →
    ∃ rx : Vector Byte 6, rx.toList = x.data.map Frame.byte ∧
      Answers (.devTickread a) s
        ({ s.afterRead (a.setWidth 7) [0x40] x more with rxbuf := rx }.outcome true .none 0)

/-- DEV_TICKREAD with a nacked start or restart (43_device_commands.md R171, R175, R181): a stop follows, `ok = 0` with
`ERR_NACK_START`, the entry of that address is marked inactive, `rxbuf` is unchanged. -/
def Obligations.TickreadNackLeavesRxbuf : Prop :=
  ∀ (s : State) (a : Byte) (more : List Drive), s.gap = none → s.fatal = false → s.initDone = true →
    s.owned = false → a ≤ 0x7F →
    (∀ w : Write, w.fits 1 → w.start.acked = false → s.looks = w.looks ++ more →
      Answers (.devTickread a) s ((s.afterWrite (a.setWidth 7) [0x40] w more).outcome false .nackStart 0)) ∧
    (∀ x : Read, x.fits 1 6 → x.restart.acked = false → s.looks = x.looks ++ more →
      Answers (.devTickread a) s ((s.afterRead (a.setWidth 7) [0x40] x more).outcome false .nackStart 0))

/-- DEV_RESET and DEV_COLOR (43_device_commands.md R174, R182, R183): the start's ack alone decides. -/
def Obligations.DeviceWritesEndWithTheStartAck : Prop :=
  ∀ (s : State) (a b : Byte) (w : Write) (more : List Drive), s.gap = none → s.fatal = false → s.initDone = true →
    s.owned = false → a ≤ 0x7F → s.looks = w.looks ++ more →
    (w.fits 1 → Answers (.devReset a) s
      ((s.afterWrite (a.setWidth 7) [0x4A] w more).outcome w.start.acked
        (if w.start.acked then .none else .nackStart) 0)) ∧
    (w.fits 2 → Answers (.devColor a b) s
      ((s.afterWrite (a.setWidth 7) [0x5E, b] w more).outcome w.start.acked
        (if w.start.acked then .none else .nackStart) 0))

/-- `Touch` (43_device_commands.md R176) marks exactly the registered entries below `idx` with that address. -/
def Obligations.TouchMarksTheAddressedEntry : Prop :=
  ∀ (s : State) (addr : BusAddr) (acked : Bool) (i : Nat) (e : Entry), s.entry[i]? = some e →
    (i < s.idx.toNat ∧ e.registered = true ∧ e.addr = addr →
      (s.touch addr acked).entry[i]? = some { e with active := acked }) ∧
    (¬(i < s.idx.toNat ∧ e.registered = true ∧ e.addr = addr) → (s.touch addr acked).entry[i]? = some e)

/-! ## The chain engine -/

/-- GCALL_RESET (44_chain_enumeration.md R212): the table is destroyed and the latch cleared whatever the ack. -/
def Obligations.GcallResetDestroysTheTable : Prop :=
  ∀ (s : State) (w : Write) (more : List Drive), s.gap = none → s.fatal = false → s.initDone = true →
    s.owned = false → w.fits 3 → s.looks = w.looks ++ more →
    Answers .gcallReset s
      ({ s.afterWrite 0x00 [0x4E, 0xCA, 0x03] w more with
        entry := List.replicate s.nmax ⟨0, false, false, false, 0⟩, idx := 0, nextAddr := 0x20,
        enumFailed := false }.outcome w.start.acked (if w.start.acked then .none else .nackStart) 0)

/-- CLAIM of an address already registered (44_chain_enumeration.md R202): one W.RESET, success whatever its ack, the rest
of the chain state unchanged; allowed while `enum_failed = 1`. -/
def Obligations.ReclaimOnlyClearsTheCounter : Prop :=
  ∀ (s : State) (a : Byte) (w : Write) (more : List Drive) (i : Nat) (e : Entry), s.gap = none → s.fatal = false →
    s.initDone = true → s.owned = false → a ≤ 0x7F → i < s.idx.toNat → s.entry[i]? = some e → e.registered = true →
    e.addr = a.setWidth 7 → w.fits 1 → s.looks = w.looks ++ more →
    Answers (.claim a) s ((s.afterWrite (a.setWidth 7) [0x4A] w more).outcome true .none a)

/-- The gates of a new claim (44_chain_enumeration.md R203, R204): latched, full, chain broken; none makes bus traffic. -/
def Obligations.ClaimGatesStopWithoutTraffic : Prop :=
  ∀ (s : State) (a : Byte), s.gap = none → s.fatal = false → s.initDone = true → s.owned = false → asksForNew s a →
    (s.enumFailed = true → Answers (.claim a) s (s.outcome false .enumLatched 0)) ∧
    (s.enumFailed = false → s.nmax ≤ s.idx.toNat → Answers (.claim a) s (s.outcome false .chainFull 0)) ∧
    (s.enumFailed = false → s.idx.toNat < s.nmax → s.idx ≠ 0 →
      ¬(s.prevEntry.registered = true ∧ s.prevEntry.active = true) →
      Answers (.claim a) s ({ s with retryW := 0, enumFailed := true }.outcome false .chainBroken 0))

/-- A new claim whose devices answer (44_chain_enumeration.md R201, R205 to R208), the first one and a later one, with and
without a probe retry: the new entry, `idx + 1`, `next_addr + 2`, the address as result. The payload of change-address is
the parameter addr_payload's, whatever it is (log 7). That a W.RESET follows the commit is the model's choice: R208 infers it
and says that a model may drop it (log 18); its ack decides the new entry's `active` flag and nothing else. -/
def Obligations.ClaimEnumeratesTheNextDevice : Prop :=
  ∀ (s : State) (a : Byte) (h : Write) (p : Probing) (c t r : Write) (more : List Drive), s.gap = none →
    s.fatal = false → s.initDone = true → s.owned = false → asksForNew s a → GatesOpen s →
    s.handoffFits h → (s.idx ≠ 0 → h.start.acked = true) → p.fits → p.last.start.acked = true →
    c.fits 2 → c.start.acked = true → t.fits 1 → t.start.acked = true → r.fits 1 →
    s.looks = h.looks ++ (p.looks ++ (c.looks ++ (t.looks ++ (r.looks ++ more)))) →
    let s1 := (s.afterHandoff h (p.looks ++ (c.looks ++ (t.looks ++ (r.looks ++ more))))).handedOff
    let s2 := s1.afterProbing p (c.looks ++ (t.looks ++ (r.looks ++ more)))
    let s3 := s2.afterSetaddr c (t.looks ++ (r.looks ++ more))
    let s4 := (s3.afterTerminate t (r.looks ++ more)).committed
    Answers (.claim a) s
      ((s4.afterWrite (addr7 s.nextAddr) [0x4A] r more).outcome true .none ((addr7 s.nextAddr).setWidth 8))

/-- A later claim whose propagate is nacked (44_chain_enumeration.md R205, R209). -/
def Obligations.ClaimPropagateNackedRollsBack : Prop :=
  ∀ (s : State) (a : Byte) (h w : Write) (more : List Drive), s.gap = none →
    s.fatal = false → s.initDone = true → s.owned = false → asksForNew s a → GatesOpen s → s.idx ≠ 0 →
    h.fits 1 → h.start.acked = false → w.fits 1 → s.looks = h.looks ++ (w.looks ++ more) →
    Answers (.claim a) s
      (((s.afterHandoff h (w.looks ++ more)).afterRollback w more).outcome false .handshake 0)

/-- A claim that finds nobody at the boot address after the retry (44_chain_enumeration.md R206, R209). -/
def Obligations.ClaimWithoutBootDeviceRollsBack : Prop :=
  ∀ (s : State) (a : Byte) (h p1 p2 w : Write) (more : List Drive), s.gap = none →
    s.fatal = false → s.initDone = true → s.owned = false → asksForNew s a → GatesOpen s →
    s.handoffFits h → (s.idx ≠ 0 → h.start.acked = true) → p1.fits 0 → p1.start.acked = false → p2.fits 0 →
    p2.start.acked = false → w.fits 1 →
    s.looks = h.looks ++ (p1.looks ++ (p2.looks ++ (s.rollbackLooks w ++ more))) →
    let s1 := (s.afterHandoff h (p1.looks ++ (p2.looks ++ (s.rollbackLooks w ++ more)))).handedOff
    let s2 := s1.afterProbing ⟨some p1, p2⟩ (s.rollbackLooks w ++ more)
    Answers (.claim a) s ((s2.afterRollback w more).outcome false .noBootDevice 0)

/-- A claim whose change-address or whose terminate of the new device is nacked (44_chain_enumeration.md R207, R209): the
rollback, `ERR_HANDSHAKE`, and nothing is committed. In both clauses the payload of change-address is the parameter
addr_payload's (00_scope.md R8), whatever it is; its default is log 7. -/
def Obligations.ClaimHandshakeNackedRollsBack : Prop :=
  ∀ (s : State) (a : Byte) (h : Write) (p : Probing) (c t w : Write) (more : List Drive), s.gap = none →
    s.fatal = false → s.initDone = true → s.owned = false → asksForNew s a → GatesOpen s →
    s.handoffFits h → (s.idx ≠ 0 → h.start.acked = true) → p.fits → p.last.start.acked = true →
    c.fits 2 → t.fits 1 → w.fits 1 →
    (c.start.acked = false → s.looks = h.looks ++ (p.looks ++ (c.looks ++ (s.rollbackLooks w ++ more))) →
      let s1 := (s.afterHandoff h (p.looks ++ (c.looks ++ (s.rollbackLooks w ++ more)))).handedOff
      let s2 := s1.afterProbing p (c.looks ++ (s.rollbackLooks w ++ more))
      let s3 := s2.afterSetaddr c (s.rollbackLooks w ++ more)
      Answers (.claim a) s ((s3.afterRollback w more).outcome false .handshake 0)) ∧
    (c.start.acked = true → t.start.acked = false →
      s.looks = h.looks ++ (p.looks ++ (c.looks ++ (t.looks ++ (s.rollbackLooks w ++ more)))) →
      let s1 := (s.afterHandoff h (p.looks ++ (c.looks ++ (t.looks ++ (s.rollbackLooks w ++ more))))).handedOff
      let s2 := s1.afterProbing p (c.looks ++ (t.looks ++ (s.rollbackLooks w ++ more)))
      let s3 := s2.afterSetaddr c (t.looks ++ (s.rollbackLooks w ++ more))
      let s4 := s3.afterTerminate t (s.rollbackLooks w ++ more)
      Answers (.claim a) s ((s4.afterRollback w more).outcome false .handshake 0))

/-- A new claim that has ended assigned the next address of the chain, `0x20 + 2 * idx`, or assigned nothing
(44_chain_enumeration.md R209, R214; 10_state.md R36). -/
def Obligations.ClaimAssignsTheNextAddressOrNone : Prop :=
  ∀ (s t : State) (a : Byte), TableInv s → s.gap = none → s.fatal = false → s.initDone = true → s.owned = false →
    asksForNew s a → exec (.claim a) s = .next t → t.busy = false →
    (t.ok = true ∧ t.idx = s.idx + 1 ∧ t.result = 0x20 + 2 * s.idx ∧ t.nextAddr = 0x20 + 2 * (s.idx + 1) ∧
      ∃ e, t.entry[s.idx.toNat]? = some e ∧ e.registered = true ∧ e.terminated = true ∧ e.addr.setWidth 8 = t.result) ∨
    (t.ok = false ∧ t.idx = s.idx ∧ t.result = 0 ∧ t.nextAddr = s.nextAddr)

/-! ## The wire commands run by themselves (log 11) -/

/-- The wire commands without a read phase put their own bytes on the wire (30_encoding.md R99; 43_device_commands.md R177
to R180, R184 to R186): the address byte, the selector, the payload; whether the start was acked is what they return. -/
def Obligations.WireWritesSendTheirBytes : Prop :=
  ∀ (s : State) (t p : Byte) (w : Write) (more : List Drive), s.gap = none → s.owned = false → t ≤ 0x7F →
    s.looks = w.looks ++ more →
    ∀ (i : Instr) (addr : BusAddr) (bytes : List Byte),
      (i, addr, bytes) ∈
        [(.wProbe t, t.setWidth 7, []), (.wReset t, t.setWidth 7, [0x4A]), (.wPropagate t, t.setWidth 7, [0x4B]),
         (.wTerminate t, t.setWidth 7, [0x4C]), (.wSetaddr p, 0x60, [0x4D, p]),
         (.wGcreset, 0x00, [0x4E, 0xCA, 0x03]), (.wColor t p, t.setWidth 7, [0x5E, p])] →
      w.fits bytes.length →
      ∃ q : Seq, q.bus = [] ∧ q.line = .none ∧ q.okx = w.start.acked ∧
        exec i s = .next { s.afterWrite addr bytes w more with busy := false, seq := q }

/-- W.TICKREAD (43_device_commands.md R187): six bytes after a restart, all but the last acked by the master; or the stop
after a nacked start. -/
def Obligations.WireTickreadReadsSixBytes : Prop :=
  ∀ (s : State) (t : Byte) (more : List Drive), s.gap = none → s.owned = false → t ≤ 0x7F →
    (∀ x : Read, x.fits 1 6 → s.looks = x.looks ++ more →
      ∃ q : Seq, q.bus = [] ∧ q.line = .none ∧ q.okx = x.restart.acked ∧ q.rx = x.data.map Frame.byte ∧
        exec (.wTickread t) s = .next { s.afterRead (t.setWidth 7) [0x40] x more with busy := false, seq := q }) ∧
    (∀ w : Write, w.fits 1 → w.start.acked = false → s.looks = w.looks ++ more →
      ∃ q : Seq, q.bus = [] ∧ q.line = .none ∧ q.okx = false ∧
        exec (.wTickread t) s = .next { s.afterWrite (t.setWidth 7) [0x40] w more with busy := false, seq := q })

/-- A wire command's target above ADDR_MAX is rejected before any bus activity (20_memory.md R66; the form is log 11): it
returns false with no bytes, and nothing else changes. -/
def Obligations.WireTargetAboveMaxIsRejected : Prop :=
  ∀ (s : State) (t p : Byte) (i : Instr), 0x7F < t →
    i ∈ [.wProbe t, .wTickread t, .wReset t, .wPropagate t, .wTerminate t, .wColor t p] →
    exec i s = .next { s with seq := { s.seq with okx := false, rx := [] } }

/-! ## The whole machine -/

/-- The raw commands, INIT and BUSSCAN never change the chain table, however they end or wait (41_bus_commands.md R144,
42_bus_scan.md R160, 43_device_commands.md R176): not in the run that starts them, not in a later step of a command that was
left for a host access, and in no micro-step. -/
def Obligations.RawCommandsNeverTouchTheChain : Prop :=
  (∀ (i : Instr) (s t : State),
    (∃ a f, i = .start a f) ∨ i = .stop ∨ (∃ a, i = .writebyte a) ∨ (∃ f, i = .readbyte f) ∨
      (∃ a b, i = .busscan a b) ∨ i = .init →
    exec i s = .next t → SameChain s t ∧ t.runsRaw) ∧
  (∀ s t : State, s.busy = true → s.runsRaw → step s = .next t → SameChain s t ∧ t.runsRaw) ∧
  (∀ s : State, s.runsRaw → SameChain s (tick s) ∧ (tick s).runsRaw)

/-- No command but DEV_TICKREAD writes `rxbuf`, and a DEV_TICKREAD that is refused, fails or waits leaves it unchanged
(10_state.md R31, 43_device_commands.md R181). Micro-step by micro-step: a byte is written only at the copying lines, which
are entered only from a transaction that succeeded; and a command left for a host access, which is at no line of
DEV_TICKREAD, writes none in its later steps. -/
def Obligations.OnlyTickreadWritesRxbuf : Prop :=
  (∀ (i : Instr) (s t : State), (∀ a, i ≠ .devTickread a) → exec i s = .next t → t.rxbuf = s.rxbuf) ∧
  (∀ (a : Byte) (s t : State), exec (.devTickread a) s = .next t →
    t.seq.line = .tickreadDone ∨ t.busy = false ∧ t.ok = false → t.rxbuf = s.rxbuf) ∧
  (∀ s t : State, s.busy = true → s.seq.line.ofTickread = false → s.seq.line ≠ .decode → step s = .next t →
    t.rxbuf = s.rxbuf ∧ t.seq.line.ofTickread = false) ∧
  (∀ s : State,
    (s.seq.bus ≠ [] ∨ s.seq.line.keepsRx = false → (tick s).rxbuf = s.rxbuf) ∧
    (∀ k : Fin 6, s.seq.bus = [] → s.seq.line = .tickreadKeep k →
      (tick s).rxbuf = s.rxbuf.set k (s.seq.rx.getD k 0)) ∧
    ((tick s).seq.line.keepsRx = true →
      s.seq.line.keepsRx = true ∨ s.seq.bus = [] ∧ s.seq.line = .tickreadDone ∧ s.seq.okx = true))

/-- Only GCALL_RESET clears the failure latch and unregisters devices (10_state.md R37, R38, R47), in the run that starts a
command, in a later step of one that was left for a host access, and micro-step by micro-step: the latch is cleared at one
line of GCALL_RESET, and entry `k` at the `k`-th turn of its loop (44_chain_enumeration.md R212). -/
def Obligations.OnlyGcallResetClearsTheChain : Prop :=
  (∀ (i : Instr) (s t : State), i ≠ .gcallReset → TableInv s → exec i s = .next t → ChainKept s t) ∧
  (∀ (i : Instr) (s t : State), i ≠ .gcallReset → s.enumFailed = true → exec i s = .next t → t.enumFailed = true) ∧
  (∀ s t : State, s.busy = true → ChainInv s → s.seq.line.ofGcall = false → s.seq.line ≠ .decode → step s = .next t →
    ChainKept s t ∧ t.seq.line.ofGcall = false) ∧
  (∀ s : State,
    (s.enumFailed = true → (tick s).enumFailed = true ∨ s.seq.bus = [] ∧ s.seq.line = .gcallLatch) ∧
    (ChainInv s → ∀ (k : Nat) (e : Entry), s.entry[k]? = some e → e.registered = true →
      (∃ e', (tick s).entry[k]? = some e' ∧ e'.registered = true ∧ e'.addr = e.addr ∧ e'.retry = e.retry) ∨
        s.seq.bus = [] ∧ s.seq.line = .gcallEntry k))

/-- No step clears `init_done` or `fatal` (10_state.md R26), and none changes a parameter (R20: "they never change during a
run") or the size of the table. -/
def Obligations.StepsKeepLatchesAndParameters : Prop :=
  ∀ s t : State, step s = .next t →
    (s.initDone = true → t.initDone = true) ∧ (s.fatal = true → t.fatal = true) ∧
    t.params = s.params ∧ t.nmax = s.nmax

/-- In the fatal state every host command is refused with `ERR_FATAL` and changes nothing else (60_exceptions.md R249). -/
def Obligations.FatalRefusesEveryCommand : Prop :=
  ∀ (i : Instr) (s : State) (w : Word), s.fatal = true → decodeCommand w = some i →
    Answers i s (s.outcome false .fatal 0)

/-- A command waiting for a line that the environment never raises stays where it is, busy, with no timeout
(60_exceptions.md R250); `hung` is log 4's condition. -/
def Obligations.HangLastsForever : Prop :=
  ∀ s : State, s.busy = true → s.hung = true → s.hostQ = [] →
    s.looks = [] ∧ step s = .next s ∧
    (∃ (op : BusOp) (rest : List BusOp), s.seq.bus = op :: rest ∧
      (op = .awaitScl ∧ s.sclLevel = false ∨
        op = .awaitIdle ∧ (s.sclLevel = false ∨ s.sdaLevel = false) ∨
        ∃ scl, op = .awaitIdleSda scl ∧ (s.sdaLevel = false ∨ scl = false ∧ s.sclLevel = false)))

/-- Every instruction that has an encoding, in every state, ends (`busy = 0`, the sequencer at no command) or waits for a
line that reads low (10_state.md R33, 60_exceptions.md R250, 70_reset_and_hazards.md R297): there is no third way. The host
polls. -/
def Obligations.EveryInstructionEndsOrWaits : Prop :=
  ∀ (i : Instr) (s : State), WellFormed i = true → s.gap = none →
    ∃ t, exec i s = .next t ∧
      (t.busy = false ∧ t.seq.line = .none ∧ t.seq.bus = [] ∨ t.busy = true ∧ t.hung = true)
end

