-- ==== Sys2Proof/Laws/Decode.lean ====
section
/-!
SUPPORT. The fields of a command word and the address byte of a wire command, put together and taken apart
(30_encoding.md R90, R96).
-/

namespace Sys2Proof

variable (op : Byte) (f : Bool) (b a : Byte) (w : Word)

@[simp] theorem fieldOp_pack : fieldOp (packCommand op f b a) = op := by
  apply BitVec.eq_of_getLsbD_eq
  intro i hi
  simp only [fieldOp, packCommand, BitVec.getLsbD_extractLsb', BitVec.getLsbD_append]
  simp [hi, show ¬ 24 + i < 8 by omega, show ¬ 24 + i - 8 < 8 by omega, show ¬ 24 + i - 8 - 8 = 0 by omega,
    show ¬ 24 + i - 8 - 8 - 1 < 7 by omega, show 24 + i - 8 - 8 - 1 - 7 = i by omega]

@[simp] theorem fieldReserved_pack : fieldReserved (packCommand op f b a) = 0 := by
  apply BitVec.eq_of_getLsbD_eq
  intro i hi
  simp only [fieldReserved, packCommand, BitVec.getLsbD_extractLsb', BitVec.getLsbD_append]
  simp [show ¬ 17 + i < 8 by omega, show ¬ 17 + i - 8 < 8 by omega, show ¬ 17 + i - 8 - 8 = 0 by omega,
    show 17 + i - 8 - 8 - 1 < 7 by omega]

@[simp] theorem fieldF_pack : fieldF (packCommand op f b a) = f := by
  simp only [fieldF, packCommand, BitVec.getLsbD_append]
  simp

@[simp] theorem fieldB_pack : fieldB (packCommand op f b a) = b := by
  apply BitVec.eq_of_getLsbD_eq
  intro i hi
  simp only [fieldB, packCommand, BitVec.getLsbD_extractLsb', BitVec.getLsbD_append]
  simp [hi]

@[simp] theorem fieldA_pack : fieldA (packCommand op f b a) = a := by
  apply BitVec.eq_of_getLsbD_eq
  intro i hi
  simp only [fieldA, packCommand, BitVec.getLsbD_extractLsb', BitVec.getLsbD_append]
  simp [hi]

/-- A word is its fields. -/
theorem pack_fields (h : fieldReserved w = 0) : packCommand (fieldOp w) (fieldF w) (fieldB w) (fieldA w) = w := by
  apply BitVec.eq_of_getLsbD_eq
  intro i hi
  have hr : ∀ k, k < 7 → w.getLsbD (17 + k) = false := by
    intro k hk
    have := congrArg (fun v => v.getLsbD k) h
    simpa [fieldReserved, hk] using this
  simp only [packCommand, fieldOp, fieldF, fieldB, fieldA, BitVec.getLsbD_append]
  by_cases h1 : i < 8
  · simp [h1]
  · by_cases h2 : i < 16
    · simp [h1, show i - 8 < 8 by omega, show 8 + (i - 8) = i by omega]
    · by_cases h3 : i < 17
      · simp [show i = 16 by omega]
      · by_cases h4 : i < 24
        · have := hr (i - 17) (by omega)
          rw [show 17 + (i - 17) = i by omega] at this
          simp [h1, this, show ¬ i - 8 < 8 by omega, show ¬ i - 8 - 8 < 1 by omega, show i - 8 - 8 - 1 < 7 by omega]
        · simp [h1, show ¬ i - 8 < 8 by omega, show ¬ i - 8 - 8 < 1 by omega, show ¬ i - 8 - 8 - 1 < 7 by omega,
            show i - 8 - 8 - 1 - 7 < 8 by omega, show 24 + (i - 8 - 8 - 1 - 7) = i by omega]

theorem append_inj {m n : Nat} {x x' : BitVec m} {y y' : BitVec n} : x ++ y = x' ++ y' ↔ x = x' ∧ y = y' := by
  constructor
  · intro h
    exact ⟨by simpa [BitVec.extractLsb'_append_eq_left] using congrArg (fun v => v.extractLsb' n m) h,
      by simpa [BitVec.extractLsb'_append_eq_right] using congrArg (fun v => v.extractLsb' 0 n) h⟩
  · rintro ⟨rfl, rfl⟩
    rfl

theorem word_append :
    w = fieldOp w ++ fieldReserved w ++ BitVec.ofBool (fieldF w) ++ fieldB w ++ fieldA w := by
  apply BitVec.eq_of_getLsbD_eq
  intro i hi
  simp only [fieldOp, fieldReserved, fieldF, fieldB, fieldA, BitVec.getLsbD_append]
  by_cases h1 : i < 8
  · simp [h1]
  · by_cases h2 : i < 16
    · simp [h1, show i - 8 < 8 by omega, show 8 + (i - 8) = i by omega]
    · by_cases h3 : i < 17
      · simp [show i = 16 by omega]
      · by_cases h4 : i < 24
        · simp [h1, show ¬ i - 8 < 8 by omega, show ¬ i - 8 - 8 < 1 by omega, show i - 8 - 8 - 1 < 7 by omega,
            show 17 + (i - 8 - 8 - 1) = i by omega]
        · simp [h1, show ¬ i - 8 < 8 by omega, show ¬ i - 8 - 8 < 1 by omega, show ¬ i - 8 - 8 - 1 < 7 by omega,
            show i - 8 - 8 - 1 - 7 < 8 by omega, show 24 + (i - 8 - 8 - 1 - 7) = i by omega]

/-- A test of the word under a mask is a test of each field under its part of the mask (R92). -/
theorem mask_fields (mo : Byte) (mr : BitVec 7) (mf : BitVec 1) (mb ma : Byte) (o : Byte) (r : BitVec 7) (x : BitVec 1)
    (b a : Byte) :
    w &&& (mo ++ mr ++ mf ++ mb ++ ma) = o ++ r ++ x ++ b ++ a ↔
      fieldOp w &&& mo = o ∧ fieldReserved w &&& mr = r ∧ BitVec.ofBool (fieldF w) &&& mf = x ∧ fieldB w &&& mb = b ∧
        fieldA w &&& ma = a := by
  conv => lhs; rw [word_append w]
  rw [BitVec.and_append, BitVec.and_append, BitVec.and_append, BitVec.and_append]
  refine (append_inj (m := 8 + 7 + 1 + 8) (n := 8)).trans ?_
  rw [append_inj (m := 8 + 7 + 1), append_inj (m := 8 + 7), append_inj (m := 8)]
  simp only [and_assoc]

/-- A word is a packed one exactly when its fields are. -/
theorem pack_iff (op : Byte) (f : Bool) (b a : Byte) :
    packCommand op f b a = w ↔
      fieldOp w = op ∧ fieldReserved w = 0 ∧ fieldF w = f ∧ fieldB w = b ∧ fieldA w = a := by
  constructor
  · rintro rfl
    simp
  · rintro ⟨h1, h2, h3, h4, h5⟩
    rw [← h1, ← h3, ← h4, ← h5]
    exact pack_fields w h2

theorem ite_some_iff {α : Type} {c : Prop} [Decidable c] {x y : Option α} {i : α} :
    (if c then x else y) = some i ↔ (c ∧ x = some i) ∨ (¬c ∧ y = some i) := by
  by_cases h : c <;> simp [h]

theorem readIf_some {c : Bool} {i j : Instr} : readIf c i = some j ↔ c = true ∧ i = j := by
  cases c <;> simp [readIf]

/-- The target of an address byte (R96). -/
theorem writeTarget_pack : ∀ t : Byte, targetOk t = true → writeTarget (packTarget t false) = some t := by decide

theorem pack_writeTarget : ∀ ab t : Byte, writeTarget ab = some t → packTarget t false = ab ∧ targetOk t = true := by
  intro ab t h
  unfold writeTarget at h
  split at h
  · cases h
  · rename_i hb
    cases h
    revert ab
    decide

end Sys2Proof
end

