-- ==== Sys2Proof/Laws/State.lean ====
section
/-!
SUPPORT. What each named update of the state changes, field by field.
-/

namespace Sys2Proof.Machine

namespace State

variable (s : State) (bus : List BusOp) (line : Line)

@[simp] theorem onward_bus : (s.onward bus).seq.bus = bus := rfl
@[simp] theorem onward_line : (s.onward bus).seq.line = s.seq.line := rfl
@[simp] theorem onward_samp : (s.onward bus).seq.samp = s.seq.samp := rfl
@[simp] theorem onward_byte : (s.onward bus).seq.byte = s.seq.byte := rfl
@[simp] theorem onward_acked : (s.onward bus).seq.acked = s.seq.acked := rfl
@[simp] theorem onward_okx : (s.onward bus).seq.okx = s.seq.okx := rfl
@[simp] theorem onward_rx : (s.onward bus).seq.rx = s.seq.rx := rfl
@[simp] theorem onward_newAddr : (s.onward bus).seq.newAddr = s.seq.newAddr := rfl
@[simp] theorem onward_ctrl : (s.onward bus).ctrl = s.ctrl := rfl
@[simp] theorem onward_env : (s.onward bus).env = s.env := rfl
@[simp] theorem onward_looks : (s.onward bus).looks = s.looks := rfl
@[simp] theorem onward_gap : (s.onward bus).gap = s.gap := rfl
@[simp] theorem onward_hostQ : (s.onward bus).hostQ = s.hostQ := rfl
@[simp] theorem onward_onward (b : List BusOp) : (s.onward b).onward bus = s.onward bus := rfl
@[simp] theorem goto_bus : (s.goto bus line).seq.bus = bus := rfl
@[simp] theorem goto_line : (s.goto bus line).seq.line = line := rfl
theorem goto_eq : s.goto bus line = { s with seq := { s.seq with line := line } }.onward bus := rfl

theorem pass_of_polite (h : s.gap = none) : s.pass = s := by
  cases s; simp_all [pass]

theorem look_cons {d : Drive} {ds : List Drive} (h : s.looks = d :: ds) :
    s.look = { s with env := d, looks := ds } := by simp [look, h]

theorem look_nil (h : s.looks = []) : s.look = s := by simp [look, h]

end State

end Sys2Proof.Machine
end

