-- ==== Sys2Proof/Laws/Engine.lean ====
section
/-!
SUPPORT. Runs of the engine: `Ticks n s t` (n micro-steps, none of them paused), `Reach k s t` (the same, counting only
the micro-steps that are no looks at the lines), and what `engineRun` answers once a run has reached a paused state.
-/

namespace Sys2Proof.Machine

/-- `n` micro-steps lead from `s` to `t`, write `ws` to the control register, and the engine is not left before. -/
inductive Ticks : Nat → List Ctrl → State → State → Prop
  | refl (s : State) : Ticks 0 [] s s
  | step {n : Nat} {ws : List Ctrl} {s t : State} (h : s.paused = false) (r : Ticks n ws (tick s) t) :
      Ticks (n + 1) (wrote s ++ ws) s t

theorem Ticks.trans {m n : Nat} {ws ws' : List Ctrl} {s t u : State} (h : Ticks m ws s t) (h' : Ticks n ws' t u) :
    Ticks (m + n) (ws ++ ws') s u := by
  induction h with
  | refl s => simpa using h'
  | @step m ws s t hp r ih =>
    rw [Nat.add_right_comm, List.append_assoc]
    exact .step hp (ih h')

theorem ticks_of_ticks {n : Nat} {ws : List Ctrl} {s t : State} (h : Ticks n ws s t) :
    ticks n s = t ∧ ctrlWrites n s = ws := by
  induction h with
  | refl s => exact ⟨rfl, rfl⟩
  | @step n ws s t hp r ih => exact ⟨ih.1, by rw [ctrlWrites, ih.2]⟩

theorem engine_of_ticks {n k : Nat} {ws : List Ctrl} {s t : State} (h : Ticks n ws s t) :
    engine (n + k) s = engine k t := by
  induction h with
  | refl s => simp
  | @step n ws s t hp r ih => rw [Nat.add_right_comm, engine, hp]; simpa using ih

theorem engine_of_paused {k : Nat} {s : State} (h : s.paused = true) : engine k s = s := by
  cases k <;> simp [engine, h]

/-- A run that writes `ws` and in which at most `k` micro-steps are no looks at the lines. -/
def ReachW (k : Nat) (ws : List Ctrl) (s t : State) : Prop :=
  ∃ n, Ticks n ws s t ∧ n + t.looks.length ≤ k + s.looks.length

theorem ReachW.refl (s : State) : ReachW 0 [] s s := ⟨0, .refl s, by simp⟩

theorem ReachW.trans {j k : Nat} {ws ws' : List Ctrl} {s t u : State} (h : ReachW j ws s t) (h' : ReachW k ws' t u) :
    ReachW (j + k) (ws ++ ws') s u := by
  obtain ⟨m, hm, lm⟩ := h
  obtain ⟨n, hn, ln⟩ := h'
  exact ⟨m + n, hm.trans hn, by omega⟩

theorem ReachW.mono {j k : Nat} {ws ws' : List Ctrl} {s t : State} (h : ReachW j ws s t) (hjk : j ≤ k)
    (hw : ws = ws') : ReachW k ws' s t := by
  obtain ⟨m, hm, lm⟩ := h
  exact ⟨m, hw ▸ hm, by omega⟩

/-- A run in which at most `k` micro-steps are no looks at the lines. -/
def Reach (k : Nat) (s t : State) : Prop := ∃ ws, ReachW k ws s t

theorem ReachW.reach {k : Nat} {ws : List Ctrl} {s t : State} (h : ReachW k ws s t) : Reach k s t := ⟨ws, h⟩

theorem Reach.refl (s : State) : Reach 0 s s := (ReachW.refl s).reach

theorem Reach.trans {j k : Nat} {s t u : State} (h : Reach j s t) (h' : Reach k t u) : Reach (j + k) s u := by
  obtain ⟨ws, h⟩ := h
  obtain ⟨ws', h'⟩ := h'
  exact (h.trans h').reach

theorem Reach.mono {j k : Nat} {s t : State} (h : Reach j s t) (hjk : j ≤ k) : Reach k s t := by
  obtain ⟨ws, h⟩ := h
  exact (h.mono hjk rfl).reach

theorem Reach.cast {k : Nat} {s t t' : State} (h : Reach k s t) (e : t = t') : Reach k s t' := e ▸ h

theorem engineRun_of_reach {k : Nat} {s t : State} (h : Reach k s t) (hp : t.paused = true)
    (hk : k ≤ s.nmax + maxTicks) :
    engineRun s = t := by
  obtain ⟨ws, n, hn, ln⟩ := h
  obtain ⟨j, hj⟩ := Nat.le.dest (show n ≤ s.looks.length + s.gap.getD 0 + (s.nmax + maxTicks) by omega)
  rw [engineRun, ← hj, engine_of_ticks hn, engine_of_paused hp]

/-! ## One micro-step -/

theorem hostDue_of_polite {s : State} (h : s.gap = none) : s.hostDue = false := by simp [State.hostDue, h]

theorem hostPending_of_polite {s : State} (h : s.gap = none) : s.hostPending = false := by
  simp [State.hostPending, h]

/-- A bus line that is no wait is always taken. -/
theorem not_paused_of_bus {s : State} {op : BusOp} {rest : List BusOp} (hb : s.seq.bus = op :: rest) (hg : s.gap = none)
    (hw : op ≠ .awaitScl ∧ op ≠ .awaitIdle ∧ (∀ b, op ≠ .awaitIdleSda b)) : s.paused = false := by
  obtain ⟨h1, h2, h3⟩ := hw
  cases op <;> simp_all [State.paused, State.atRest, State.hung, hostDue_of_polite]

/-- A bus line is taken as long as the environment has moves left. -/
theorem not_paused_of_looks {s : State} {op : BusOp} {rest : List BusOp} {d : Drive} {ds : List Drive}
    (hb : s.seq.bus = op :: rest) (hg : s.gap = none) (hl : s.looks = d :: ds) : s.paused = false := by
  simp [State.paused, State.atRest, State.hung, hostDue_of_polite hg, hb, hl]

theorem tick_bus {s : State} {op : BusOp} {rest : List BusOp} (hb : s.seq.bus = op :: rest)
    (hg' : (busTick op rest s).gap = none) : tick s = busTick op rest s := by
  simp [tick, hb, State.pass_of_polite _ hg']

theorem tick_line {s : State} (hb : s.seq.bus = []) (hg' : (lineTick s.seq.line s).gap = none) :
    tick s = lineTick s.seq.line s := by
  simp [tick, hb, State.pass_of_polite _ hg']

theorem not_paused_of_line {s : State} (hb : s.seq.bus = []) (hg : s.gap = none) (h0 : s.seq.line ≠ .none)
    (h1 : s.seq.line ≠ .decode) : s.paused = false := by
  simp [State.paused, State.atRest, State.hung, hostDue_of_polite hg, hb, h0, h1]

theorem paused_of_atRest {s : State} (hb : s.seq.bus = []) (hl : s.seq.line = .none) : s.paused = true := by
  simp [State.paused, State.atRest, hb, hl]

/-- A bus line that is neither a look at the lines nor a write. -/
theorem reach_op {s t : State} {op : BusOp} {rest : List BusOp} (hg : s.gap = none)
    (hw : op ≠ .awaitScl ∧ op ≠ .awaitIdle ∧ (∀ b, op ≠ .awaitIdleSda b) ∧ op.writes = false)
    (ht : busTick op rest (s.onward (op :: rest)) = t) (hl : t.looks = s.looks) (hgt : t.gap = none) :
    ReachW 1 [] (s.onward (op :: rest)) t := by
  have hp := not_paused_of_bus (s := s.onward (op :: rest)) rfl hg ⟨hw.1, hw.2.1, hw.2.2.1⟩
  have hk := tick_bus (s := s.onward (op :: rest)) rfl (by rw [ht, hgt])
  have hww : wrote (s.onward (op :: rest)) = [] := by simp [wrote, hw.2.2.2]
  refine ⟨1, ?_, by simp [hl]⟩
  have h := Ticks.step hp (Ticks.refl (tick (s.onward (op :: rest))))
  rwa [hww, hk, ht] at h

theorem reach_step {s t : State} {op : BusOp} {rest : List BusOp} (hg : s.gap = none)
    (hw : op ≠ .awaitScl ∧ op ≠ .awaitIdle ∧ (∀ b, op ≠ .awaitIdleSda b) ∧ op.writes = false)
    (ht : busTick op rest (s.onward (op :: rest)) = t) (hl : t.looks = s.looks) (hgt : t.gap = none) :
    Reach 1 (s.onward (op :: rest)) t := (reach_op hg hw ht hl hgt).reach

/-- The first micro-step of a write of the control register. -/
theorem reach_writeOp {s t : State} {op : BusOp} {rest : List BusOp} (hg : s.gap = none)
    (hw : op ≠ .awaitScl ∧ op ≠ .awaitIdle ∧ (∀ b, op ≠ .awaitIdleSda b) ∧ op.writes = true)
    (ht : busTick op rest (s.onward (op :: rest)) = t) (hl : t.looks = s.looks) (hgt : t.gap = none) :
    ReachW 1 [t.ctrl] (s.onward (op :: rest)) t := by
  have hp := not_paused_of_bus (s := s.onward (op :: rest)) rfl hg ⟨hw.1, hw.2.1, hw.2.2.1⟩
  have hk := tick_bus (s := s.onward (op :: rest)) rfl (by rw [ht, hgt])
  have hww : wrote (s.onward (op :: rest)) = [t.ctrl] := by simp [wrote, hw.2.2.2, hk, ht]
  refine ⟨1, ?_, by simp [hl]⟩
  have h := Ticks.step hp (Ticks.refl (tick (s.onward (op :: rest))))
  rwa [hww, hk, ht] at h

/-- A bus line that is a look at the lines. -/
theorem reach_look {s t : State} {op : BusOp} {rest : List BusOp} {d : Drive} {ds : List Drive} (hg : s.gap = none)
    (hw : op.writes = false) (hs : s.looks = d :: ds) (ht : busTick op rest (s.onward (op :: rest)) = t)
    (hl : t.looks = ds) (hgt : t.gap = none) : ReachW 0 [] (s.onward (op :: rest)) t := by
  have hp := not_paused_of_looks (s := s.onward (op :: rest)) rfl hg hs
  have hk := tick_bus (s := s.onward (op :: rest)) rfl (by rw [ht, hgt])
  have hww : wrote (s.onward (op :: rest)) = [] := by simp [wrote, hw]
  refine ⟨1, ?_, by simp [hl, hs]; omega⟩
  have h := Ticks.step hp (Ticks.refl (tick (s.onward (op :: rest))))
  rwa [hww, hk, ht] at h

/-- A line of the command. -/
theorem reach_line {s t : State} (hb : s.seq.bus = []) (hg : s.gap = none) (h0 : s.seq.line ≠ .none)
    (h1 : s.seq.line ≠ .decode) (ht : lineTick s.seq.line s = t) (hl : t.looks = s.looks) (hgt : t.gap = none) :
    Reach 1 s t := by
  have hp := not_paused_of_line hb hg h0 h1
  have hk := tick_line hb (by rw [ht, hgt])
  have h := Ticks.step hp (Ticks.refl (tick s))
  rw [show tick s = t from hk.trans ht] at h
  exact ⟨_, 1, h, Nat.le_of_eq (by rw [hl])⟩

end Sys2Proof.Machine
end

