-- ==== Sys2Proof/Laws/Lines.lean ====
section
/-!
SUPPORT. What each bus procedure does, once, for every environment that lets it end: line primitives, bit cell, byte
frames, `DoStart`, `DoStop` (40_line_primitives.md, 41_bus_commands.md). The host polls in all of them (`gap = none`).
-/

namespace Sys2Proof.Machine

/-- `WriteCtrl` of any procedure line that is one write. -/
theorem reach_write {s : State} {op : BusOp} {rest rest' : List BusOp} {c : Ctrl} (hg : s.gap = none)
    (hw : op ≠ .awaitScl ∧ op ≠ .awaitIdle ∧ (∀ b, op ≠ .awaitIdleSda b) ∧ op.writes = true)
    (ht : busTick op rest (s.onward (op :: rest)) = (s.onward (op :: rest)).writeCtrl c rest') :
    ReachW 2 [c] (s.onward (op :: rest)) ({ s with ctrl := c }.onward rest') :=
  ReachW.trans (j := 1) (k := 1) (ws := [c]) (ws' := []) (reach_writeOp hg hw ht rfl hg)
    (reach_op (s := { s with ctrl := c }) (op := .delay .settle) hg (by simp [BusOp.writes]) rfl rfl hg)

theorem reach_sdaOut (s : State) (v : Bool) (rest : List BusOp) (hg : s.gap = none) :
    ReachW 2 [⟨true, s.ctrl.sclo, v⟩] (s.onward (.sdaOut v :: rest))
      ({ s with ctrl := ⟨true, s.ctrl.sclo, v⟩ }.onward rest) :=
  reach_write hg (by simp [BusOp.writes]) rfl

theorem reach_sdaRelease (s : State) (rest : List BusOp) (hg : s.gap = none) :
    ReachW 2 [⟨false, s.ctrl.sclo, true⟩] (s.onward (.sdaRelease :: rest))
      ({ s with ctrl := ⟨false, s.ctrl.sclo, true⟩ }.onward rest) :=
  reach_write hg (by simp [BusOp.writes]) rfl

theorem reach_sclLow (s : State) (rest : List BusOp) (hg : s.gap = none) :
    ReachW 2 [⟨s.ctrl.ddir, false, s.ctrl.sdao⟩] (s.onward (.sclLow :: rest))
      ({ s with ctrl := ⟨s.ctrl.ddir, false, s.ctrl.sdao⟩ }.onward rest) :=
  reach_write hg (by simp [BusOp.writes]) rfl

theorem reach_releaseLines (s : State) (rest : List BusOp) (hg : s.gap = none) :
    ReachW 2 [⟨false, true, true⟩] (s.onward (.releaseLines :: rest))
      ({ s with ctrl := ⟨false, true, true⟩ }.onward rest) :=
  reach_write hg (by simp [BusOp.writes]) rfl

/-- A delay changes nothing (R127). -/
theorem reach_delay (s : State) (d : Delay) (rest : List BusOp) (hg : s.gap = none) :
    ReachW 1 [] (s.onward (.delay d :: rest)) (s.onward rest) :=
  reach_op hg (by simp [BusOp.writes]) rfl rfl hg

/-- The wait of `SCL_raise` takes the low reads and the high one, and nothing else changes (R124). -/
theorem reach_awaitScl (s : State) (r : Rise) (more : List Drive) (rest : List BusOp) (hg : s.gap = none)
    (hc : s.ctrl.sclo = true) (hl : s.looks = r.looks ++ more) :
    ReachW 0 [] (s.onward (.awaitScl :: rest)) ({ s with env := r.last, looks := more }.onward rest) := by
  obtain ⟨ws, x⟩ := r
  induction ws generalizing s with
  | nil =>
    refine reach_look (d := ⟨true, x⟩) (ds := more) hg rfl hl ?_ rfl hg
    have hs : (s.onward (.awaitScl :: rest)).looks = ⟨true, x⟩ :: more := hl
    simp [busTick, awaitSclTick, State.look_cons _ hs, State.sclLevel, Ctrl.releasesScl, hc]
    rfl
  | cons w ws ih =>
    have hl' : s.looks = ⟨false, w⟩ :: ((Rise.looks ⟨ws, x⟩) ++ more) := hl
    have hs : (s.onward (.awaitScl :: rest)).looks = ⟨false, w⟩ :: ((Rise.looks ⟨ws, x⟩) ++ more) := hl'
    refine ReachW.trans (j := 0) (k := 0) (ws := []) (ws' := [])
      (reach_look (t := { s with env := ⟨false, w⟩, looks := (Rise.looks ⟨ws, x⟩) ++ more }.onward (.awaitScl :: rest))
        hg rfl hl' ?_ rfl hg)
      (ih { s with env := ⟨false, w⟩, looks := (Rise.looks ⟨ws, x⟩) ++ more } hg hc rfl)
    simp [busTick, awaitSclTick, State.look_cons _ hs, State.sclLevel]
    rfl

/-- `SCL_raise` (R124). -/
theorem reach_sclRaise (s : State) (r : Rise) (more : List Drive) (rest : List BusOp) (hg : s.gap = none)
    (hl : s.looks = r.looks ++ more) :
    ReachW 2 [⟨s.ctrl.ddir, true, s.ctrl.sdao⟩] (s.onward (.sclRaise :: rest))
      ({ s with ctrl := ⟨s.ctrl.ddir, true, s.ctrl.sdao⟩, env := r.last, looks := more }.onward rest) :=
  ReachW.trans (j := 2) (k := 0) (ws' := []) (reach_write (rest' := .awaitScl :: rest) hg (by simp [BusOp.writes]) rfl)
    (reach_awaitScl _ r more rest hg rfl hl)

/-- One failed iteration of `WaitIdle` (R126). -/
theorem reach_miss (s : State) (m : Miss) (more : List Drive) (rest : List BusOp) (hg : s.gap = none)
    (hc : s.ctrl.sclo = true) (hl : s.looks = m.looks ++ more) :
    ∃ d, ReachW 0 [] (s.onward (.awaitIdle :: rest)) ({ s with env := d, looks := more }.onward (.awaitIdle :: rest)) := by
  cases m with
  | scl x d =>
    have hs : (s.onward (.awaitIdle :: rest)).looks = ⟨false, x⟩ :: d :: more := hl
    let u : State := { s with env := ⟨false, x⟩, looks := d :: more }
    have hu : (u.onward (.awaitIdleSda false :: rest)).looks = d :: more := rfl
    refine ⟨d, ReachW.trans (j := 0) (k := 0) (ws := []) (ws' := [])
      (reach_look (t := u.onward (.awaitIdleSda false :: rest)) hg rfl hl ?_ rfl hg)
      (reach_look (s := u) hg rfl rfl ?_ rfl hg)⟩
    · simp [busTick, awaitIdleTick, State.look_cons _ hs, State.sclLevel]
      rfl
    · simp [busTick, awaitIdleSdaTick, State.look_cons _ hu]
      rfl
  | sda x y =>
    have hs : (s.onward (.awaitIdle :: rest)).looks = ⟨true, x⟩ :: ⟨y, false⟩ :: more := hl
    let u : State := { s with env := ⟨true, x⟩, looks := ⟨y, false⟩ :: more }
    have hu : (u.onward (.awaitIdleSda true :: rest)).looks = ⟨y, false⟩ :: more := rfl
    refine ⟨⟨y, false⟩, ReachW.trans (j := 0) (k := 0) (ws := []) (ws' := [])
      (reach_look (t := u.onward (.awaitIdleSda true :: rest)) hg rfl hl ?_ rfl hg)
      (reach_look (s := u) hg rfl rfl ?_ rfl hg)⟩
    · simp [busTick, awaitIdleTick, State.look_cons _ hs, State.sclLevel, Ctrl.releasesScl, hc]
      rfl
    · simp [busTick, awaitIdleSdaTick, State.look_cons _ hu, State.sdaLevel]
      rfl

/-- `WaitIdle` with SDA released: it ends at the first iteration that reads both lines high (R126). -/
theorem reach_awaitIdle (s : State) (ms : List Miss) (x y : Bool) (more : List Drive) (rest : List BusOp)
    (hg : s.gap = none) (hc : s.ctrl.sclo = true) (hd : s.ctrl.releasesSda = true)
    (hl : s.looks = ms.flatMap Miss.looks ++ ⟨true, x⟩ :: ⟨y, true⟩ :: more) :
    ReachW 0 [] (s.onward (.awaitIdle :: rest)) ({ s with env := ⟨y, true⟩, looks := more }.onward rest) := by
  induction ms generalizing s with
  | nil =>
    have hs : (s.onward (.awaitIdle :: rest)).looks = ⟨true, x⟩ :: ⟨y, true⟩ :: more := hl
    let u : State := { s with env := ⟨true, x⟩, looks := ⟨y, true⟩ :: more }
    have hu : (u.onward (.awaitIdleSda true :: rest)).looks = ⟨y, true⟩ :: more := rfl
    refine ReachW.trans (j := 0) (k := 0) (ws := []) (ws' := [])
      (reach_look (t := u.onward (.awaitIdleSda true :: rest)) hg rfl hl ?_ rfl hg)
      (reach_look (s := u) hg rfl rfl ?_ rfl hg)
    · simp [busTick, awaitIdleTick, State.look_cons _ hs, State.sclLevel, Ctrl.releasesScl, hc]
      rfl
    · simp [busTick, awaitIdleSdaTick, State.look_cons _ hu, State.sdaLevel, u, hd]
      rfl
  | cons m ms ih =>
    have hl' : s.looks = m.looks ++ (ms.flatMap Miss.looks ++ ⟨true, x⟩ :: ⟨y, true⟩ :: more) := by
      simpa using hl
    obtain ⟨d, h⟩ := reach_miss s m _ rest hg hc hl'
    exact ReachW.trans (j := 0) (k := 0) (ws := []) (ws' := []) h
      (ih { s with env := d, looks := ms.flatMap Miss.looks ++ ⟨true, x⟩ :: ⟨y, true⟩ :: more } hg hc hd rfl)

/-- The sample of a cell (R128). -/
theorem reach_sample (s : State) (d : Drive) (more : List Drive) (rest : List BusOp) (hg : s.gap = none)
    (hl : s.looks = d :: more) :
    ReachW 0 [] (s.onward (.sample :: rest))
      ({ s with env := d, looks := more,
                seq := { s.seq with samp := s.ctrl.releasesSda && d.sda } }.onward rest) := by
  have hs : (s.onward (.sample :: rest)).looks = d :: more := hl
  refine reach_look hg rfl hl ?_ rfl hg
  simp [busTick, sampleTick, State.look_cons _ hs, State.sdaLevel]
  rfl

/-- What a bit cell leaves: the data line as driven, SCL low, the sample, the environment as last seen (R128). -/
def State.afterCell (s : State) (d v : Bool) (c : Cell) (more : List Drive) : State :=
  { s with
    ctrl := ⟨d, false, if d then v else true⟩, env := ⟨c.scl, c.samp⟩, looks := more,
    seq := { s.seq with samp := (if d then v else true) && c.samp } }

/-- The writes of a bit cell (R128): three. -/
def cellWrites (d v : Bool) : List Ctrl := if d then drivenCell v else releasedCell

/-- `BitCell(d, v)` (R128). -/
theorem reach_bitCell (s : State) (d v : Bool) (c : Cell) (more : List Drive) (rest : List BusOp) (hg : s.gap = none)
    (hc : s.ctrl.sclo = false) (hl : s.looks = c.looks ++ more) :
    ReachW 7 (cellWrites d v) (s.onward (.bitCell d v :: rest)) ((s.afterCell d v c more).onward rest) := by
  have hl' : s.looks = c.rise.looks ++ (⟨c.scl, c.samp⟩ :: more) := by simpa [Cell.looks] using hl
  cases d with
  | true =>
    have h0 := reach_op (t := s.onward (.sdaOut v :: .sclRaise :: .sample :: .sclLow :: rest)) (op := .bitCell true v)
      (rest := rest) hg (by simp [BusOp.writes]) rfl rfl hg
    have h1 := reach_sdaOut s v (.sclRaise :: .sample :: .sclLow :: rest) hg
    rw [hc] at h1
    have h2 := reach_sclRaise { s with ctrl := ⟨true, false, v⟩ } c.rise (⟨c.scl, c.samp⟩ :: more)
      (.sample :: .sclLow :: rest) hg hl'
    have h3 := reach_sample { s with ctrl := ⟨true, true, v⟩, env := c.rise.last, looks := ⟨c.scl, c.samp⟩ :: more }
      ⟨c.scl, c.samp⟩ more (.sclLow :: rest) hg rfl
    have h4 := reach_sclLow
      { s with ctrl := ⟨true, true, v⟩, env := ⟨c.scl, c.samp⟩, looks := more,
               seq := { s.seq with samp := v && c.samp } } rest hg
    have e : (⟨true, true, v⟩ : Ctrl).releasesSda = v := by simp [Ctrl.releasesSda]
    rw [e] at h3
    exact ReachW.mono (((h0.trans h1).trans h2).trans (h3.trans h4)) (by omega) rfl
  | false =>
    have h0 := reach_op (t := s.onward (.sdaRelease :: .sclRaise :: .sample :: .sclLow :: rest)) (op := .bitCell false v)
      (rest := rest) hg (by simp [BusOp.writes]) rfl rfl hg
    have h1 := reach_sdaRelease s (.sclRaise :: .sample :: .sclLow :: rest) hg
    rw [hc] at h1
    have h2 := reach_sclRaise { s with ctrl := ⟨false, false, true⟩ } c.rise (⟨c.scl, c.samp⟩ :: more)
      (.sample :: .sclLow :: rest) hg hl'
    have h3 := reach_sample { s with ctrl := ⟨false, true, true⟩, env := c.rise.last, looks := ⟨c.scl, c.samp⟩ :: more }
      ⟨c.scl, c.samp⟩ more (.sclLow :: rest) hg rfl
    have h4 := reach_sclLow
      { s with ctrl := ⟨false, true, true⟩, env := ⟨c.scl, c.samp⟩, looks := more,
               seq := { s.seq with samp := true && c.samp } } rest hg
    exact ReachW.mono (((h0.trans h1).trans h2).trans (h3.trans h4)) (by omega) rfl

end Sys2Proof.Machine
end

