-- ==== Sys2Proof/Laws/Frames.lean ====
section
/-!
SUPPORT. What the byte frames, `DoStart` and `DoStop` do, once, for every environment that lets them end
(40_line_primitives.md R129, R130; 41_bus_commands.md R142, R146).
-/

namespace Sys2Proof.Machine

/-- The data record of a frame's ack (10_state.md R30). -/
def State.withAck (s : State) (ack : Bool) : State :=
  { s with
    ackvec := if s.nb < 16 then putBit s.ackvec s.nb.toNat ack else s.ackvec
    nb := if s.nb < 16 then s.nb + 1 else s.nb }

/-- What `TxByte(b)` leaves (R129). -/
def State.afterTx (s : State) (b : Byte) (f : Frame) (more : List Drive) : State :=
  { s.withAck f.acked with
    ctrl := ⟨false, false, true⟩, env := f.last, looks := more,
    seq := { s.seq with samp := f.ack.samp, acked := f.acked },
    trace := s.trace ++ [.tx b f.acked] }

/-- A run of cells leaves what its last cell leaves. -/
theorem reach_cells (vs : List (Bool × Cell)) (d v : Bool) (c : Cell) (more : List Drive) (rest : List BusOp)
    (s : State) (hg : s.gap = none) (hc : s.ctrl.sclo = false)
    (hl : s.looks = vs.flatMap (fun p => p.2.looks) ++ (c.looks ++ more)) :
    ReachW (7 * vs.length + 7) (vs.flatMap (fun p => drivenCell p.1) ++ cellWrites d v)
      (s.onward (vs.map (fun p => .bitCell true p.1) ++ .bitCell d v :: rest))
      ((s.afterCell d v c more).onward rest) := by
  induction vs generalizing s with
  | nil => exact reach_bitCell s d v c more rest hg hc hl
  | cons p vs ih =>
    have hl' : s.looks = p.2.looks ++ (vs.flatMap (fun p => p.2.looks) ++ (c.looks ++ more)) := by simpa using hl
    have h1 := reach_bitCell s true p.1 p.2 _ (vs.map (fun p => .bitCell true p.1) ++ .bitCell d v :: rest) hg hc hl'
    have h2 := ih (s.afterCell true p.1 p.2 (vs.flatMap (fun p => p.2.looks) ++ (c.looks ++ more))) hg rfl rfl
    exact (h1.trans h2).mono (by simp only [List.length_cons]; omega) (by simp [cellWrites])

/-- The eight data cells of a frame, in order. -/
def Frame.data (f : Frame) : List Cell := [f.c7, f.c6, f.c5, f.c4, f.c3, f.c2, f.c1, f.c0]

theorem Frame.looks_eq (f : Frame) (more : List Drive) :
    f.looks ++ more = f.data.flatMap Cell.looks ++ (f.ack.looks ++ more) := by
  simp [Frame.looks, Frame.data]

/-- `TxByte(b)` (R129). -/
theorem reach_txByte (s : State) (b : Byte) (f : Frame) (more : List Drive) (rest : List BusOp) (hg : s.gap = none)
    (hc : s.ctrl.sclo = false) (hl : s.looks = f.looks ++ more) :
    ReachW 65 (txWrites b) (s.onward (.txByte b :: rest)) ((s.afterTx b f more).onward rest) := by
  have hl' := hl.trans (f.looks_eq more)
  have h0 := reach_op (op := .txByte b) (rest := rest) (t := s.onward (txByteBody b ++ rest)) hg
    (by simp [BusOp.writes]) rfl rfl hg
  have h1 := reach_cells [(b.getLsbD 7, f.c7), (b.getLsbD 6, f.c6), (b.getLsbD 5, f.c5), (b.getLsbD 4, f.c4),
      (b.getLsbD 3, f.c3), (b.getLsbD 2, f.c2), (b.getLsbD 1, f.c1), (b.getLsbD 0, f.c0)]
      false false f.ack more (.txAck b :: rest) s hg hc hl'
  have h2 := reach_op (s := s.afterCell false false f.ack more) (op := .txAck b) (rest := rest) hg
    (by simp [BusOp.writes]) rfl rfl hg
  exact ((h0.trans h1).trans h2).mono (by simp) (by simp [txWrites, wireBits, List.range, List.range.loop, cellWrites])

/-- What `RxByte(last)` leaves (R130): the ack cell's level is the wired-AND of the master's bit and the line. -/
def State.afterRx (s : State) (last : Bool) (f : Frame) (more : List Drive) : State :=
  { s.withAck (!(last && f.ack.samp)) with
    ctrl := ⟨true, false, last⟩, env := f.last, looks := more,
    seq := { s.seq with samp := last && f.ack.samp, byte := f.byte },
    trace := s.trace ++ [.rx f.byte (!(last && f.ack.samp))] }

/-- What received data bits leave: the last cell's line values, and the byte so far. -/
def State.afterBits (s : State) (v : Byte) (c : Cell) (more : List Drive) : State :=
  { s with
    ctrl := ⟨false, false, true⟩, env := ⟨c.scl, c.samp⟩, looks := more,
    seq := { s.seq with samp := c.samp, byte := v } }

/-- One received data bit (R130). -/
theorem reach_rxBit (s : State) (i : Nat) (c : Cell) (more : List Drive) (rest : List BusOp) (hg : s.gap = none)
    (hc : s.ctrl.sclo = false) (hl : s.looks = c.looks ++ more) :
    ReachW 8 releasedCell (s.onward (.bitCell false false :: .rxBit i :: rest))
      ((s.afterBits (putBit s.seq.byte i c.samp) c more).onward rest) := by
  have h1 := reach_bitCell s false false c more (.rxBit i :: rest) hg hc hl
  have h2 := reach_op (s := s.afterCell false false c more) (op := .rxBit i) (rest := rest)
    (t := (s.afterBits (putBit s.seq.byte i c.samp) c more).onward rest) hg (by simp [BusOp.writes])
    (by simp [busTick, State.afterCell, State.afterBits, State.onward]) rfl hg
  exact (h1.trans h2).mono (by omega) (by simp [cellWrites])

/-- A run of received data bits: each is put at its place (R130). -/
theorem reach_rxBits (ps : List (Nat × Cell)) (i : Nat) (c : Cell) (more : List Drive) (rest : List BusOp) (s : State)
    (hg : s.gap = none) (hc : s.ctrl.sclo = false)
    (hl : s.looks = ps.flatMap (fun p => p.2.looks) ++ (c.looks ++ more)) :
    ReachW (8 * ps.length + 8) ((List.replicate ps.length releasedCell).flatten ++ releasedCell)
      (s.onward (ps.flatMap (fun p => [.bitCell false false, .rxBit p.1]) ++ .bitCell false false :: .rxBit i :: rest))
      ((s.afterBits (putBit (ps.foldl (fun v p => putBit v p.1 p.2.samp) s.seq.byte) i c.samp) c more).onward rest) := by
  induction ps generalizing s with
  | nil => exact reach_rxBit s i c more rest hg hc hl
  | cons p ps ih =>
    have hl' : s.looks = p.2.looks ++ (ps.flatMap (fun p => p.2.looks) ++ (c.looks ++ more)) := by simpa using hl
    have h1 := reach_rxBit s p.1 p.2 _ (ps.flatMap (fun p => [.bitCell false false, .rxBit p.1]) ++
      .bitCell false false :: .rxBit i :: rest) hg hc hl'
    have h2 := ih (s.afterBits (putBit s.seq.byte p.1 p.2.samp) p.2
      (ps.flatMap (fun p => p.2.looks) ++ (c.looks ++ more))) hg rfl rfl
    exact (h1.trans h2).mono (by simp only [List.length_cons]; omega) (by simp [List.replicate_succ])

/-- Eight samples put at their places make the byte the slave sent. -/
theorem putBits_byte (b7 b6 b5 b4 b3 b2 b1 b0 : Bool) :
    putBit (putBit (putBit (putBit (putBit (putBit (putBit (putBit (0 : Byte) 7 b7) 6 b6) 5 b5) 4 b4) 3 b3) 2 b2) 1 b1)
      0 b0 =
    BitVec.ofBool b7 ++ BitVec.ofBool b6 ++ BitVec.ofBool b5 ++ BitVec.ofBool b4 ++ BitVec.ofBool b3 ++
      BitVec.ofBool b2 ++ BitVec.ofBool b1 ++ BitVec.ofBool b0 := by
  revert b7 b6 b5 b4 b3 b2 b1 b0; decide

/-- `RxByte(last)` (R130). -/
theorem reach_rxByte (s : State) (last : Bool) (f : Frame) (more : List Drive) (rest : List BusOp) (hg : s.gap = none)
    (hc : s.ctrl.sclo = false) (hl : s.looks = f.looks ++ more) :
    ReachW 73 (rxWrites last) (s.onward (.rxByte last :: rest)) ((s.afterRx last f more).onward rest) := by
  have hl' := hl.trans (f.looks_eq more)
  have h0 := reach_op (op := .rxByte last) (rest := rest)
    (t := { s with seq := { s.seq with byte := 0 } }.onward (rxByteBody last ++ rest)) hg (by simp [BusOp.writes]) rfl
    rfl hg
  have h1 := reach_rxBits [(7, f.c7), (6, f.c6), (5, f.c5), (4, f.c4), (3, f.c3), (2, f.c2), (1, f.c1)] 0 f.c0
    (f.ack.looks ++ more) (.bitCell true last :: .rxAck :: rest) { s with seq := { s.seq with byte := 0 } } hg hc
    (by simpa [Frame.data] using hl')
  simp only [List.foldl, putBits_byte] at h1
  have h2 := reach_bitCell (({ s with seq := { s.seq with byte := 0 } } : State).afterBits f.byte f.c0
    (f.ack.looks ++ more)) true last f.ack more (.rxAck :: rest) hg rfl rfl
  have h3 := reach_op (s := (({ s with seq := { s.seq with byte := 0 } } : State).afterBits f.byte f.c0
    (f.ack.looks ++ more)).afterCell true last f.ack more) (op := .rxAck) (rest := rest) hg (by simp [BusOp.writes])
    rfl rfl hg
  exact (((h0.trans h1).trans h2).trans h3).mono (by simp)
    (by simp [rxWrites, List.replicate_succ, cellWrites])

/-- The transaction record at a start: cleared by the first start of a transaction, kept by a restart (R142). -/
def State.openedRecord (s : State) : State :=
  { s with ackvec := if s.owned then s.ackvec else 0, nb := if s.owned then s.nb else 0 }

/-- What `DoStart(addr, rd)` leaves (R142). -/
def State.afterStart (s : State) (addr : BusAddr) (rd : Bool) (o : Start) (more : List Drive) : State :=
  ({ s.openedRecord with
      owned := true, trace := s.trace ++ [if s.owned then WireEvent.restart else WireEvent.start] }).afterTx
    (addressByte addr rd) o.frame more

/-- `DoStart(addr, rd)` (R142). -/
theorem reach_doStart (s : State) (addr : BusAddr) (rd : Bool) (o : Start) (more : List Drive) (rest : List BusOp)
    (hg : s.gap = none) (hl : s.looks = o.looks ++ more) :
    ReachW 76 (startWrites s.ctrl.sclo (addressByte addr rd)) (s.onward (.doStart addr rd :: rest))
      ((s.afterStart addr rd o more).onward rest) := by
  simp only [Start.looks, Opening.looks, List.append_assoc] at hl
  have h0 := reach_op (op := .doStart addr rd) (rest := rest) (t := s.onward (doStartBody addr rd ++ rest)) hg
    (by simp [BusOp.writes]) rfl rfl hg
  have h1 := reach_op (s := s) (op := .openRecord) (t := s.openedRecord.onward ([.sdaRelease, .sclRaise, .awaitIdle,
    .sdaOut false, .sclLow, .own, .txByte (addressByte addr rd)] ++ rest)) hg (by simp [BusOp.writes]) rfl rfl hg
  have h2 := reach_sdaRelease s.openedRecord ([.sclRaise, .awaitIdle, .sdaOut false, .sclLow, .own,
    .txByte (addressByte addr rd)] ++ rest) hg
  have h3 := reach_sclRaise { s.openedRecord with ctrl := ⟨false, s.ctrl.sclo, true⟩ } o.opening.rise _
    ([.awaitIdle, .sdaOut false, .sclLow, .own, .txByte (addressByte addr rd)] ++ rest) hg hl
  have h4 := reach_awaitIdle { s.openedRecord with
      ctrl := ⟨false, true, true⟩, env := o.opening.rise.last,
      looks := o.opening.misses.flatMap Miss.looks ++ ([⟨true, o.opening.sda1⟩, ⟨o.opening.scl2, true⟩] ++
        (o.frame.looks ++ more)) } o.opening.misses o.opening.sda1 o.opening.scl2 (o.frame.looks ++ more)
    ([.sdaOut false, .sclLow, .own, .txByte (addressByte addr rd)] ++ rest) hg rfl rfl rfl
  have h5 := reach_sdaOut { s.openedRecord with
      ctrl := ⟨false, true, true⟩, env := ⟨o.opening.scl2, true⟩, looks := o.frame.looks ++ more } false
    ([.sclLow, .own, .txByte (addressByte addr rd)] ++ rest) hg
  have h6 := reach_sclLow { s.openedRecord with
      ctrl := ⟨true, true, false⟩, env := ⟨o.opening.scl2, true⟩, looks := o.frame.looks ++ more }
    ([.own, .txByte (addressByte addr rd)] ++ rest) hg
  have h7 := reach_op (s := { s.openedRecord with
      ctrl := ⟨true, false, false⟩, env := ⟨o.opening.scl2, true⟩, looks := o.frame.looks ++ more }) (op := .own)
    (rest := .txByte (addressByte addr rd) :: rest) hg (by simp [BusOp.writes]) rfl rfl hg
  have h8 := reach_txByte
    { s.openedRecord with
      owned := true, trace := s.trace ++ [if s.owned then WireEvent.restart else WireEvent.start],
      ctrl := ⟨true, false, false⟩, env := ⟨o.opening.scl2, true⟩, looks := o.frame.looks ++ more }
    (addressByte addr rd) o.frame more rest hg rfl rfl
  exact (((((((((h0.trans h1).trans h2).trans h3).trans h4).trans h5).trans h6).trans h7).trans h8)).mono (by omega)
    (by simp [startWrites, State.openedRecord])

/-- What `DoStop()` leaves (R146). -/
def State.afterStop (s : State) (r : Rise) (more : List Drive) : State :=
  { s with
    ctrl := ⟨false, true, true⟩, env := r.last, looks := more, owned := false, trace := s.trace ++ [.stop] }

/-- `DoStop()` (R146). -/
theorem reach_doStop (s : State) (r : Rise) (more : List Drive) (rest : List BusOp) (hg : s.gap = none)
    (hl : s.looks = r.looks ++ more) :
    ReachW 10 (stopWrites s.ctrl) (s.onward (.doStop :: rest)) ((s.afterStop r more).onward rest) := by
  have h0 := reach_op (op := .doStop) (rest := rest) (t := s.onward (doStopBody ++ rest)) hg (by simp [BusOp.writes]) rfl
    rfl hg
  have h1 := reach_sclLow s ([.sdaOut false, .sclRaise, .sdaRelease, .disown] ++ rest) hg
  have h2 := reach_sdaOut { s with ctrl := ⟨s.ctrl.ddir, false, s.ctrl.sdao⟩ } false
    ([.sclRaise, .sdaRelease, .disown] ++ rest) hg
  have h3 := reach_sclRaise { s with ctrl := ⟨true, false, false⟩ } r more ([.sdaRelease, .disown] ++ rest) hg hl
  have h4 := reach_sdaRelease { s with ctrl := ⟨true, true, false⟩, env := r.last, looks := more }
    ([.disown] ++ rest) hg
  have h5 := reach_op (s := { s with ctrl := ⟨false, true, true⟩, env := r.last, looks := more }) (op := .disown)
    (rest := rest) hg (by simp [BusOp.writes]) rfl rfl hg
  exact (((((h0.trans h1).trans h2).trans h3).trans h4).trans h5).mono (by omega) (by simp [stopWrites])

end Sys2Proof.Machine
end

