-- ==== Sys2Proof/Laws/Transactions.lean ====
section
/-!
SUPPORT. What `Xfer` does, once for each way it can end (43_device_commands.md R171, R174, R175).
-/

namespace Sys2Proof.Machine

/-- What a run of transmitted bytes leaves. -/
def State.afterTxs (s : State) : List (Byte × Frame) → List Drive → State
  | [], _ => s
  | p :: ps, more => (s.afterTx p.1 p.2 (ps.flatMap (fun p => p.2.looks) ++ more)).afterTxs ps more

theorem afterTx_gap (s : State) (b : Byte) (f : Frame) (m : List Drive) : (s.afterTx b f m).gap = s.gap := rfl

theorem afterTxs_gap (ps : List (Byte × Frame)) (s : State) (m : List Drive) : (s.afterTxs ps m).gap = s.gap := by
  induction ps generalizing s with
  | nil => rfl
  | cons p ps ih => exact ih _

theorem afterTxs_looks (ps : List (Byte × Frame)) (s : State) (m : List Drive)
    (hl : s.looks = ps.flatMap (fun p => p.2.looks) ++ m) : (s.afterTxs ps m).looks = m := by
  induction ps generalizing s with
  | nil => exact hl
  | cons p ps ih => exact ih _ rfl

/-- The write phase (R171). -/
theorem reach_txBytes (ps : List (Byte × Frame)) (more : List Drive) (rest : List BusOp) (s : State) (hg : s.gap = none)
    (hc : s.ctrl.sclo = false) (hl : s.looks = ps.flatMap (fun p => p.2.looks) ++ more) :
    Reach (65 * ps.length) (s.onward (ps.map (fun p => .txByte p.1) ++ rest)) ((s.afterTxs ps more).onward rest) := by
  induction ps generalizing s with
  | nil => exact Reach.refl _
  | cons p ps ih =>
    have hl' : s.looks = p.2.looks ++ (ps.flatMap (fun p => p.2.looks) ++ more) := by simpa using hl
    have h1 := reach_txByte s p.1 p.2 _ (ps.map (fun p => .txByte p.1) ++ rest) hg hc hl'
    exact (h1.reach.trans (ih _ hg rfl rfl)).mono (by simp only [List.length_cons]; omega)

/-- What the first start of `Xfer` and its `Touch` leave. -/
def State.afterCall (s : State) (addr : BusAddr) (rd : Bool) (o : Start) (more : List Drive) : State :=
  (s.afterStart addr rd o more).touch addr o.acked

theorem reach_call (s : State) (addr : BusAddr) (rd : Bool) (o : Start) (more : List Drive) (rest : List BusOp)
    (hg : s.gap = none) (hl : s.looks = o.looks ++ more) :
    Reach 77 (s.onward (.doStart addr rd :: .touch addr :: rest)) ((s.afterCall addr rd o more).onward rest) := by
  refine Reach.trans (j := 76) (k := 1) (reach_doStart s addr rd o more _ hg hl).reach ?_
  exact reach_step (op := .touch addr) hg (by simp [BusOp.writes]) rfl rfl hg

/-- What the end of `Xfer` leaves. -/
def State.afterXferEnd (s : State) (okx : Bool) (r : Rise) (more : List Drive) : State :=
  { s.afterStop r more with seq := { s.seq with okx := okx } }

theorem reach_xferEnd (s : State) (okx : Bool) (r : Rise) (more : List Drive) (rest : List BusOp)
    (hg : s.gap = none) (hl : s.looks = r.looks ++ more) :
    Reach 11 (s.onward (xferEnd okx ++ rest)) ((s.afterXferEnd okx r more).onward rest) := by
  refine Reach.trans (j := 10) (k := 1) (reach_doStop s r more _ hg hl).reach ?_
  exact reach_step (op := .xferReturn okx) hg (by simp [BusOp.writes]) rfl rfl hg

/-- `rx <- []` (R171). -/
def State.clearRx (s : State) : State := { s with seq := { s.seq with rx := [] } }

theorem busTick_xferStarted (u : State) (addr : BusAddr) (wr : List Byte) (n : Nat) (b rest : List BusOp) :
    busTick (.xferStarted addr wr n) rest (u.onward b) =
      u.clearRx.onward (xferAfterStart u.seq.acked addr wr n ++ rest) := rfl

theorem busTick_xferRestarted (u : State) (n : Nat) (b rest : List BusOp) :
    busTick (.xferRestarted n) rest (u.onward b) = u.onward (xferAfterRestart u.seq.acked n ++ rest) := rfl

/-- `Xfer` whose first start is nacked: a stop follows, and `okx = false` (R171, R175). -/
theorem reach_xfer_nacked (s : State) (addr : BusAddr) (wr : List Byte) (nread : Nat) (o : Start) (r : Rise)
    (more : List Drive) (rest : List BusOp) (hg : s.gap = none) (hn : o.acked = false)
    (hl : s.looks = o.looks ++ (r.looks ++ more)) :
    Reach 90 (s.onward (.xfer addr wr nread :: rest))
      ((((s.afterCall addr false o (r.looks ++ more)).clearRx).afterXferEnd false r more).onward rest) := by
  refine Reach.trans (j := 1) (k := 89)
    (reach_step (t := s.onward (xferBody addr wr nread ++ rest)) hg
      (by simp [BusOp.writes]) rfl rfl hg) ?_
  refine Reach.trans (j := 77) (k := 12) (reach_call s addr false o _ _ hg hl) ?_
  have ha : (s.afterCall addr false o (r.looks ++ more)).seq.acked = false := hn
  refine Reach.trans (j := 1) (k := 11)
    (reach_step (op := .xferStarted addr wr nread)
      (t := (s.afterCall addr false o (r.looks ++ more)).clearRx.onward (xferEnd false ++ rest)) hg (by simp [BusOp.writes]) ?_ rfl hg) ?_
  · rw [busTick_xferStarted, ha]
    rfl
  · exact reach_xferEnd _ false r more rest hg rfl

/-- `Xfer` without a read phase whose start is acked: every byte is sent whatever its ack, and `okx = true` (R171,
R174). -/
theorem reach_xfer_write (s : State) (addr : BusAddr) (ps : List (Byte × Frame)) (o : Start) (r : Rise)
    (more : List Drive) (rest : List BusOp) (hg : s.gap = none) (hn : o.acked = true)
    (hl : s.looks = o.looks ++ (ps.flatMap (fun p => p.2.looks) ++ (r.looks ++ more))) :
    Reach (90 + 65 * ps.length) (s.onward (.xfer addr (ps.map Prod.fst) 0 :: rest))
      (((((s.afterCall addr false o (ps.flatMap (fun p => p.2.looks) ++ (r.looks ++ more))).clearRx).afterTxs ps
        (r.looks ++ more)).afterXferEnd true r more).onward rest) := by
  refine Reach.mono (j := 1 + (77 + (1 + (65 * ps.length + 11)))) ?_ (by omega)
  refine Reach.trans (reach_step (t := s.onward (xferBody addr (ps.map Prod.fst) 0 ++ rest)) hg
      (by simp [BusOp.writes]) rfl rfl hg) ?_
  refine Reach.trans (reach_call s addr false o _ _ hg hl) ?_
  generalize hu : s.afterCall addr false o (ps.flatMap (fun p => p.2.looks) ++ (r.looks ++ more)) = u
  have ha : u.seq.acked = true := by rw [← hu]; exact hn
  have hgu : u.gap = none := by rw [← hu]; exact hg
  have hcu : u.ctrl.sclo = false := by rw [← hu]; rfl
  have hlu : u.looks = ps.flatMap (fun p => p.2.looks) ++ (r.looks ++ more) := by rw [← hu]; rfl
  refine Reach.trans
    (reach_step (op := .xferStarted addr (ps.map Prod.fst) 0)
      (t := u.clearRx.onward (ps.map (fun p => .txByte p.1) ++ (xferEnd true ++ rest))) hgu (by simp [BusOp.writes]) ?_ rfl hgu) ?_
  · rw [busTick_xferStarted, ha]
    simp [xferAfterStart, Function.comp_def]
  · refine Reach.trans (reach_txBytes ps _ _ u.clearRx hgu hcu hlu) ?_
    exact reach_xferEnd _ true r more rest ((afterTxs_gap ps _ _).trans hgu) (afterTxs_looks ps _ _ hlu)

/-- `Xfer` with a read phase whose restart is nacked (R171, R175). -/
theorem reach_xfer_renacked (s : State) (addr : BusAddr) (ps : List (Byte × Frame)) (nread : Nat) (o o2 : Start)
    (r : Rise) (more : List Drive) (rest : List BusOp) (hg : s.gap = none) (hr : 0 < nread) (hn : o.acked = true)
    (hn2 : o2.acked = false)
    (hl : s.looks = o.looks ++ (ps.flatMap (fun p => p.2.looks) ++ (o2.looks ++ (r.looks ++ more)))) :
    Reach (170 + 65 * ps.length) (s.onward (.xfer addr (ps.map Prod.fst) nread :: rest))
      ((((((s.afterCall addr false o (ps.flatMap (fun p => p.2.looks) ++ (o2.looks ++ (r.looks ++ more)))).clearRx).afterTxs
        ps (o2.looks ++ (r.looks ++ more))).afterCall addr true o2 (r.looks ++ more)).afterXferEnd false r more).onward
          rest) := by
  refine Reach.mono (j := 1 + (77 + (1 + (65 * ps.length + (77 + (1 + 11)))))) ?_ (by omega)
  refine Reach.trans
    (reach_step (t := s.onward (xferBody addr (ps.map Prod.fst) nread ++ rest)) hg
      (by simp [BusOp.writes]) rfl rfl hg) ?_
  refine Reach.trans (reach_call s addr false o _ _ hg hl) ?_
  generalize hu : s.afterCall addr false o (ps.flatMap (fun p => p.2.looks) ++ (o2.looks ++ (r.looks ++ more))) = u
  have ha : u.seq.acked = true := by rw [← hu]; exact hn
  have hgu : u.gap = none := by rw [← hu]; exact hg
  have hcu : u.ctrl.sclo = false := by rw [← hu]; rfl
  have hlu : u.looks = ps.flatMap (fun p => p.2.looks) ++ (o2.looks ++ (r.looks ++ more)) := by rw [← hu]; rfl
  refine Reach.trans
    (reach_step (op := .xferStarted addr (ps.map Prod.fst) nread)
      (t := u.clearRx.onward (ps.map (fun p => .txByte p.1) ++
        (.doStart addr true :: .touch addr :: .xferRestarted nread :: rest))) hgu (by simp [BusOp.writes]) ?_ rfl hgu) ?_
  · rw [busTick_xferStarted, ha]
    simp [xferAfterStart, hr, Function.comp_def]
  · refine Reach.trans (reach_txBytes ps _ _ u.clearRx hgu hcu hlu) ?_
    have hgv : (u.clearRx.afterTxs ps (o2.looks ++ (r.looks ++ more))).gap = none := (afterTxs_gap ps _ _).trans hgu
    refine Reach.trans (reach_call _ addr true o2 _ _ hgv (afterTxs_looks ps _ _ hlu)) ?_
    generalize u.clearRx.afterTxs ps (o2.looks ++ (r.looks ++ more)) = v at hgv
    have hav : (v.afterCall addr true o2 (r.looks ++ more)).seq.acked = false := hn2
    refine Reach.trans
      (reach_step (op := .xferRestarted nread)
        (t := (v.afterCall addr true o2 (r.looks ++ more)).onward (xferEnd false ++ rest)) hgv (by simp [BusOp.writes]) ?_ rfl hgv) ?_
    · rw [busTick_xferRestarted, hav]
      rfl
    · exact reach_xferEnd _ false r more rest hgv rfl

/-- `rx[k] <-` the byte received (R171). -/
def State.keepRx (s : State) (b : Byte) : State := { s with seq := { s.seq with rx := s.seq.rx ++ [b] } }

/-- What the read phase leaves: every byte received is kept, all but the last acked (R171). -/
def State.afterReads (s : State) : List Frame → List Drive → State
  | [], _ => s
  | f :: fs, more =>
    ((s.afterRx fs.isEmpty f (fs.flatMap Frame.looks ++ more)).keepRx f.byte).afterReads fs more

theorem afterReads_gap (fs : List Frame) (s : State) (m : List Drive) : (s.afterReads fs m).gap = s.gap := by
  induction fs generalizing s with
  | nil => rfl
  | cons f fs ih => exact ih _

theorem afterReads_looks (fs : List Frame) (s : State) (m : List Drive)
    (hl : s.looks = fs.flatMap Frame.looks ++ m) : (s.afterReads fs m).looks = m := by
  induction fs generalizing s with
  | nil => exact hl
  | cons f fs ih => exact ih _ rfl

/-- The read phase from its `k`-th byte on. -/
def readFrom (n k : Nat) : List BusOp := (List.range' k (n - k)).flatMap fun j => [.rxByte (j + 1 == n), .rxKeep]

theorem readPhase_eq (n : Nat) : readPhase n = readFrom n 0 := by
  simp [readPhase, readFrom, List.range_eq_range']

theorem reach_readFrom (n : Nat) (fs : List Frame) (k : Nat) (more : List Drive) (rest : List BusOp) (s : State)
    (hg : s.gap = none) (hc : s.ctrl.sclo = false) (hk : k + fs.length = n) (hl : s.looks = fs.flatMap Frame.looks ++ more) :
    Reach (74 * fs.length) (s.onward (readFrom n k ++ rest)) ((s.afterReads fs more).onward rest) := by
  induction fs generalizing s k with
  | nil =>
    have : n - k = 0 := by simp at hk; omega
    simpa [readFrom, this, State.afterReads] using Reach.refl (s.onward rest)
  | cons f fs ih =>
    have hl' : s.looks = f.looks ++ (fs.flatMap Frame.looks ++ more) := by simpa using hl
    have hr : readFrom n k = .rxByte (k + 1 == n) :: .rxKeep :: readFrom n (k + 1) := by
      simp only [List.length_cons] at hk
      simp only [readFrom, show n - k = (n - (k + 1)) + 1 by omega, List.range'_succ, List.flatMap_cons]
      rfl
    have he : (k + 1 == n) = fs.isEmpty := by
      cases fs with
      | nil => simp at hk; simp [hk]
      | cons g gs => simp only [List.length_cons] at hk; simp; omega
    rw [hr, he]
    refine Reach.mono (j := 73 + (1 + 74 * fs.length)) ?_ (by simp only [List.length_cons]; omega)
    refine Reach.trans (reach_rxByte s fs.isEmpty f _ _ hg hc hl').reach ?_
    refine Reach.trans (reach_step (op := .rxKeep)
      (t := ((s.afterRx fs.isEmpty f (fs.flatMap Frame.looks ++ more)).keepRx f.byte).onward (readFrom n (k + 1) ++ rest))
      hg (by simp [BusOp.writes]) rfl rfl hg) ?_
    exact ih (k + 1) ((s.afterRx fs.isEmpty f (fs.flatMap Frame.looks ++ more)).keepRx f.byte) hg rfl
      (by simp only [List.length_cons] at hk; omega) rfl

/-- `Xfer` with a read phase, both starts acked: the bytes are received in order and `okx = true` (R171). -/
theorem reach_xfer_read (s : State) (addr : BusAddr) (ps : List (Byte × Frame)) (fs : List Frame) (o o2 : Start)
    (r : Rise) (more : List Drive) (rest : List BusOp) (hg : s.gap = none) (hr : 0 < fs.length) (hn : o.acked = true)
    (hn2 : o2.acked = true)
    (hl : s.looks = o.looks ++ (ps.flatMap (fun p => p.2.looks) ++ (o2.looks ++ (fs.flatMap Frame.looks ++
      (r.looks ++ more))))) :
    Reach (170 + 65 * ps.length + 74 * fs.length) (s.onward (.xfer addr (ps.map Prod.fst) fs.length :: rest))
      (((((((s.afterCall addr false o (ps.flatMap (fun p => p.2.looks) ++ (o2.looks ++ (fs.flatMap Frame.looks ++
        (r.looks ++ more))))).clearRx).afterTxs ps (o2.looks ++ (fs.flatMap Frame.looks ++ (r.looks ++ more)))).afterCall
          addr true o2 (fs.flatMap Frame.looks ++ (r.looks ++ more))).afterReads fs (r.looks ++ more)).afterXferEnd true r
            more).onward rest) := by
  refine Reach.mono (j := 1 + (77 + (1 + (65 * ps.length + (77 + (1 + (74 * fs.length + 11))))))) ?_ (by omega)
  refine Reach.trans
    (reach_step (t := s.onward (xferBody addr (ps.map Prod.fst) fs.length ++ rest)) hg
      (by simp [BusOp.writes]) rfl rfl hg) ?_
  refine Reach.trans (reach_call s addr false o _ _ hg hl) ?_
  generalize hu : s.afterCall addr false o (ps.flatMap (fun p => p.2.looks) ++ (o2.looks ++ (fs.flatMap Frame.looks ++
      (r.looks ++ more)))) = u
  have ha : u.seq.acked = true := by rw [← hu]; exact hn
  have hgu : u.gap = none := by rw [← hu]; exact hg
  have hcu : u.ctrl.sclo = false := by rw [← hu]; rfl
  have hlu : u.looks = ps.flatMap (fun p => p.2.looks) ++ (o2.looks ++ (fs.flatMap Frame.looks ++ (r.looks ++ more))) := by
    rw [← hu]; rfl
  refine Reach.trans
    (reach_step (op := .xferStarted addr (ps.map Prod.fst) fs.length)
      (t := u.clearRx.onward (ps.map (fun p => .txByte p.1) ++
        (.doStart addr true :: .touch addr :: .xferRestarted fs.length :: rest))) hgu (by simp [BusOp.writes]) ?_ rfl hgu) ?_
  · rw [busTick_xferStarted, ha]
    simp [xferAfterStart, hr, Function.comp_def]
  · refine Reach.trans (reach_txBytes ps _ _ u.clearRx hgu hcu hlu) ?_
    have hgv : (u.clearRx.afterTxs ps (o2.looks ++ (fs.flatMap Frame.looks ++ (r.looks ++ more)))).gap = none :=
      (afterTxs_gap ps _ _).trans hgu
    refine Reach.trans (reach_call _ addr true o2 _ _ hgv (afterTxs_looks ps _ _ hlu)) ?_
    generalize u.clearRx.afterTxs ps (o2.looks ++ (fs.flatMap Frame.looks ++ (r.looks ++ more))) = v at hgv
    have hav : (v.afterCall addr true o2 (fs.flatMap Frame.looks ++ (r.looks ++ more))).seq.acked = true := hn2
    refine Reach.trans
      (reach_step (op := .xferRestarted fs.length)
        (t := (v.afterCall addr true o2 (fs.flatMap Frame.looks ++ (r.looks ++ more))).onward
          (readPhase fs.length ++ (xferEnd true ++ rest))) hgv (by simp [BusOp.writes]) ?_ rfl hgv) ?_
    · rw [busTick_xferRestarted, hav]
      simp [xferAfterRestart]
    · rw [readPhase_eq]
      refine Reach.trans (reach_readFrom fs.length fs 0 _ _ _ hgv rfl (by simp) rfl) ?_
      exact reach_xferEnd _ true r more rest ((afterReads_gap fs _ _).trans hgv) (afterReads_looks fs _ _ rfl)

end Sys2Proof.Machine
end

