-- ==== Sys2Proof/Laws/Xfer.lean ====
section
/-!
SUPPORT. `Xfer` as one step (43_device_commands.md R171): from a free bus, for every environment that lets it end, it
leaves `afterWrite` or `afterRead`, up to the values its own lines return.
-/

namespace Sys2Proof.Machine

/-! ## The ack record -/

theorem ackCount_toNat (l : List Bool) : (ackCount l).toNat = min l.length 16 := by
  simp [ackCount] <;> omega

theorem ackBits_getLsbD (l : List Bool) (k : Nat) : (ackBits l).getLsbD k = (decide (k < 16) && l.getD k false) := by
  simp [ackBits]

theorem putBit_getLsbD {n : Nat} (v : BitVec n) (i k : Nat) (b : Bool) (hi : i < n) :
    (putBit v i b).getLsbD k = if k = i then b else v.getLsbD k := by
  unfold putBit
  by_cases hk : k < n
  · cases b <;> by_cases h : k = i <;> simp [h, hk, hi] <;> omega
  · have := BitVec.getLsbD_of_ge v k (by omega)
    rw [BitVec.getLsbD_of_ge _ k (by omega), this]
    simp <;> omega

/-- Recording one more ack (10_state.md R30). -/
theorem recorded (l : List Bool) (a : Bool) :
    (if ackCount l < 16 then putBit (ackBits l) (ackCount l).toNat a else ackBits l) = ackBits (l ++ [a]) ∧
      (if ackCount l < 16 then ackCount l + 1 else ackCount l) = ackCount (l ++ [a]) := by
  have hlt : ackCount l < 16 ↔ l.length < 16 := by
    rw [BitVec.lt_def, ackCount_toNat]; simp <;> omega
  by_cases h : l.length < 16
  · rw [if_pos (hlt.2 h), if_pos (hlt.2 h)]
    constructor
    · apply BitVec.eq_of_getLsbD_eq
      intro k hk
      rw [ackCount_toNat, putBit_getLsbD _ _ _ _ (by omega), ackBits_getLsbD, ackBits_getLsbD]
      have : min l.length 16 = l.length := by omega
      rw [this]
      simp only [hk, decide_true, Bool.true_and]
      by_cases hk' : k < l.length
      · simp [List.getD, List.getElem?_append, hk', show k ≠ l.length by omega]
      · by_cases he : k = l.length
        · simp [he, List.getD]
        · obtain ⟨j, hj⟩ : ∃ j, k - l.length = j + 1 := ⟨k - l.length - 1, by omega⟩
          simp [he, List.getD, List.getElem?_append, hk', hj]
    · apply BitVec.eq_of_toNat_eq
      rw [BitVec.toNat_add, ackCount_toNat, ackCount_toNat]; simp; omega
  · rw [if_neg (fun h' => h (hlt.1 h')), if_neg (fun h' => h (hlt.1 h'))]
    constructor
    · apply BitVec.eq_of_getLsbD_eq
      intro k hk
      rw [ackBits_getLsbD, ackBits_getLsbD]
      simp [List.getD, List.getElem?_append, show k < l.length by omega]
    · simp [ackCount, show min l.length 16 = 16 by omega, show min (l.length + 1) 16 = 16 by omega]

theorem recorded_first (a : Bool) :
    (if (0 : BitVec 5) < 16 then putBit (0 : BitVec 16) (0 : BitVec 5).toNat a else 0) = ackBits [a] ∧
      (if (0 : BitVec 5) < 16 then (0 : BitVec 5) + 1 else 0) = ackCount [a] := by
  cases a <;> decide

/-- The scratch values that outlive a procedure are those of `q0`. -/
structure Scratch (q0 q : Seq) : Prop where
  line : q.line = q0.line
  newAddr : q.newAddr = q0.newAddr

/-! ## Closed forms -/

/-- After the first start of a transaction (R142, R171, R176). -/
theorem afterCall_free (s : State) (addr : BusAddr) (o : Start) (more : List Drive) (ho : s.owned = false) :
    s.afterCall addr false o more =
      ({ s with
        ctrl := ⟨false, false, true⟩, owned := true, ackvec := ackBits [o.acked], nb := ackCount [o.acked],
        trace := s.trace ++ [.start, .tx (addressByte addr false) o.acked], env := o.frame.last, looks := more,
        seq := { s.seq with samp := o.frame.ack.samp, acked := o.acked } } : State).touch addr o.acked := by
  obtain ⟨h1, h2⟩ := recorded_first o.acked
  simp only [State.afterCall, State.afterStart, State.afterTx, State.withAck, State.openedRecord, ho, if_false,
    Bool.false_eq_true, Start.acked] at h1 h2 ⊢
  rw [h1, h2]
  simp

/-- After a restart (R142, R171, R176): the ack record goes on. -/
theorem afterCall_owned (s : State) (addr : BusAddr) (o : Start) (more : List Drive) (acks : List Bool)
    (ho : s.owned = true) (ha : s.ackvec = ackBits acks) (hn : s.nb = ackCount acks) :
    s.afterCall addr true o more =
      ({ s with
        ctrl := ⟨false, false, true⟩, ackvec := ackBits (acks ++ [o.acked]), nb := ackCount (acks ++ [o.acked]),
        trace := s.trace ++ [.restart, .tx (addressByte addr true) o.acked], env := o.frame.last, looks := more,
        seq := { s.seq with samp := o.frame.ack.samp, acked := o.acked } } : State).touch addr o.acked := by
  obtain ⟨h1, h2⟩ := recorded acks o.acked
  simp only [State.afterCall, State.afterStart, State.afterTx, State.withAck, State.openedRecord, ho, if_true,
    Start.acked, ha, hn] at h1 h2 ⊢
  rw [h1, h2]
  simp

theorem afterTxs_eq (ps : List (Byte × Frame)) (s : State) (more : List Drive) (acks : List Bool)
    (ha : s.ackvec = ackBits acks) (hn : s.nb = ackCount acks) (hc : s.ctrl = ⟨false, false, true⟩)
    (hl : s.looks = ps.flatMap (fun p => p.2.looks) ++ more) :
    ∃ e b a, s.afterTxs ps more =
      { s with
        ackvec := ackBits (acks ++ ps.map (·.2.acked)), nb := ackCount (acks ++ ps.map (·.2.acked)),
        trace := s.trace ++ ps.map (fun p => .tx p.1 p.2.acked), env := e, looks := more,
        seq := { s.seq with samp := b, acked := a } } := by
  induction ps generalizing s acks with
  | nil => exact ⟨s.env, s.seq.samp, s.seq.acked, by cases s; simp_all [State.afterTxs]⟩
  | cons p ps ih =>
    obtain ⟨h1, h2⟩ := recorded acks p.2.acked
    obtain ⟨e, b, a, h⟩ := ih (s.afterTx p.1 p.2 (ps.flatMap (fun p => p.2.looks) ++ more)) (acks ++ [p.2.acked])
      (by simp only [State.afterTx, State.withAck, ha, hn]; exact h1)
      (by simp only [State.afterTx, State.withAck, hn]; exact h2) rfl rfl
    refine ⟨e, b, a, ?_⟩
    rw [State.afterTxs, h]
    simp [State.afterTx, State.withAck, hc]

theorem afterReads_eq (fs : List Frame) (s : State) (more : List Drive) (acks : List Bool)
    (ha : s.ackvec = ackBits acks) (hn : s.nb = ackCount acks) (hl : s.looks = fs.flatMap Frame.looks ++ more) :
    ∃ c e b v, s.afterReads fs more =
      { s with
        ackvec := ackBits (acks ++ readAcks fs), nb := ackCount (acks ++ readAcks fs), ctrl := c,
        trace := s.trace ++ List.zipWith (fun f a => .rx f.byte a) fs (readAcks fs), env := e, looks := more,
        seq := { s.seq with samp := b, byte := v, rx := s.seq.rx ++ fs.map Frame.byte } } := by
  induction fs generalizing s acks with
  | nil => exact ⟨s.ctrl, s.env, s.seq.samp, s.seq.byte, by cases s; simp_all [State.afterReads, readAcks]⟩
  | cons f fs ih =>
    have hr : readAcks (f :: fs) = (!(fs.isEmpty && f.ack.samp)) :: readAcks fs := by
      cases fs <;> simp [readAcks, Frame.acked]
    obtain ⟨h1, h2⟩ := recorded acks (!(fs.isEmpty && f.ack.samp))
    obtain ⟨c, e, b, v, h⟩ := ih ((s.afterRx fs.isEmpty f (fs.flatMap Frame.looks ++ more)).keepRx f.byte)
      (acks ++ [!(fs.isEmpty && f.ack.samp)])
      (by simp only [State.keepRx, State.afterRx, State.withAck, ha, hn]; exact h1)
      (by simp only [State.keepRx, State.afterRx, State.withAck, hn]; exact h2) rfl
    refine ⟨c, e, b, v, ?_⟩
    rw [State.afterReads, h, hr]
    simp [State.keepRx, State.afterRx, State.withAck]

theorem touch_touch (s : State) (addr : BusAddr) (a b : Bool) : (s.touch addr a).touch addr b = s.touch addr b := by
  simp only [State.touch, List.mapIdx_mapIdx]
  congr 1
  apply List.mapIdx_eq_mapIdx_iff.2
  intro i hi
  simp only [Function.comp]
  generalize s.entry[i] = e
  obtain ⟨ad, rg, ac, te, re⟩ := e
  by_cases hd : i < s.idx.toNat <;> cases rg <;> by_cases h : ad = addr <;> simp [h, hd]

/-! ## Whole transactions -/

/-- `Xfer` whose first start is nacked, with or without a read phase: the bus is stopped and nothing is sent (R175). -/
theorem reach_nacked_xfer (s : State) (addr : BusAddr) (bytes : List Byte) (n : Nat) (w : Write) (more : List Drive)
    (rest : List BusOp) (hg : s.gap = none) (ho : s.owned = false) (hn : w.start.acked = false) (hf : w.frames = [])
    (hl : s.looks = w.looks ++ more) :
    ∃ q : Seq, Scratch s.seq q ∧ q.okx = w.start.acked ∧
      Reach 90 (s.onward (.xfer addr bytes n :: rest)) ({ s.afterWrite addr bytes w more with seq := q }.onward rest) := by
  obtain ⟨o, fs, r⟩ := w
  simp only at hn hf
  subst hf
  have hl' : s.looks = o.looks ++ (r.looks ++ more) := by simpa [Write.looks] using hl
  have h := reach_xfer_nacked s addr bytes n o r more rest hg hn hl'
  rw [afterCall_free s addr o _ ho] at h
  refine ⟨{ s.seq with samp := o.frame.ack.samp, acked := o.acked, rx := [], okx := false }, ⟨rfl, rfl⟩, hn.symm, ?_⟩
  refine h.cast ?_
  simp [State.afterXferEnd, State.afterStop, State.clearRx, State.touch, State.afterWrite, State.afterTransaction,
    Write.acks, Write.events, hn, State.onward]

/-- `Xfer` without a read phase. -/
theorem reach_write_xfer (s : State) (addr : BusAddr) (bytes : List Byte) (w : Write) (more : List Drive)
    (rest : List BusOp) (hg : s.gap = none) (ho : s.owned = false) (hf : w.fits bytes.length)
    (hl : s.looks = w.looks ++ more) :
    ∃ q : Seq, Scratch s.seq q ∧ q.okx = w.start.acked ∧
      Reach (90 + 65 * bytes.length) (s.onward (.xfer addr bytes 0 :: rest))
        ({ s.afterWrite addr bytes w more with seq := q }.onward rest) := by
  cases hn : w.start.acked with
  | false =>
    obtain ⟨q, hq, hk, h⟩ := reach_nacked_xfer s addr bytes 0 w more rest hg ho hn
      (List.length_eq_zero_iff.1 (by simpa [Write.fits, hn] using hf)) hl
    exact ⟨q, hq, hk.trans hn, h.mono (by omega)⟩
  | true =>
    obtain ⟨o, fs, r⟩ := w
    simp only at hn
    have hfs : fs.length = bytes.length := by simpa [Write.fits, hn] using hf
    have hb : (bytes.zip fs).map Prod.fst = bytes := List.map_fst_zip (by omega)
    have hs : (bytes.zip fs).map Prod.snd = fs := List.map_snd_zip (by omega)
    have hlk : (bytes.zip fs).flatMap (fun p => p.2.looks) = fs.flatMap Frame.looks := by
      conv => rhs; rw [← hs, List.flatMap_map]
    have hak : (bytes.zip fs).map (fun p => p.2.acked) = fs.map Frame.acked := by
      conv => rhs; rw [← hs, List.map_map]
      rfl
    have htr : (bytes.zip fs).map (fun p => WireEvent.tx p.1 p.2.acked) =
        List.zipWith (fun b f => WireEvent.tx b f.acked) bytes fs := by
      rw [List.zip, List.map_zipWith]
    have hl' : s.looks = o.looks ++ ((bytes.zip fs).flatMap (fun p => p.2.looks) ++ (r.looks ++ more)) := by
      rw [hlk]; simpa [Write.looks] using hl
    have h := reach_xfer_write s addr (bytes.zip fs) o r more rest hg hn hl'
    have hu := afterCall_free s addr o ((bytes.zip fs).flatMap (fun p => p.2.looks) ++ (r.looks ++ more)) ho
    obtain ⟨e, b, a, he⟩ := afterTxs_eq (bytes.zip fs) (s.afterCall addr false o _).clearRx (r.looks ++ more) [o.acked]
      (by rw [hu]; rfl) (by rw [hu]; rfl) (by rw [hu]; rfl) (by rw [hu]; rfl)
    rw [hb, he, hu] at h
    refine ⟨{ s.seq with samp := b, acked := a, rx := [], okx := true }, ⟨rfl, rfl⟩, rfl, ?_⟩
    refine (h.mono (by simp [hfs])).cast ?_
    simp [State.afterXferEnd, State.afterStop, State.clearRx, State.touch, State.afterWrite, State.afterTransaction,
      Write.acks, Write.events, hn, State.onward, hak, htr]

/-- `Xfer` with a read phase. -/
theorem reach_read_xfer (s : State) (addr : BusAddr) (bytes : List Byte) (n : Nat) (x : Read) (more : List Drive)
    (rest : List BusOp) (hg : s.gap = none) (ho : s.owned = false) (hn0 : 0 < n) (hf : x.fits bytes.length n)
    (hl : s.looks = x.looks ++ more) :
    ∃ q : Seq, Scratch s.seq q ∧ q.okx = x.restart.acked ∧ q.rx = x.data.map Frame.byte ∧
      Reach (170 + 65 * bytes.length + 74 * n) (s.onward (.xfer addr bytes n :: rest))
        ({ s.afterRead addr bytes x more with seq := q }.onward rest) := by
  obtain ⟨o, fs, o2, gs, r⟩ := x
  obtain ⟨hn, hfs, hgs⟩ := hf
  simp only at hn hfs hgs
  have hb : (bytes.zip fs).map Prod.fst = bytes := List.map_fst_zip (by omega)
  have hs : (bytes.zip fs).map Prod.snd = fs := List.map_snd_zip (by omega)
  have hlk : (bytes.zip fs).flatMap (fun p => p.2.looks) = fs.flatMap Frame.looks := by
    conv => rhs; rw [← hs, List.flatMap_map]
  have hak : (bytes.zip fs).map (fun p => p.2.acked) = fs.map Frame.acked := by
    conv => rhs; rw [← hs, List.map_map]
    rfl
  have htr : (bytes.zip fs).map (fun p => WireEvent.tx p.1 p.2.acked) =
      List.zipWith (fun b f => WireEvent.tx b f.acked) bytes fs := by
    rw [List.zip, List.map_zipWith]
  have hl' : s.looks = o.looks ++ ((bytes.zip fs).flatMap (fun p => p.2.looks) ++ (o2.looks ++
      (gs.flatMap Frame.looks ++ (r.looks ++ more)))) := by
    rw [hlk]; simpa [Read.looks] using hl
  have hu := afterCall_free s addr o ((bytes.zip fs).flatMap (fun p => p.2.looks) ++ (o2.looks ++
      (gs.flatMap Frame.looks ++ (r.looks ++ more)))) ho
  obtain ⟨e, b, a, he⟩ := afterTxs_eq (bytes.zip fs) (s.afterCall addr false o _).clearRx
    (o2.looks ++ (gs.flatMap Frame.looks ++ (r.looks ++ more))) [o.acked]
    (by rw [hu]; rfl) (by rw [hu]; rfl) (by rw [hu]; rfl) (by rw [hu]; rfl)
  have hv := afterCall_owned ((s.afterCall addr false o _).clearRx.afterTxs (bytes.zip fs)
    (o2.looks ++ (gs.flatMap Frame.looks ++ (r.looks ++ more)))) addr o2 (gs.flatMap Frame.looks ++ (r.looks ++ more))
    ([o.acked] ++ (bytes.zip fs).map (·.2.acked)) (by rw [he, hu]; rfl) (by rw [he]) (by rw [he])
  cases hn2 : o2.acked with
  | false =>
    have hgs' : gs = [] := by simpa [hn2] using hgs
    subst hgs'
    have h := reach_xfer_renacked s addr (bytes.zip fs) n o o2 r more rest hg hn0 hn hn2 (by simpa using hl')
    simp only [List.flatMap_nil, List.nil_append] at hv he hu
    rw [hb, hv, he, hu] at h
    refine ⟨{ s.seq with samp := o2.frame.ack.samp, acked := false, rx := [], okx := false }, ⟨rfl, rfl⟩, rfl, rfl, ?_⟩
    refine (h.mono (by simp [hfs])).cast ?_
    conv => rhs; rw [State.afterRead, ← touch_touch _ addr true]
    simp [State.afterXferEnd, State.afterStop, State.clearRx, State.touch, State.afterTransaction,
      Read.acks, Read.events, hn, hn2, State.onward, hak, htr, readAcks]
  | true =>
    have hgs' : gs.length = n := by simpa [hn2] using hgs
    subst hgs'
    have h := reach_xfer_read s addr (bytes.zip fs) gs o o2 r more rest hg hn0 hn hn2 hl'
    obtain ⟨c, e', b', v, he'⟩ := afterReads_eq gs (((s.afterCall addr false o _).clearRx.afterTxs (bytes.zip fs)
      (o2.looks ++ (gs.flatMap Frame.looks ++ (r.looks ++ more)))).afterCall addr true o2
        (gs.flatMap Frame.looks ++ (r.looks ++ more))) (r.looks ++ more)
        (([o.acked] ++ (bytes.zip fs).map (·.2.acked)) ++ [o2.acked]) (by rw [hv]; rfl) (by rw [hv]; rfl) (by rw [hv]; rfl)
    rw [hb, he', hv, he, hu] at h
    refine ⟨{ s.seq with samp := b', acked := true, byte := v, rx := gs.map Frame.byte, okx := true }, ⟨rfl, rfl⟩, rfl,
      rfl, ?_⟩
    refine (h.mono (by simp [hfs])).cast ?_
    conv => rhs; rw [State.afterRead, ← touch_touch _ addr true]
    simp [State.afterXferEnd, State.afterStop, State.clearRx, State.touch, State.afterTransaction,
      Read.acks, Read.events, hn, hn2, State.onward, hak, htr]

end Sys2Proof.Machine
end

