-- ==== Sys2Proof/Laws/Commands.lean ====
section
/-!
SUPPORT. How a command is started and how it ends: the checks (60_exceptions.md R244), the launch of the engine, and what
`exec` answers once a run of the engine is known.
-/

namespace Sys2Proof.Machine

theorem checked_ok {n : Needs} {s : State} {run : Host.Outcome State Fault Refusal} (h : firstFailure n s = .none) :
    checked n s run = run := by simp [checked, h]

theorem checked_fail {n : Needs} {s : State} {run : Host.Outcome State Fault Refusal} {e : Err}
    (h : firstFailure n s = e) (he : e ≠ .none) : checked n s run = .next (s.refuse e) := by
  cases e <;> simp_all [checked]

theorem initialised_ok {s : State} (hf : s.fatal = false) (hi : s.initDone = true) :
    firstFailure .initialised s = .none := by simp [firstFailure, hf, hi]

theorem ownedBus_ok {s : State} (hf : s.fatal = false) (hi : s.initDone = true) (ho : s.owned = true) :
    firstFailure .ownedBus s = .none := by simp [firstFailure, hf, hi, ho]

theorem freeBus_ok {s : State} (hf : s.fatal = false) (hi : s.initDone = true) (ho : s.owned = false) :
    firstFailure .freeBus s = .none := by simp [firstFailure, hf, hi, ho]

theorem notInitialised_ok {s : State} (hf : s.fatal = false) (hi : s.initDone = false) :
    firstFailure .notInitialised s = .none := by simp [firstFailure, hf, hi]

theorem addressed_ok {a : Byte} {s : State} {run : Host.Outcome State Fault Refusal} (h : a ≤ 0x7F) :
    addressed a s run = run := by
  unfold addressed
  rw [if_neg]
  rw [BitVec.lt_def]
  rw [BitVec.le_def] at h
  simp only [Config.addrMax]
  omega

theorem addressed_above {a : Byte} {s : State} {run : Host.Outcome State Fault Refusal} (h : 0x7F < a) :
    addressed a s run = launch [] (.finish false .addrRange 0) s := by
  unfold addressed
  exact if_pos h

theorem addr7_eq (a : Byte) : addr7 a = a.setWidth 7 := by
  apply BitVec.eq_of_getLsbD_eq
  intro i hi
  simp [addr7, hi]

/-- The address byte in the spec's words, `(address << 1) | readFlag` (30_encoding.md R96). -/
theorem addressByte_eq : ∀ (a : Byte) (f : Bool), addressByte (addr7 a) f = (a <<< 1) ||| (BitVec.ofBool f).setWidth 8 := by
  decide

/-- The state at the command's first line. -/
def State.started (s : State) (line : Line) : State := { s with busy := true, seq := { s.seq with line := line } }

/-- What a launch answers, once the engine's run is known; a run over the table may take as many more micro-steps as the
table has entries. -/
theorem launch_eq_table {k : Nat} {bus : List BusOp} {line : Line} {s t : State}
    (h : Reach k ((s.started line).onward bus) t) (hp : t.paused = true) (hk : k ≤ s.nmax + maxTicks) :
    launch bus line s = .next t := by
  rw [launch, State.goto_eq]
  exact congrArg _ (engineRun_of_reach h hp hk)

theorem launch_eq {k : Nat} {bus : List BusOp} {line : Line} {s t : State} (h : Reach k ((s.started line).onward bus) t)
    (hp : t.paused = true) (hk : k ≤ maxTicks) : launch bus line s = .next t := launch_eq_table h hp (by omega)

theorem complete_paused (s : State) (ok : Bool) (e : Err) (r : Byte) : (s.complete ok e r).paused = true :=
  paused_of_atRest rfl rfl

/-- A line at which the command completes. -/
theorem reach_complete {u t : State} (hb : u.seq.bus = []) (hg : u.gap = none) (h0 : u.seq.line ≠ .none)
    (h1 : u.seq.line ≠ .decode) {ok : Bool} {e : Err} {r : Byte} (ht : lineTick u.seq.line u = t.complete ok e r)
    (hl : t.looks = u.looks) (hgt : t.gap = none) : Reach 1 u (t.complete ok e r) :=
  reach_line hb hg h0 h1 ht hl hgt

/-- A command that runs a bus procedure and then completes. -/
theorem launch_completes {k : Nat} {bus : List BusOp} {line : Line} {s u t : State} {ok : Bool} {e : Err} {r : Byte}
    (h : Reach k ((s.started line).onward bus) u) (hb : u.seq.bus = []) (hg : u.gap = none) (h0 : u.seq.line ≠ .none)
    (h1 : u.seq.line ≠ .decode) (ht : lineTick u.seq.line u = t.complete ok e r) (hl : t.looks = u.looks)
    (hgt : t.gap = none) (hk : k + 1 ≤ maxTicks) : launch bus line s = .next (t.complete ok e r) :=
  launch_eq (h.trans (reach_complete hb hg h0 h1 ht hl hgt)) (complete_paused _ _ _ _) hk

/-- A command whose first line completes it, when no access of the host is due before that. -/
theorem launch_finish_due {s : State} (hd : s.hostDue = false) (ok : Bool) (e : Err) (r : Byte) :
    launch [] (.finish ok e r) s = .next (((s.started (.finish ok e r)).complete ok e r).pass) := by
  have hp : ((s.started (.finish ok e r)).onward []).paused = false := by
    rw [State.paused, show ((s.started (.finish ok e r)).onward []).hostDue = false from hd]
    simp [State.atRest, State.hung, State.started]
  have ht : tick ((s.started (.finish ok e r)).onward []) = ((s.started (.finish ok e r)).complete ok e r).pass := rfl
  rw [launch]
  show Host.Outcome.next (engineRun ((s.started (.finish ok e r)).onward [])) = _
  rw [engineRun]
  obtain ⟨n, hn⟩ : ∃ n, ((s.started (.finish ok e r)).onward []).looks.length +
      ((s.started (.finish ok e r)).onward []).gap.getD 0 +
        (((s.started (.finish ok e r)).onward []).nmax + maxTicks) = n + 1 :=
    ⟨_, (Nat.succ_pred_eq_of_pos (by unfold maxTicks; omega)).symm⟩
  rw [hn, engine, hp, ht]
  exact congrArg _ (engine_of_paused (paused_of_atRest rfl rfl))

theorem launch_finish {s : State} (hg : s.gap = none) (ok : Bool) (e : Err) (r : Byte) :
    launch [] (.finish ok e r) s = .next ((s.started (.finish ok e r)).complete ok e r) := by
  rw [launch_finish_due (hostDue_of_polite hg), State.pass_of_polite]
  exact hg

end Sys2Proof.Machine
end

