-- ==== Sys2Proof/Laws/Invariant.lean ====
section
/-!
SUPPORT. What every micro-step keeps, every run of the engine keeps, and what `exec` and `step` can do beside running it.
-/

namespace Sys2Proof.Machine

/-! ## Looks -/

section

variable (s : State)

@[simp] theorem look_ctrl : s.look.ctrl = s.ctrl := by unfold State.look; split <;> rfl
@[simp] theorem look_busy : s.look.busy = s.busy := by unfold State.look; split <;> rfl
@[simp] theorem look_initDone : s.look.initDone = s.initDone := by unfold State.look; split <;> rfl
@[simp] theorem look_fatal : s.look.fatal = s.fatal := by unfold State.look; split <;> rfl
@[simp] theorem look_owned : s.look.owned = s.owned := by unfold State.look; split <;> rfl
@[simp] theorem look_ovr : s.look.ovr = s.ovr := by unfold State.look; split <;> rfl
@[simp] theorem look_ackvec : s.look.ackvec = s.ackvec := by unfold State.look; split <;> rfl
@[simp] theorem look_nb : s.look.nb = s.nb := by unfold State.look; split <;> rfl
@[simp] theorem look_rxbuf : s.look.rxbuf = s.rxbuf := by unfold State.look; split <;> rfl
@[simp] theorem look_retryW : s.look.retryW = s.retryW := by unfold State.look; split <;> rfl
@[simp] theorem look_seq : s.look.seq = s.seq := by unfold State.look; split <;> rfl
@[simp] theorem look_idx : s.look.idx = s.idx := by unfold State.look; split <;> rfl
@[simp] theorem look_nextAddr : s.look.nextAddr = s.nextAddr := by unfold State.look; split <;> rfl
@[simp] theorem look_enumFailed : s.look.enumFailed = s.enumFailed := by unfold State.look; split <;> rfl
@[simp] theorem look_entry : s.look.entry = s.entry := by unfold State.look; split <;> rfl
@[simp] theorem look_hostQ : s.look.hostQ = s.hostQ := by unfold State.look; split <;> rfl
@[simp] theorem look_gap : s.look.gap = s.gap := by unfold State.look; split <;> rfl
@[simp] theorem look_wireReq : s.look.wireReq = s.wireReq := by unfold State.look; split <;> rfl
@[simp] theorem look_params : s.look.params = s.params := by unfold State.look; split <;> rfl
@[simp] theorem look_freeReads : s.look.freeReads = s.freeReads := by unfold State.look; split <;> rfl

end

/-! ## A micro-step inside a bus procedure -/

/-- Two tables of the same length that differ in the `active` flags of entries below `n` only. -/
def SameTable (n : Nat) (l l' : List Entry) : Prop :=
  l'.length = l.length ∧
    ∀ (i : Nat) (e' : Entry), l'[i]? = some e' →
      ∃ e, l[i]? = some e ∧ e' = { e with active := e'.active } ∧ (n ≤ i → e' = e)

theorem SameTable.refl (n : Nat) (l : List Entry) : SameTable n l l := ⟨rfl, fun _ e' h => ⟨e', h, rfl, fun _ => rfl⟩⟩

theorem touch_same (s : State) (addr : BusAddr) (a : Bool) : SameTable s.idx.toNat s.entry (s.touch addr a).entry := by
  refine ⟨by simp [State.touch], fun i e' h => ?_⟩
  simp only [State.touch, List.getElem?_mapIdx, Option.map_eq_some_iff] at h
  obtain ⟨e, he, rfl⟩ := h
  refine ⟨e, he, ?_, ?_⟩
  · split <;> rfl
  · intro hi
    simp [show ¬ i < s.idx.toNat by omega]

/-- What a line of a bus procedure never changes (43_device_commands.md R176 is its only way to the table). -/
structure BusFrame (s t : State) : Prop where
  busy : t.busy = s.busy
  cmdw : t.cmdw = s.cmdw
  initDone : t.initDone = s.initDone
  fatal : t.fatal = s.fatal
  ok : t.ok = s.ok
  err : t.err = s.err
  result : t.result = s.result
  ovr : t.ovr = s.ovr
  rxbuf : t.rxbuf = s.rxbuf
  retryW : t.retryW = s.retryW
  line : t.seq.line = s.seq.line
  newAddr : t.seq.newAddr = s.seq.newAddr
  idx : t.idx = s.idx
  nextAddr : t.nextAddr = s.nextAddr
  enumFailed : t.enumFailed = s.enumFailed
  table : SameTable s.idx.toNat s.entry t.entry
  hostQ : t.hostQ = s.hostQ
  gap : t.gap = s.gap
  hostRd : t.hostRd = s.hostRd
  wireReq : t.wireReq = s.wireReq
  freeReads : t.freeReads = s.freeReads
  params : t.params = s.params

theorem BusFrame.look_of {s t : State} (h : BusFrame s t) : BusFrame s.look t := by
  obtain ⟨⟩ := h
  unfold State.look
  split <;> constructor <;> assumption

theorem BusFrame.refl (s : State) : BusFrame s s := by
  constructor <;> first | rfl | exact SameTable.refl _ _

theorem busFrame_look (s : State) : BusFrame s s.look := by
  unfold State.look
  split <;> constructor <;> first | rfl | exact SameTable.refl _ _

theorem BusFrame.bus {s t : State} (h : BusFrame s t) (b : List BusOp) : BusFrame s (t.onward b) := by
  obtain ⟨⟩ := h
  constructor <;> assumption

theorem busTick_frame (op : BusOp) (rest : List BusOp) (s : State) : BusFrame s (busTick op rest s) := by
  cases op
  case awaitScl =>
    show BusFrame s (awaitSclTick rest s)
    unfold awaitSclTick
    split
    · exact (busFrame_look s).bus _
    · exact busFrame_look s
  case awaitIdle =>
    exact (busFrame_look s).bus _
  case awaitIdleSda scl =>
    show BusFrame s (awaitIdleSdaTick scl rest s)
    unfold awaitIdleSdaTick
    split <;> exact (busFrame_look s).bus _
  case sample =>
    show BusFrame s (sampleTick rest s)
    obtain ⟨⟩ := busFrame_look s
    constructor <;> first | assumption | rfl
  case touch addr =>
    constructor <;> first | rfl | exact touch_same s addr _
  all_goals constructor <;> first | rfl | exact SameTable.refl _ _

/-! ## Runs -/

theorem engine_keeps {P : State → Prop} (h : ∀ s, P s → P (tick s)) (k : Nat) (s : State) (hs : P s) :
    P (engine k s) := by
  induction k generalizing s with
  | zero => exact hs
  | succ k ih =>
    rw [engine]
    split
    · exact hs
    · exact ih _ (h s hs)

theorem engineRun_keeps {P : State → Prop} (h : ∀ s, P s → P (tick s)) (s : State) (hs : P s) : P (engineRun s) :=
  engine_keeps h _ s hs

/-- A property is kept by a micro-step if it is kept by every bus line, every command line and the host's clock. -/
theorem tick_keeps {P : State → Prop} (hpass : ∀ s, P s → P s.pass)
    (hbus : ∀ op rest s, s.seq.bus = op :: rest → P s → P (busTick op rest s))
    (hline : ∀ s, s.seq.bus = [] → P s → P (lineTick s.seq.line s)) (s : State) (hs : P s) : P (tick s) := by
  unfold tick
  split
  · exact hpass _ (hbus _ _ s ‹_› hs)
  · exact hpass _ (hline s ‹_› hs)

/-! ## What `exec` can do -/

/-- The lines at which an instruction starts the engine. -/
def launchOf : Instr → List BusOp × Line
  | .start a f => ([.doStart (addr7 a) f], .startDone)
  | .stop => ([.doStop], .finish true .none 0)
  | .writebyte a => ([.txByte a], .writeDone)
  | .readbyte f => ([.rxByte f], .readDone)
  | .busscan a b => ([], .scan (a.setWidth 9) b 0 true)
  | .init => ([], .initCheck)
  | .claim a => ([], .claim a)
  | .devTickread a => ([wireTickread (addr7 a)], .tickreadDone)
  | .devReset a => ([wireReset (addr7 a)], .devDone)
  | .gcallReset => ([wireGcreset], .gcallDestroy)
  | .devColor a b => ([wireColor (addr7 a) b], .devDone)
  | .wProbe t => ([wireProbe (addr7 t)], .wireDone)
  | .wTickread t => ([wireTickread (addr7 t)], .wireDone)
  | .wReset t => ([wireReset (addr7 t)], .wireDone)
  | .wPropagate t => ([wirePropagate (addr7 t)], .wireDone)
  | .wTerminate t => ([wireTerminate (addr7 t)], .wireDone)
  | .wSetaddr p => ([wireSetaddr p], .wireDone)
  | .wGcreset => ([wireGcreset], .wireDone)
  | .wColor t p => ([wireColor (addr7 t) p], .wireDone)

/-- What a host command's checks ask for; none for a wire command (log 11). -/
def needsOf : Instr → Option Needs
  | .start _ _ => some .initialised
  | .stop => some .initialised
  | .writebyte _ => some .ownedBus
  | .readbyte _ => some .ownedBus
  | .init => some .notInitialised
  | .busscan _ _ => some .freeBus
  | .claim _ => some .freeBus
  | .devTickread _ => some .freeBus
  | .devReset _ => some .freeBus
  | .gcallReset => some .freeBus
  | .devColor _ _ => some .freeBus
  | .wProbe _ => none
  | .wTickread _ => none
  | .wReset _ => none
  | .wPropagate _ => none
  | .wTerminate _ => none
  | .wSetaddr _ => none
  | .wGcreset => none
  | .wColor _ _ => none

/-- The state at an instruction's first line. -/
def State.launched (s : State) (i : Instr) : State := { s with busy := true }.goto (launchOf i).1 (launchOf i).2

/-- Everything `exec` can answer: always a next state. -/
inductive Executed (i : Instr) (s : State) : State → Prop
  /-- A check failed (60_exceptions.md R243, R244). -/
  | refused (e : Err) (n : Needs) (h : needsOf i = some n) (he : firstFailure n s = e) : e ≠ .none → Executed i s (s.refuse e)
  /-- The address is above ADDR_MAX (41_bus_commands.md R143). -/
  | range : Executed i s (engineRun ({ s with busy := true }.goto [] (.finish false .addrRange 0)))
  /-- The target of a wire command is above ADDR_MAX (log 11). -/
  | target (h : WellFormed i = false) : Executed i s { s with seq := { s.seq with okx := false, rx := [] } }
  /-- The engine ran. -/
  | ran (h : ∀ n, needsOf i = some n → firstFailure n s = .none) : Executed i s (engineRun (s.launched i))

theorem executed_checked {i : Instr} {s : State} {n : Needs} {run : Host.Outcome State Fault Refusal}
    (hn : needsOf i = some n) (h : firstFailure n s = .none → ∃ t, run = .next t ∧ Executed i s t) :
    ∃ t, checked n s run = .next t ∧ Executed i s t := by
  by_cases hf : firstFailure n s = .none
  · rw [checked_ok hf]
    exact h hf
  · exact ⟨_, checked_fail rfl hf, .refused _ n hn rfl hf⟩

theorem executed_addressed {i : Instr} {s : State} {a : Byte} {run : Host.Outcome State Fault Refusal}
    (h : ∃ t, run = .next t ∧ Executed i s t) : ∃ t, addressed a s run = .next t ∧ Executed i s t := by
  unfold addressed
  split
  · exact ⟨_, rfl, .range⟩
  · exact h

theorem executed_ran {i : Instr} {s : State} {n : Needs} (hn : needsOf i = some n) (hf : firstFailure n s = .none) :
    ∃ t, launch (launchOf i).1 (launchOf i).2 s = .next t ∧ Executed i s t :=
  ⟨_, rfl, .ran (fun m hm => by rw [hn] at hm; cases hm; exact hf)⟩

theorem executed_wire {i : Instr} {s : State} {t : Byte} {op : BusOp} (hn : needsOf i = none)
    (hl : launchOf i = ([op], .wireDone)) (hw : WellFormed i = targetOk t) :
    ∃ u, wireAlone t op s = .next u ∧ Executed i s u := by
  unfold wireAlone
  split
  · refine ⟨_, rfl, ?_⟩
    have h := Executed.ran (i := i) (s := s) (fun m hm => by rw [hn] at hm; cases hm)
    unfold State.launched at h
    rw [hl] at h
    exact h
  · exact ⟨_, rfl, .target (by simp_all)⟩

theorem exec_executed (i : Instr) (s : State) : ∃ t, exec i s = .next t ∧ Executed i s t := by
  cases i with
  | start a f => exact executed_checked rfl fun h => executed_addressed (executed_ran (i := .start a f) rfl h)
  | stop => exact executed_checked rfl fun h => executed_ran (i := .stop) rfl h
  | writebyte a => exact executed_checked rfl fun h => executed_ran (i := .writebyte a) rfl h
  | readbyte f => exact executed_checked rfl fun h => executed_ran (i := .readbyte f) rfl h
  | busscan a b => exact executed_checked rfl fun h => executed_ran (i := .busscan a b) rfl h
  | init => exact executed_checked rfl fun h => executed_ran (i := .init) rfl h
  | claim a => exact executed_checked rfl fun h => executed_ran (i := .claim a) rfl h
  | devTickread a => exact executed_checked rfl fun h => executed_addressed (executed_ran (i := .devTickread a) rfl h)
  | devReset a => exact executed_checked rfl fun h => executed_addressed (executed_ran (i := .devReset a) rfl h)
  | gcallReset => exact executed_checked rfl fun h => executed_ran (i := .gcallReset) rfl h
  | devColor a b => exact executed_checked rfl fun h => executed_addressed (executed_ran (i := .devColor a b) rfl h)
  | wProbe t => exact executed_wire rfl rfl rfl
  | wTickread t => exact executed_wire rfl rfl rfl
  | wReset t => exact executed_wire rfl rfl rfl
  | wPropagate t => exact executed_wire rfl rfl rfl
  | wTerminate t => exact executed_wire rfl rfl rfl
  | wSetaddr p => exact ⟨_, rfl, .ran (i := .wSetaddr p) (fun m hm => by cases hm)⟩
  | wGcreset => exact ⟨_, rfl, .ran (i := .wGcreset) (fun m hm => by cases hm)⟩
  | wColor t p => exact executed_wire rfl rfl rfl

theorem executed_of_exec {i : Instr} {s t : State} (h : exec i s = .next t) : Executed i s t := by
  obtain ⟨u, hu, hx⟩ := exec_executed i s
  rw [hu] at h
  cases h
  exact hx

end Sys2Proof.Machine
end

