-- ==== Sys2Proof/Laws/Steps.lean ====
section
/-!
SUPPORT. What one step can do, said once: the inversion of `step` (`Stepped`), and what a line of a command never changes
(`LineFrame`).
-/

namespace Sys2Proof.Machine

/-! ## A micro-step at a line of a command -/

/-- What no line of a command's own pseudocode changes: the lines, the ack record, the inputs and the parameters. -/
structure LineFrame (s t : State) : Prop where
  ctrl : t.ctrl = s.ctrl
  env : t.env = s.env
  looks : t.looks = s.looks
  cmdw : t.cmdw = s.cmdw
  ovr : t.ovr = s.ovr
  ackvec : t.ackvec = s.ackvec
  nb : t.nb = s.nb
  hostQ : t.hostQ = s.hostQ
  gap : t.gap = s.gap
  hostRd : t.hostRd = s.hostRd
  wireReq : t.wireReq = s.wireReq
  freeReads : t.freeReads = s.freeReads
  params : t.params = s.params
  trace : t.trace = s.trace
  nmax : t.nmax = s.nmax

theorem lineTick_frame (l : Line) (s : State) : LineFrame s (lineTick l s) := by
  cases l
  case initCheck =>
    show LineFrame s (initCheckTick s)
    unfold initCheckTick
    split <;> constructor <;> rfl
  case scan c max count first =>
    show LineFrame s (scanTick c max count first s)
    unfold scanTick
    split
    · constructor <;> rfl
    · split <;> constructor <;> rfl
  case tickreadDone =>
    show LineFrame s (tickreadDoneTick s)
    unfold tickreadDoneTick
    split <;> constructor <;> rfl
  case gcallEntry i =>
    show LineFrame s (gcallEntryTick i s)
    unfold gcallEntryTick
    split <;> constructor <;> first | rfl | simp [State.clearEntry, State.nmax, State.goto]
  case claim a =>
    show LineFrame s (claimTick a s)
    unfold claimTick
    split
    · constructor <;> rfl
    split
    · constructor <;> rfl
    split
    · constructor <;> rfl
    dsimp only
    split
    · constructor <;> rfl
    split <;> constructor <;> rfl
  case claimPropagated =>
    show LineFrame s (claimPropagatedTick s)
    unfold claimPropagatedTick
    split <;> constructor <;>
      first | rfl | simp [State.setPrevTerminated, State.nmax, State.goto]
  case claimProbed =>
    show LineFrame s (claimProbedTick s)
    unfold claimProbedTick
    split
    · constructor <;> rfl
    · split <;> constructor <;> rfl
  case claimAddressed =>
    show LineFrame s (claimAddressedTick s)
    unfold claimAddressedTick
    split <;> constructor <;> rfl
  case claimTerminated =>
    show LineFrame s (claimTerminatedTick s)
    unfold claimTerminatedTick
    split <;> constructor <;> first | rfl | simp [State.commitClaim, State.nmax, State.goto]
  case rollback e =>
    show LineFrame s (rollbackTick e s)
    unfold rollbackTick
    split <;> constructor <;> rfl
  case rolledBack e =>
    show LineFrame s (rolledBackTick e s)
    unfold rolledBackTick
    constructor <;> split <;> first | rfl | simp [State.setPrevTerminated, State.nmax, State.goto]
  all_goals constructor <;> rfl

/-! ## The step -/

/-- The state in which an accepted command word `c` is decoded. -/
def State.decoding (s : State) (c : Word) (q : List HostMove) (g : Option Nat) : State :=
  { s with hostQ := q, gap := g, cmdw := c, busy := true, seq := { s.seq with bus := [], line := .decode } }

/-- Where a command word may be decoded: no command is running, or one has just been accepted. -/
def State.decodes (s : State) : Prop := s.busy = false ∨ s.busy = true ∧ s.seq.bus = [] ∧ s.seq.line = .decode

/-- Everything a step that answers a next state can do. -/
inductive Stepped (s : State) : State → Prop
  /-- Nothing to do. -/
  | idle (hb : s.busy = false) : Stepped s s
  /-- A host read. -/
  | read (q : List HostMove) (g : Option Nat) (u : State) (v : Word) (n : Nat) (hu : u = s ∨ u = s.look) :
      Stepped s { u with hostQ := q, gap := g, hostRd := v, freeReads := n }
  /-- A host write that changes nothing. -/
  | written (q : List HostMove) (g : Option Nat) : Stepped s { s with hostQ := q, gap := g }
  /-- A write to CMD while busy. -/
  | dropped (q : List HostMove) (g : Option Nat) (hb : s.busy = true) : Stepped s { s with hostQ := q, gap := g, ovr := true }
  /-- A write to CMD, accepted and not yet decoded. -/
  | accepted (q : List HostMove) (g : Option Nat) (w : Word) (hb : s.busy = false) : Stepped s (s.decoding w q g)
  /-- A command word refused before it is an instruction: fatal or illegal. -/
  | turnedDown (q : List HostMove) (g : Option Nat) (w : Word) (e : Err) (hd : s.decodes) :
      Stepped s ((s.decoding w q g).refuse e)
  /-- A decoded instruction. -/
  | command (q : List HostMove) (g : Option Nat) (w : Word) (i : Instr) (t : State) (hd : s.decodes)
      (hf : s.fatal = false) (hw : decodeCommand w = some i) (hx : Executed i (s.decoding w q g) t) : Stepped s t
  /-- A wire request. -/
  | wire (i : Instr) (t : State) (hb : s.busy = false) (hx : Executed i { s with wireReq := [] } t) : Stepped s t
  /-- The engine goes on. -/
  | engine (hb : s.busy = true) (hl : s.seq.line ≠ .none ∨ s.seq.bus ≠ []) : Stepped s (engineRun s)

theorem stepped_runCommand {s t : State} {w : Word} {q : List HostMove} {g : Option Nat} (hd : s.decodes)
    (h : runCommand (s.decoding w q g) = .next t) : Stepped s t := by
  unfold runCommand at h
  split at h
  · cases h
    exact .turnedDown q g w _ hd
  · split at h
    · cases h
      exact .turnedDown q g w _ hd
    · rename_i hf _ i hi
      exact .command q g w i t hd (by simpa [State.decoding] using hf) hi (executed_of_exec h)

theorem hostRead_next {off width : Nat} {s t : State} (h : hostRead off width s = .next t) :
    ∃ (u : State) (v : Word) (n : Nat), (u = s ∨ u = s.look) ∧ t = { u with hostRd := v, freeReads := n } := by
  unfold hostRead at h
  split at h
  · cases h
  split at h
  · exact ⟨s, _, _, .inl rfl, (Host.Outcome.next.inj h).symm⟩
  dsimp only at h
  split at h
  · exact ⟨_, _, _, by split <;> simp, (Host.Outcome.next.inj h).symm⟩
  · cases h

theorem look_inputs (s : State) (q : List HostMove) (g : Option Nat) :
    { s with hostQ := q, gap := g }.look = { s.look with hostQ := q, gap := g } := by
  rcases s with ⟨⟩
  rename_i looks _ _ _ _ _ _ _
  cases looks <;> rfl

theorem stepped_host {s t : State} {m : HostMove} {q : List HostMove} (h : hostStep m q s = .next t) : Stepped s t := by
  unfold hostStep hostAccess at h
  split at h <;> split at h
  · obtain ⟨u, v, n, rfl | rfl, rfl⟩ := hostRead_next h
    · exact .read q m.gapAfter s v n (.inl rfl)
    · rw [look_inputs]
      exact .read q m.gapAfter s.look v n (.inr rfl)
  · cases h
  · unfold hostWrite at h
    split at h
    · split at h
      · unfold hostCommand at h
        split at h
        · cases h
          exact .dropped q _ ‹_›
        · rename_i hb
          have hb' : s.busy = false := by simpa using hb
          split at h
          · cases h
            exact .accepted q _ _ hb'
          · exact stepped_runCommand (g := m.gapAfter.map (· - 1)) (.inl hb') h
      · cases h
    · unfold hostWriteOther at h
      repeat' split at h
      all_goals first | (cases h; done) | skip
      cases h
      exact .written q _
  · cases h

theorem decoding_self {s : State} (hb : s.busy = true) (h0 : s.seq.bus = []) (h1 : s.seq.line = .decode) :
    s.pass = s.decoding s.cmdw s.hostQ (s.gap.map (· - 1)) := by
  rcases s with ⟨⟩
  simp only at hb h0 h1
  rename_i seq _ _ _ _ _ _ _ _ _ _ _ _ _
  rcases seq with ⟨⟩
  simp_all [State.pass, State.decoding]

theorem stepped_engine {s t : State} (hb : s.busy = true) (h : engineStep s = .next t) : Stepped s t := by
  unfold engineStep at h
  split at h
  · cases h
  · split at h
    · rename_i h1 h2
      simp only [Bool.and_eq_true, List.isEmpty_iff, beq_iff_eq] at h2
      rw [decoding_self hb h2.1 h2.2] at h
      exact stepped_runCommand (.inr ⟨hb, h2⟩) h
    · cases h
      refine .engine hb ?_
      rename_i h1 h2
      by_cases hl : s.seq.line = .none
      · right
        simpa [hl] using h1
      · exact .inl hl

theorem stepped_of_step {s t : State} (h : step s = .next t) : Stepped s t := by
  unfold step at h
  split at h
  · split at h
    · exact stepped_host h
    · exact stepped_engine ‹_› h
  · exact stepped_engine ‹_› h
  · rename_i hb
    split at h
    · unfold wireStep at h
      split at h
      · exact .wire _ t hb (executed_of_exec h)
      · cases h
    · split at h
      · exact stepped_host h
      · cases h
        exact .idle hb

end Sys2Proof.Machine
end

