-- ==== Sys2Proof/Laws/Keeps.lean ====
section
/-!
SUPPORT. What a micro-step keeps, one lemma per invariant of Safety.lean.
-/

namespace Sys2Proof.Machine

/-! ## Position -/

theorem position_pass {s : State} (h : PositionInv s) : PositionInv s.pass := ⟨h.busy, h.none, h.decode⟩

theorem position_busTick {op : BusOp} {rest : List BusOp} {s : State} (hb : s.seq.bus = op :: rest)
    (h : PositionInv s) : PositionInv (busTick op rest s) := by
  have f := busTick_frame op rest s
  have h0 : s.seq.line ≠ .none := fun e => by have := h.none e; simp [hb] at this
  have h1 : s.seq.line ≠ .decode := fun e => by have := h.decode e; simp [hb] at this
  constructor
  · rw [f.busy, f.line]
    exact h.busy
  · rw [f.line]
    exact fun e => absurd e h0
  · rw [f.line]
    exact fun e => absurd e h1

/-- A state at a line of a running command. -/
theorem position_goto {s : State} (bus : List BusOp) {line : Line} (hb : s.busy = true) (h0 : line ≠ .none)
    (h1 : line ≠ .decode) : PositionInv (s.goto bus line) :=
  ⟨iff_of_true hb h0, fun e => absurd e h0, fun e => absurd e h1⟩

theorem position_complete (s : State) (ok : Bool) (e : Err) (r : Byte) : PositionInv (s.complete ok e r) :=
  ⟨by simp [State.complete], fun _ => rfl, fun _ => rfl⟩

theorem position_refuse (s : State) (e : Err) : PositionInv (s.refuse e) :=
  ⟨by simp [State.refuse], fun _ => rfl, fun _ => rfl⟩

theorem position_lineTick {s : State} (h : PositionInv s) : PositionInv (lineTick s.seq.line s) := by
  by_cases h0 : s.seq.line = .none
  · simpa [h0, lineTick] using h
  have hy := h.busy.2 h0
  cases hl : s.seq.line <;> rw [hl] at h0
  case none => exact absurd rfl h0
  case decode => exact h
  all_goals
    simp only [lineTick, initCheckTick, initReleaseTick, initMarkTick, scanTick, scannedTick, tickreadDoneTick, tickreadKeepTick, devDoneTick,
      gcallDestroyTick, gcallEntryTick, gcallIdxTick,
      gcallNextTick, gcallLatchTick, claimTick, claimPropagatedTick, claimProbeTick, claimProbedTick, claimRetryTick,
      claimAddressedTick, claimTerminatedTick, rollbackTick, rolledBackTick, claimFailedTick, wireDoneTick]
  case wireDone => exact ⟨by simp [State.goto], fun _ => rfl, fun _ => rfl⟩
  all_goals
    repeat' split
  all_goals first
    | exact position_complete _ _ _ _
    | exact position_goto _ hy nofun nofun

theorem position_tick {s : State} (h : PositionInv s) : PositionInv (tick s) :=
  tick_keeps (P := PositionInv) (fun _ => position_pass) (fun _ _ _ => position_busTick) (fun _ _ => position_lineTick) s h

/-! ## The ack record -/

theorem record_of_eq {s t : State} (h : RecordInv s) (ha : t.ackvec = s.ackvec) (hn : t.nb = s.nb) : RecordInv t :=
  ⟨by rw [hn]; exact h.count, by rw [ha, hn]; exact h.above⟩

theorem record_recordAck {s : State} (h : RecordInv s) : RecordInv s.recordAck := by
  obtain ⟨hc, ha⟩ := h
  unfold State.recordAck
  by_cases hn : s.nb < 16
  · have hn' : s.nb.toNat < 16 := hn
    have e : (s.nb + 1).toNat = s.nb.toNat + 1 := by
      rw [BitVec.toNat_add]
      exact Nat.mod_eq_of_lt (by simp; omega)
    simp only [hn, if_true]
    refine ⟨by rw [e]; omega, fun k hk => ?_⟩
    rw [e] at hk
    have := ha k (by omega)
    unfold putBit
    split <;> simp [this, BitVec.getLsbD_twoPow] <;> omega
  · simp only [hn, if_false]
    exact ⟨hc, ha⟩

theorem record_busTick {op : BusOp} {rest : List BusOp} {s : State} (h : RecordInv s) :
    RecordInv (busTick op rest s) := by
  cases op
  case txAck b => exact record_of_eq (record_recordAck h) rfl rfl
  case rxAck => exact record_of_eq (record_recordAck h) rfl rfl
  case openRecord =>
    show RecordInv (openRecordTick rest s)
    unfold openRecordTick
    cases ho : s.owned
    · exact ⟨by simp [State.onward], by simp [State.onward]⟩
    · exact record_of_eq h rfl rfl
  case awaitScl =>
    exact record_of_eq h (by simp only [busTick, awaitSclTick]; split <;> simp [State.onward])
      (by simp only [busTick, awaitSclTick]; split <;> simp [State.onward])
  case awaitIdle =>
    exact record_of_eq h (by simp [busTick, awaitIdleTick, State.onward]) (by simp [busTick, awaitIdleTick, State.onward])
  case awaitIdleSda =>
    exact record_of_eq h (by simp only [busTick, awaitIdleSdaTick]; split <;> simp [State.onward])
      (by simp only [busTick, awaitIdleSdaTick]; split <;> simp [State.onward])
  case sample => exact record_of_eq h (by simp [busTick, sampleTick]) (by simp [busTick, sampleTick])
  all_goals exact record_of_eq h rfl rfl

theorem record_tick {s : State} (h : RecordInv s) : RecordInv (tick s) :=
  tick_keeps (fun _ h => record_of_eq h rfl rfl) (fun _ _ _ _ => record_busTick)
    (fun s _ h => record_of_eq h (lineTick_frame _ s).ackvec (lineTick_frame _ s).nb) s h

/-! ## The lines -/

/-- The end of a list of bus lines, from a state of the control register and `owned`. -/
def settleAll (bus : List BusOp) (p : Ctrl × Bool) : Ctrl × Bool := bus.foldl (fun p op => op.settle p) p

@[simp] theorem settleAll_nil (p : Ctrl × Bool) : settleAll [] p = p := rfl
@[simp] theorem settleAll_cons (op : BusOp) (rest : List BusOp) (p : Ctrl × Bool) :
    settleAll (op :: rest) p = settleAll rest (op.settle p) := rfl
@[simp] theorem settleAll_append (a b : List BusOp) (p : Ctrl × Bool) :
    settleAll (a ++ b) p = settleAll b (settleAll a p) := by simp [settleAll, List.foldl_append]

theorem settled_eq (s : State) : s.settled = settleAll s.seq.bus (s.ctrl, s.owned) := rfl

/-- A transmitted byte leaves the lines the same wherever it started. -/
theorem settleAll_xferEnd (okx : Bool) (p : Ctrl × Bool) : settleAll (xferEnd okx) p = (⟨false, true, true⟩, false) := rfl

theorem settleAll_xferAfterStart (acked : Bool) (addr : BusAddr) (wr : List Byte) (nread : Nat) (p : Ctrl × Bool) :
    settleAll (xferAfterStart acked addr wr nread) p = (⟨false, true, true⟩, false) := by
  unfold xferAfterStart
  split
  · rw [settleAll_append]
    split
    · rfl
    · exact settleAll_xferEnd _ _
  · exact settleAll_xferEnd _ _

theorem settleAll_xferAfterRestart (acked : Bool) (nread : Nat) (p : Ctrl × Bool) :
    settleAll (xferAfterRestart acked nread) p = (⟨false, true, true⟩, false) := by
  unfold xferAfterRestart
  split
  · rw [settleAll_append]
    exact settleAll_xferEnd _ _
  · exact settleAll_xferEnd _ _

/-- A micro-step inside a bus procedure does not change where the lines end. -/
theorem busTick_settled {op : BusOp} {rest : List BusOp} {s : State} (hb : s.seq.bus = op :: rest) :
    (busTick op rest s).settled = s.settled := by
  rw [settled_eq, settled_eq, hb, settleAll_cons]
  cases op
  case awaitScl => simp only [busTick, awaitSclTick]; split <;> simp [State.onward, hb, BusOp.settle]
  case awaitIdle => simp [busTick, awaitIdleTick, State.onward, BusOp.settle]
  case awaitIdleSda => simp only [busTick, awaitIdleSdaTick]; split <;> simp [State.onward, BusOp.settle]
  case sample => simp [busTick, sampleTick, BusOp.settle]
  case bitCell d v => cases d <;> cases v <;> rfl
  case xferStarted addr wr nread =>
    simp only [busTick, settleAll_append, settleAll_xferAfterStart]
    rfl
  case xferRestarted nread =>
    simp only [busTick, State.onward, settleAll_append, settleAll_xferAfterRestart]
    rfl
  case rxByte last => cases last <;> rfl
  all_goals rfl

theorem lines_of_eq {s t : State} (h : LinesInv s) (hs : t.settled = s.settled) (hi : t.initDone = s.initDone)
    (hl : t.seq.line = .initCheck ∨ t.seq.line = .initRelease → s.seq.line = .initCheck ∨ s.seq.line = .initRelease) :
    LinesInv t :=
  ⟨by rw [hs, hi]; exact h.held, by rw [hs]; exact h.released, fun e => by rw [hs]; exact h.init (hl e)⟩

/-- The lines at a command's line: nothing to run, or a procedure that releases the bus. -/
theorem lines_released {s : State} (hs : s.settled = (⟨false, true, true⟩, false)) : LinesInv s :=
  ⟨by simp [hs], by simp [hs], by simp [hs]⟩

theorem lines_lineTick {s : State} (hb : s.seq.bus = []) (h : LinesInv s) : LinesInv (lineTick s.seq.line s) := by
  have hs : s.settled = (s.ctrl, s.owned) := by rw [settled_eq, hb]; rfl
  cases hl : s.seq.line
  case none => exact h
  case decode => exact h
  case initCheck =>
    have ho := h.init (.inl hl)
    simp only [hs] at ho
    simp only [lineTick, initCheckTick]
    split
    · exact lines_of_eq h (by rw [hs]; rfl) rfl (by simp [State.goto])
    · refine lines_released ?_
      rw [show (s.goto [.releaseLines] .initRelease).settled = (⟨false, true, true⟩, s.owned) from rfl, ho]
  case initRelease =>
    have hc := h.released (h.init (.inr hl))
    refine lines_released ?_
    rw [hs] at hc
    rw [← hc]
    rfl
  case initMark =>
    have e : (lineTick .initMark s).settled = s.settled := by rw [hs]; rfl
    exact ⟨by rw [e]; exact fun ho => ⟨(h.held ho).1, rfl⟩, by rw [e]; exact h.released,
      by simp [lineTick, initMarkTick, State.goto]⟩
  all_goals
    simp only [lineTick, scanTick, scannedTick, tickreadDoneTick, tickreadKeepTick, devDoneTick,
      gcallDestroyTick, gcallEntryTick, gcallIdxTick,
      gcallNextTick, gcallLatchTick, claimTick, claimPropagatedTick, claimProbeTick, claimProbedTick, claimRetryTick,
      claimAddressedTick, claimTerminatedTick, rollbackTick, rolledBackTick, claimFailedTick, wireDoneTick]
    repeat' split
  all_goals first
    | exact lines_released rfl
    | exact lines_of_eq h (by rw [hs]; rfl) rfl (by simp [State.goto, State.complete])

theorem lines_tick {s : State} (h : LinesInv s) : LinesInv (tick s) :=
  tick_keeps (fun _ h => lines_of_eq h rfl rfl id)
    (fun op rest s hb h => lines_of_eq h (busTick_settled hb) (busTick_frame op rest s).initDone
      (by rw [(busTick_frame op rest s).line]; exact id))
    (fun _ hb h => lines_lineTick hb h) s h

end Sys2Proof.Machine
end

