-- ==== Sys2Proof/Laws/Bound.lean ====
section
/-!
SUPPORT. How long a command can run: a bound on the micro-steps that are left beside repeated reads of a low line. Every
micro-step that is taken lowers it, and every command starts below `maxTicks` (70_reset_and_hazards.md R297).
-/

namespace Sys2Proof.Machine

/-- A bound on the micro-steps of a line of a bus procedure, each wait read once. -/
def BusOp.cost : BusOp → Nat
  | .sdaOut _ => 2
  | .sdaRelease => 2
  | .sclLow => 2
  | .sclRaise => 3
  | .releaseLines => 2
  | .awaitIdle => 3
  | .awaitIdleSda _ => 3
  | .bitCell _ _ => 9
  | .txByte _ => 83
  | .rxByte _ => 91
  | .doStart _ _ => 98
  | .doStop => 11
  | .xfer _ wr nread => 213 + 83 * wr.length + 92 * nread
  | .xferStarted _ wr nread => 113 + 83 * wr.length + 92 * nread
  | .xferRestarted nread => 13 + 92 * nread
  | .delay _ => 1
  | .awaitScl => 1
  | .sample => 1
  | .txAck _ => 1
  | .rxBit _ => 1
  | .rxAck => 1
  | .openRecord => 1
  | .own => 1
  | .disown => 1
  | .touch _ => 1
  | .rxKeep => 1
  | .xferReturn _ => 1

def busCost : List BusOp → Nat
  | [] => 0
  | op :: rest => op.cost + busCost rest

@[simp] theorem busCost_nil : busCost [] = 0 := rfl
@[simp] theorem busCost_cons (op : BusOp) (rest : List BusOp) : busCost (op :: rest) = op.cost + busCost rest := rfl
@[simp] theorem busCost_append (a b : List BusOp) : busCost (a ++ b) = busCost a + busCost b := by
  induction a with
  | nil => simp
  | cons op a ih => simp [ih, Nat.add_assoc]

theorem busCost_pos {bus : List BusOp} {op : BusOp} {rest : List BusOp} (h : bus = op :: rest) : 1 ≤ busCost bus := by
  subst h
  cases op <;> simp [BusOp.cost] <;> omega

/-- A bound on the loop of a bus scan from candidate `c`. -/
def scanCost (c : BitVec 9) : Nat := 2 + (256 - c.toNat) * 112

def probedCost (r : Byte) : Nat := if r.toNat < 1 then 1196 else 979

/-- A bound on the micro-steps from a line of a command on, `r` being `retry_w` and `n` being NMAX. -/
def Line.cost (r : Byte) (n : Nat) : Line → Nat
  | .none => 0
  | .decode => 0
  | .finish _ _ _ => 1
  | .initCheck => 6
  | .initRelease => 3
  | .initMark => 2
  | .startDone => 1
  | .writeDone => 1
  | .readDone => 1
  | .scan c _ _ _ => scanCost c
  | .scanned c _ _ => 1 + scanCost (c + 1)
  | .tickreadDone => 8
  | .tickreadKeep k => 7 - k.val
  | .devDone => 1
  | .gcallDestroy => 7 + n
  | .gcallEntry i => 6 + (n - i)
  | .gcallIdx => 5
  | .gcallNext => 4
  | .gcallLatch => 3
  | .claim _ => 1874
  | .claimPropagated => 1412
  | .claimProbe => 214 + probedCost r
  | .claimProbed => probedCost r
  | .claimRetry => 215 + probedCost (r + 1)
  | .claimAddressed => 599
  | .claimTerminated => 301
  | .rollback _ => 300
  | .rolledBack _ => 3
  | .claimFailed _ => 2
  | .wireDone => 1

/-- What is already paid of an iteration of the idle wait that is its last, the environment having no more moves. -/
def idleCredit (s : State) : Nat :=
  match s.looks, s.seq.bus with
  | [], .awaitIdle :: _ => 1
  | [], .awaitIdleSda true :: _ => 2
  | _, _ => 0

theorem idleCredit_le (s : State) : idleCredit s ≤ busCost s.seq.bus := by
  unfold idleCredit
  split
  · exact busCost_pos ‹_›
  · rename_i h
    rw [h, busCost_cons]
    exact Nat.le_trans (by decide) (Nat.le_add_right _ _)
  · exact Nat.zero_le _

/-- A bound on the micro-steps that are left. -/
def bound (s : State) : Nat :=
  s.looks.length + busCost s.seq.bus + s.seq.line.cost s.retryW s.nmax - idleCredit s

/-! ## The lines of a bus procedure -/

theorem look_length (s : State) : s.look.looks.length ≤ s.looks.length := by
  unfold State.look
  split
  · exact Nat.le_refl _
  · rename_i h
    simp [h]

theorem readPhase_cost (n : Nat) : busCost (readPhase n) = 92 * n := by
  have h : ∀ (l : List Nat), busCost (l.flatMap fun k => [.rxByte (k + 1 == n), .rxKeep]) = 92 * l.length := by
    intro l
    induction l with
    | nil => rfl
    | cons k l ih =>
      simp only [List.flatMap_cons, List.cons_append, List.nil_append, busCost_cons, BusOp.cost, ih, List.length_cons]
      omega
  rw [readPhase, h, List.length_range]

theorem map_txByte_cost (wr : List Byte) : busCost (wr.map .txByte) = 83 * wr.length := by
  induction wr with
  | nil => rfl
  | cons b wr ih =>
    simp only [List.map_cons, busCost_cons, BusOp.cost, ih, List.length_cons]
    omega

/-- A line of a bus procedure that is no wait lowers the bound of what is left of the procedure. -/
theorem busTick_cost {op : BusOp} {rest : List BusOp} {s : State}
    (hw : op ≠ .awaitScl ∧ op ≠ .awaitIdle ∧ (∀ b, op ≠ .awaitIdleSda b)) :
    busCost (busTick op rest s).seq.bus < busCost (op :: rest) ∧ (busTick op rest s).looks.length ≤ s.looks.length := by
  cases op
  case awaitScl => exact absurd rfl hw.1
  case awaitIdle => exact absurd rfl hw.2.1
  case awaitIdleSda b => exact absurd rfl (hw.2.2 b)
  case sample => exact ⟨by simp [busTick, sampleTick, BusOp.cost], look_length s⟩
  case xferStarted addr wr nread =>
    refine ⟨?_, Nat.le_refl _⟩
    simp only [busTick, busCost_append, busCost_cons, BusOp.cost, xferAfterStart]
    split
    · rw [busCost_append, map_txByte_cost]
      split <;> simp [BusOp.cost, xferEnd] <;> omega
    · simp [BusOp.cost, xferEnd]
      omega
  case xferRestarted nread =>
    refine ⟨?_, Nat.le_refl _⟩
    simp only [busTick, State.onward, busCost_append, busCost_cons, BusOp.cost, xferAfterRestart]
    split
    · rw [busCost_append, readPhase_cost]
      simp [BusOp.cost, xferEnd]
      omega
    · simp [BusOp.cost, xferEnd]
      omega
  case bitCell d v =>
    refine ⟨?_, Nat.le_refl _⟩
    cases d <;>
      simp [busTick, State.onward, bitCellBody, setupDelay, Config.tSettle, Config.tSetupMin, BusOp.cost] <;> omega
  all_goals
    refine ⟨?_, Nat.le_refl _⟩
    simp [busTick, State.onward, State.writeCtrl, txByteBody, txBits, rxByteBody, rxBits, doStartBody, doStopBody,
      xferBody, txAckTick, rxAckTick, openRecordTick, ownTick, disownTick, BusOp.cost] <;> omega

/-! ## The lines of a command -/

/-- A command's line lowers the bound. -/
theorem lineTick_cost {s : State} (h0 : s.seq.line ≠ .none) (h1 : s.seq.line ≠ .decode) :
    busCost (lineTick s.seq.line s).seq.bus + (lineTick s.seq.line s).seq.line.cost (lineTick s.seq.line s).retryW s.nmax <
      s.seq.line.cost s.retryW s.nmax := by
  have hp : ∀ r, probedCost r ≤ 1196 := fun r => by unfold probedCost; split <;> omega
  cases hl : s.seq.line
  case none => exact absurd hl h0
  case decode => exact absurd hl h1
  case scan c max count first =>
    simp only [lineTick, scanTick]
    split
    · simp [State.goto, Line.cost, scanCost]
      omega
    · rename_i hc
      have hc' : c.toNat ≤ max.toNat := by
        have := BitVec.not_lt.1 hc
        rw [BitVec.le_def] at this
        simp at this
        omega
      have hm : max.toNat < 256 := max.isLt
      have e : (c + 1).toNat = c.toNat + 1 := by
        rw [BitVec.toNat_add]
        exact Nat.mod_eq_of_lt (by simp; omega)
      split
      · simp only [State.goto, busCost_nil, Line.cost, scanCost, e]
        omega
      · cases first <;> simp [State.goto, Line.cost, scanCost, BusOp.cost] <;> omega
  case claim a =>
    simp only [lineTick, claimTick]
    repeat' split
    all_goals
      simp [State.goto, Line.cost, BusOp.cost, wireReset, wireGcreset, wirePropagate, Config.gcrMagic, probedCost]
  case claimProbed =>
    simp only [lineTick, claimProbedTick]
    split
    · simp [State.goto, Line.cost, BusOp.cost, wireSetaddr, probedCost]
      split <;> omega
    split
    · rename_i hr
      have hr' : s.retryW.toNat < 1 := hr
      have : s.retryW = 0 := by
        apply BitVec.eq_of_toNat_eq
        simpa using hr'
      simp [State.goto, Line.cost, BusOp.cost, probedCost, this]
    · simp [State.goto, Line.cost, probedCost]
      split <;> omega
  case claimPropagated =>
    simp only [lineTick, claimPropagatedTick]
    have := hp s.retryW
    split <;> simp [State.goto, Line.cost, BusOp.cost, State.setPrevTerminated] <;> omega
  case tickreadKeep k =>
    have := k.isLt
    simp only [lineTick, tickreadKeepTick]
    split <;> simp [State.goto, Line.cost] <;> omega
  case gcallEntry i =>
    simp only [lineTick, gcallEntryTick]
    split <;> simp [State.goto, Line.cost] <;> omega
  case claimProbe => simp [lineTick, claimProbeTick, State.goto, Line.cost, BusOp.cost, wireProbe]
  case claimRetry => simp [lineTick, claimRetryTick, State.goto, Line.cost]
  all_goals
    simp only [lineTick, initCheckTick, initReleaseTick, initMarkTick, scannedTick, tickreadDoneTick, devDoneTick,
      gcallDestroyTick, gcallIdxTick, gcallNextTick, gcallLatchTick, claimAddressedTick, claimTerminatedTick,
      rollbackTick, rolledBackTick, claimFailedTick, wireDoneTick]
    repeat' split
  all_goals
    simp [State.goto, State.complete, Line.cost, BusOp.cost, wireTerminate, wireReset]

/-! ## Every micro-step that is taken -/

theorem tick_lowers_bound {s : State} (hg : s.gap = none) (hp : s.paused = false) : bound (tick s) < bound s := by
  have hpass : ∀ u : State, bound u.pass = bound u := fun _ => rfl
  have hle := idleCredit_le s
  unfold tick
  rw [hpass]
  simp only [State.paused, hostDue_of_polite hg, hostPending_of_polite hg, Bool.not_false, Bool.and_true,
    Bool.or_false, Bool.or_eq_false_iff] at hp
  split
  · rename_i op rest hb
    have f := busTick_frame op rest s
    have hline : (busTick op rest s).seq.line.cost (busTick op rest s).retryW (busTick op rest s).nmax =
        s.seq.line.cost s.retryW s.nmax := by
      rw [f.line, f.retryW, show (busTick op rest s).nmax = s.nmax from f.table.1]
    by_cases hw : op ≠ .awaitScl ∧ op ≠ .awaitIdle ∧ (∀ b, op ≠ .awaitIdleSda b)
    · obtain ⟨hc, hll⟩ := busTick_cost (rest := rest) (s := s) hw
      have hi : idleCredit s = 0 := by
        unfold idleCredit
        split
        · rename_i h1 h2
          rw [hb] at h2
          cases h2
          exact absurd rfl hw.2.1
        · rename_i h1 h2
          rw [hb] at h2
          cases h2
          exact absurd rfl (hw.2.2 _)
        · rfl
      unfold bound
      rw [hline, hi, hb]
      omega
    · have hung := hp.2
      unfold bound
      rw [hline, hb]
      cases hlk : s.looks with
      | nil =>
        simp only [State.hung, hlk, hb, List.isEmpty_nil, Bool.true_and] at hung
        have hlook := State.look_nil s hlk
        cases op <;> simp at hw hung
        · simp [busTick, awaitSclTick, hlook, hung, hlk, idleCredit, hb, BusOp.cost] <;> omega
        · simp [busTick, awaitIdleTick, hlook, hung, hlk, idleCredit, hb, BusOp.cost] <;> omega
        · rename_i scl
          cases scl <;> simp [busTick, awaitIdleSdaTick, hlook, hung, hlk, idleCredit, hb, BusOp.cost] <;> omega
      | cons d ds =>
        have hlook := State.look_cons s hlk
        have hz : idleCredit s = 0 := by simp [idleCredit, hlk]
        rw [hz]
        cases op <;> simp at hw
        · simp only [busTick, awaitSclTick]
          split <;> simp [hlook, hb, BusOp.cost] <;> omega
        · simp [busTick, awaitIdleTick, hlook, BusOp.cost]
          omega
        · simp only [busTick, awaitIdleSdaTick]
          split <;> simp [hlook, BusOp.cost] <;> omega
  · rename_i hb
    have h0 : s.seq.line ≠ .none := fun e => by simp [State.atRest, hb, e] at hp
    have h1 : s.seq.line ≠ .decode := fun e => by simp [State.atRest, hb, e] at hp
    have hc := lineTick_cost h0 h1
    have hi : idleCredit s = 0 := by simp [idleCredit, hb]
    unfold bound
    rw [(lineTick_frame s.seq.line s).looks, (lineTick_frame s.seq.line s).nmax, hi, hb]
    simp only [busCost_nil]
    omega

/-- With enough fuel the engine stops by itself. -/
theorem engine_paused {k : Nat} {s : State} (hg : s.gap = none) (h : bound s ≤ k) : (engine k s).paused = true := by
  induction k generalizing s with
  | zero =>
    show s.paused = true
    cases hp : s.paused
    · have := tick_lowers_bound hg hp
      omega
    · rfl
  | succ k ih =>
    rw [engine]
    split
    · assumption
    · rename_i hp
      have hp' : s.paused = false := by simpa using hp
      have hg' : (tick s).gap = none := by
        unfold tick State.pass
        split
        · simp [(busTick_frame _ _ s).gap, hg]
        · simp [(lineTick_frame _ s).gap, hg]
      exact ih hg' (by have := tick_lowers_bound hg hp'; omega)

/-- Every command starts below `maxTicks`. -/
theorem launched_bound (i : Instr) (s : State) : bound (s.launched i) ≤ s.looks.length + (s.nmax + maxTicks) := by
  have key : busCost (launchOf i).1 + (launchOf i).2.cost s.retryW s.nmax ≤ s.nmax + maxTicks := by
    cases i <;>
      simp [launchOf, BusOp.cost, Line.cost, maxTicks, scanCost, wireTickread, wireReset, wireGcreset, wireColor,
        wireProbe, wirePropagate, wireTerminate, wireSetaddr, Config.gcrMagic, Config.tickreadLen] <;>
      omega
  show s.looks.length + busCost (launchOf i).1 + (launchOf i).2.cost s.retryW s.nmax - _ ≤ _
  omega

end Sys2Proof.Machine
end

