-- ==== Sys2Proof/Laws/Chain.lean ====
section
/-!
SUPPORT. Every micro-step keeps the chain's invariant (10_state.md R35, R36, R38, R39).
-/

namespace Sys2Proof.Machine

/-! ## The table under its updates -/

theorem table_same {s t : State} (h : TableInv s) (hi : t.idx = s.idx) (hn : t.nextAddr = s.nextAddr)
    (hs : SameTable s.idx.toNat s.entry t.entry) : TableInv t where
  room := by unfold State.nmax; rw [hs.1]; exact h.room
  idx := by unfold State.nmax; rw [hi, hs.1]; exact h.idx
  next := by rw [hn, hi]; exact h.next
  listed i e' he' hlt := by
    obtain ⟨e, he, hee, -⟩ := hs.2 i e' he'
    have := h.listed i e he (hi ▸ hlt)
    rw [hee]
    exact this
  free i e' he' hle := by
    obtain ⟨e, he, -, hee⟩ := hs.2 i e' he'
    rw [hee (hi ▸ hle)]
    exact h.free i e he (hi ▸ hle)
  newest i e' he' ht := by
    obtain ⟨e, he, hee, -⟩ := hs.2 i e' he'
    rw [hi]
    exact h.newest i e he (by rw [hee] at ht; exact ht)

theorem table_of_eq {s t : State} (h : TableInv s) (he : t.entry = s.entry) (hi : t.idx = s.idx)
    (hn : t.nextAddr = s.nextAddr) : TableInv t := table_same h hi hn (he ▸ SameTable.refl _ _)

theorem noneTerminated_same {s t : State} (h : s.noneTerminated) (hs : SameTable s.idx.toNat s.entry t.entry) :
    t.noneTerminated := by
  intro i e' he'
  obtain ⟨e, he, hee, -⟩ := hs.2 i e' he'
  rw [hee]
  exact h i e he

/-- An entry of the table after the previous device's flag has been set. -/
theorem setPrev_get {s : State} {t : Bool} {i : Nat} {e' : Entry} (h : (s.setPrevTerminated t).entry[i]? = some e') :
    ∃ e, s.entry[i]? = some e ∧ e' = if i = s.idx.toNat - 1 then { e with terminated := t } else e := by
  simp only [State.setPrevTerminated, List.getElem?_modify] at h
  cases he : s.entry[i]? with
  | none => simp [he] at h
  | some e =>
    refine ⟨e, rfl, ?_⟩
    rw [he] at h
    rw [← Option.some.inj h]
    by_cases hi : i = s.idx.toNat - 1
    · simp [hi]
    · rw [if_neg hi]
      exact if_neg fun e => hi e.symm

theorem table_setPrev {s : State} (t : Bool) (h : TableInv s) (h0 : s.idx ≠ 0) : TableInv (s.setPrevTerminated t) := by
  have hpos : 0 < s.idx.toNat := by
    have : s.idx.toNat ≠ 0 := fun e => h0 (BitVec.eq_of_toNat_eq e)
    omega
  refine ⟨?_, ?_, h.next, ?_, ?_, ?_⟩
  · simpa [State.setPrevTerminated, State.nmax] using h.room
  · simpa [State.setPrevTerminated, State.nmax] using h.idx
  · intro i e' he' hlt
    obtain ⟨e, he, rfl⟩ := setPrev_get he'
    have := h.listed i e he hlt
    split <;> exact this
  · intro i e' he' hle
    obtain ⟨e, he, rfl⟩ := setPrev_get he'
    have hle' : s.idx.toNat ≤ i := hle
    rw [if_neg (by omega)]
    exact h.free i e he hle
  · intro i e' he' ht
    obtain ⟨e, he, rfl⟩ := setPrev_get he'
    show i + 1 = s.idx.toNat
    split at ht
    · omega
    · exact h.newest i e he ht

theorem noneTerminated_setPrev {s : State} (h : TableInv s) : (s.setPrevTerminated false).noneTerminated := by
  intro i e' he'
  obtain ⟨e, he, rfl⟩ := setPrev_get he'
  split
  · rfl
  · rename_i hi
    cases ht : e.terminated
    · rfl
    · have := h.newest i e he ht
      omega

theorem noneTerminated_empty {s : State} (h : TableInv s) (h0 : s.idx = 0) : s.noneTerminated := by
  intro i e he
  cases ht : e.terminated
  · rfl
  · have := h.newest i e he ht
    rw [h0] at this
    simp at this

/-- The commit (44_chain_enumeration.md R207) of the next address. -/
theorem table_commit {s : State} (h : TableInv s) (hc : Claiming s) (hn : s.noneTerminated)
    (hr : s.retryW.toNat ≤ Config.probeRetries) : TableInv s.commitClaim := by
  have hroom := h.room
  have hlt := hc.room
  have e1 : (s.idx + 1).toNat = s.idx.toNat + 1 := by
    rw [BitVec.toNat_add]
    exact Nat.mod_eq_of_lt (by simp; omega)
  have get : ∀ (i : Nat) (e' : Entry), s.commitClaim.entry[i]? = some e' →
      i = s.idx.toNat ∧ e' = ⟨s.seq.newAddr, true, true, true, s.retryW⟩ ∨ i ≠ s.idx.toNat ∧ s.entry[i]? = some e' := by
    intro i e' he'
    simp only [State.commitClaim, List.getElem?_set] at he'
    by_cases hi : s.idx.toNat = i
    · rw [if_pos hi] at he'
      split at he'
      · exact .inl ⟨hi.symm, (Option.some.inj he').symm⟩
      · cases he'
    · rw [if_neg hi] at he'
      exact .inr ⟨fun e => hi e.symm, he'⟩
  refine ⟨?_, ?_, ?_, ?_, ?_, ?_⟩
  · simpa [State.commitClaim, State.nmax] using h.room
  · show (s.idx + 1).toNat ≤ (s.entry.set _ _).length
    rw [e1, List.length_set]
    exact hlt
  · show s.nextAddr + Config.chainStep = Config.chainBase + Config.chainStep * (s.idx + 1)
    rw [h.next]
    simp only [Config.chainStep, Config.chainBase]
    bv_omega
  · intro i e' he' hi
    change i < (s.idx + 1).toNat at hi
    rcases get i e' he' with ⟨rfl, rfl⟩ | ⟨hne, he⟩
    · refine ⟨rfl, ?_, hr⟩
      show s.seq.newAddr = _
      rw [hc.new, h.next]
      simp
    · exact h.listed i e' he (by omega)
  · intro i e' he' hi
    change (s.idx + 1).toNat ≤ i at hi
    rcases get i e' he' with ⟨rfl, rfl⟩ | ⟨hne, he⟩
    · omega
    · exact h.free i e' he (by omega)
  · intro i e' he' ht
    show i + 1 = (s.idx + 1).toNat
    rcases get i e' he' with ⟨rfl, rfl⟩ | ⟨hne, he⟩
    · exact e1.symm
    · rw [hn i e' he] at ht
      cases ht

/-! ## The table while it is destroyed -/

theorem destroying_of_eq {s t : State} {i : Nat} (h : Destroying s i) (he : t.entry = s.entry) (hi : t.idx = s.idx) :
    Destroying t i :=
  ⟨by unfold State.nmax; rw [he]; exact h.room, by unfold State.nmax; rw [he, hi]; exact h.idx, by rw [he]; exact h.cleared⟩

theorem destroying_start {s : State} (h : TableInv s) : Destroying s 0 := ⟨h.room, h.idx, fun _ _ _ hk => by omega⟩

/-- One more entry is cleared (44_chain_enumeration.md R212). -/
theorem destroying_clear {s : State} {i : Nat} (h : Destroying s i) : Destroying (s.clearEntry i) (i + 1) where
  room := by simpa [State.clearEntry, State.nmax] using h.room
  idx := by simpa [State.clearEntry, State.nmax] using h.idx
  cleared k e he hk := by
    simp only [State.clearEntry, List.getElem?_set] at he
    split at he
    · split at he
      · exact (Option.some.inj he).symm
      · cases he
    · exact h.cleared k e he (by omega)

/-- The loop has ended. -/
theorem destroying_all {s : State} {i : Nat} (h : Destroying s i) (hi : ¬ i < s.nmax) : Destroying s s.nmax :=
  ⟨h.room, h.idx, fun k e he hk => h.cleared k e he (by omega)⟩

/-- The destroyed table is an empty one. -/
theorem table_destroyed {s : State} (h : Destroying s s.nmax) (h0 : s.idx = 0) (hn : s.nextAddr = Config.chainBase) :
    TableInv s := by
  have zero : ∀ (k : Nat) (e : Entry), s.entry[k]? = some e → e = Entry.zero := fun k e he =>
    h.cleared k e he (List.getElem?_eq_some_iff.1 he).1
  refine ⟨h.room, h.idx, by rw [hn, h0]; simp, ?_, fun k e he _ => zero k e he, ?_⟩
  · intro k e he hk
    rw [h0] at hk
    exact absurd hk (by simp)
  · intro k e he ht
    rw [zero k e he] at ht
    cases ht

theorem tableAt_of_eq {s t : State} (h : TableAt s) (hq : t.seq = s.seq) (he : t.entry = s.entry) (hi : t.idx = s.idx)
    (hn : t.nextAddr = s.nextAddr) : TableAt t := by
  have hm : t.nmax = s.nmax := by unfold State.nmax; rw [he]
  unfold TableAt at h ⊢
  rw [hq]
  cases hl : s.seq.line <;> simp only [hl] at h ⊢
  case gcallEntry i => exact ⟨h.1, destroying_of_eq h.2 he hi⟩
  case gcallIdx => exact ⟨h.1, hm ▸ destroying_of_eq h.2 he hi⟩
  case gcallNext => exact ⟨h.1, hm ▸ destroying_of_eq h.2.1 he hi, hi.trans h.2.2⟩
  all_goals exact table_of_eq h he hi hn

/-- Outside the loop of GCALL_RESET the table is whole. -/
theorem table_of_at {s : State} (h : TableAt s) (hl : s.seq.line.ofGcall = false) : TableInv s := by
  unfold TableAt at h
  cases hl' : s.seq.line <;> rw [hl'] at h hl <;> first | exact h | cases hl

theorem tableAt_of_table {s : State} (h : TableInv s) (hl : s.seq.line.ofGcall = false) : TableAt s := by
  unfold TableAt
  cases hl' : s.seq.line <;> rw [hl'] at hl <;> first | exact h | cases hl

/-! ## The claim -/

theorem claimInv_same {s t : State} (h : ClaimInv s) (hl : t.seq.line = s.seq.line)
    (hw : t.seq.newAddr = s.seq.newAddr) (hi : t.idx = s.idx) (hn : t.nextAddr = s.nextAddr) (hr : t.retryW = s.retryW)
    (hs : SameTable s.idx.toNat s.entry t.entry) : ClaimInv t := by
  have hc : Claiming s → Claiming t := fun h =>
    ⟨by unfold State.nmax; rw [hi, hs.1]; exact h.room, by rw [hw, hn]; exact h.new⟩
  unfold ClaimInv at h ⊢
  rw [hl]
  cases hl' : s.seq.line <;> simp only [hl'] at h ⊢
  case claimPropagated => exact ⟨hc h.1, by rw [hi]; exact h.2.1, by rw [hr]; exact h.2.2⟩
  case rolledBack e => rw [hi]; exact h
  all_goals exact ⟨hc h.1, noneTerminated_same h.2.1 hs, by rw [hr]; exact h.2.2⟩

theorem chain_busTick {op : BusOp} {rest : List BusOp} {s : State} (hb : s.seq.bus = op :: rest) (h : ChainInv s) :
    ChainInv (busTick op rest s) := by
  have f := busTick_frame op rest s
  refine ⟨?_, claimInv_same h.claim f.line f.newAddr f.idx f.nextAddr f.retryW f.table⟩
  have ht := h.table
  unfold TableAt at ht ⊢
  rw [f.line]
  cases hl : s.seq.line <;> simp only [hl, hb, reduceCtorEq, false_and] at ht ⊢
  all_goals exact table_same ht f.idx f.nextAddr f.table

theorem chain_lineTick {s : State} (h : ChainInv s) : ChainInv (lineTick s.seq.line s) := by
  have hs := h
  obtain ⟨ht, hc⟩ := h
  cases hl : s.seq.line <;> simp only [ClaimInv, hl] at hc <;> simp only [TableAt, hl] at ht
  case none => exact hs
  case decode => exact hs
  case claim a =>
    simp only [lineTick, claimTick]
    split
    · exact ⟨table_of_eq ht rfl rfl rfl, trivial⟩
    split
    · exact ⟨table_of_eq ht rfl rfl rfl, trivial⟩
    split
    · exact ⟨table_of_eq ht rfl rfl rfl, trivial⟩
    rename_i _ _ hroom
    have hk : s.idx.toNat < s.nmax := by omega
    split
    · rename_i h0
      exact ⟨table_of_eq ht rfl rfl rfl, ⟨hk, rfl⟩, noneTerminated_empty (s := s) ht h0, Nat.zero_le _⟩
    · split
      · rename_i h0 _
        exact ⟨table_of_eq ht rfl rfl rfl, ⟨hk, rfl⟩, h0, rfl⟩
      · exact ⟨table_of_eq ht rfl rfl rfl, trivial⟩
  case claimPropagated =>
    simp only [lineTick, claimPropagatedTick]
    split
    · refine ⟨table_of_eq (table_setPrev false ht hc.2.1) rfl rfl rfl, ⟨?_, hc.1.new⟩, noneTerminated_setPrev ht, ?_⟩
      · simpa [State.setPrevTerminated, State.nmax, State.goto] using hc.1.room
      · show s.retryW.toNat ≤ _
        rw [hc.2.2]
        decide
    · exact ⟨table_of_eq ht rfl rfl rfl, trivial⟩
  case claimProbe => exact ⟨table_of_eq ht rfl rfl rfl, ⟨hc.1.room, hc.1.new⟩, hc.2⟩
  case claimProbed =>
    simp only [lineTick, claimProbedTick]
    split
    · exact ⟨table_of_eq ht rfl rfl rfl, ⟨hc.1.room, hc.1.new⟩, hc.2⟩
    · split
      · exact ⟨table_of_eq ht rfl rfl rfl, ⟨hc.1.room, hc.1.new⟩, hc.2.1, ‹_›⟩
      · exact ⟨table_of_eq ht rfl rfl rfl, trivial⟩
  case claimRetry =>
    refine ⟨table_of_eq ht rfl rfl rfl, ⟨hc.1.room, hc.1.new⟩, hc.2.1, ?_⟩
    show (s.retryW + 1).toNat ≤ Config.probeRetries
    have := hc.2.2
    rw [BitVec.toNat_add]
    simp only [Config.probeRetries] at *
    have : s.retryW.toNat = 0 := by omega
    rw [this]
    decide
  case claimAddressed =>
    simp only [lineTick, claimAddressedTick]
    split
    · exact ⟨table_of_eq ht rfl rfl rfl, ⟨hc.1.room, hc.1.new⟩, hc.2⟩
    · exact ⟨table_of_eq ht rfl rfl rfl, trivial⟩
  case claimTerminated =>
    simp only [lineTick, claimTerminatedTick]
    split
    · exact ⟨table_of_eq (table_commit ht hc.1 hc.2.1 hc.2.2) rfl rfl rfl, trivial⟩
    · exact ⟨table_of_eq ht rfl rfl rfl, trivial⟩
  case rollback e =>
    simp only [lineTick, rollbackTick]
    split
    · exact ⟨table_of_eq ht rfl rfl rfl, trivial⟩
    · exact ⟨table_of_eq ht rfl rfl rfl, ‹_›⟩
  case rolledBack e =>
    simp only [lineTick, rolledBackTick]
    split
    · exact ⟨table_of_eq (table_setPrev true ht hc) rfl rfl rfl, trivial⟩
    · exact ⟨table_of_eq ht rfl rfl rfl, trivial⟩
  case gcallDestroy => exact ⟨⟨rfl, destroying_of_eq (destroying_start ht) rfl rfl⟩, trivial⟩
  case gcallEntry i =>
    simp only [lineTick, gcallEntryTick]
    split
    · exact ⟨⟨rfl, destroying_of_eq (destroying_clear ht.2) rfl rfl⟩, trivial⟩
    · have hd := destroying_all ht.2 ‹_›
      exact ⟨⟨rfl, hd.room, hd.idx, hd.cleared⟩, trivial⟩
  case gcallIdx => exact ⟨⟨rfl, ⟨ht.2.room, Nat.zero_le _, ht.2.cleared⟩, rfl⟩, trivial⟩
  case gcallNext =>
    have hd : Destroying (gcallNextTick s) s.nmax := ⟨ht.2.1.room, ht.2.1.idx, ht.2.1.cleared⟩
    exact ⟨table_destroyed hd ht.2.2 rfl, trivial⟩
  all_goals
    simp only [lineTick, initCheckTick, initReleaseTick, initMarkTick, scanTick, scannedTick, tickreadDoneTick,
      tickreadKeepTick, devDoneTick, gcallLatchTick, claimFailedTick, wireDoneTick]
    repeat' split
  all_goals exact ⟨table_of_eq ht rfl rfl rfl, trivial⟩

theorem chain_pass {s : State} (h : ChainInv s) : ChainInv s.pass :=
  ⟨tableAt_of_eq h.table rfl rfl rfl rfl, claimInv_same h.claim rfl rfl rfl rfl rfl (SameTable.refl _ _)⟩

theorem chain_tick {s : State} (h : ChainInv s) : ChainInv (tick s) :=
  tick_keeps (P := ChainInv) (fun _ => chain_pass) (fun _ _ _ hb => chain_busTick hb) (fun _ _ => chain_lineTick) s h

end Sys2Proof.Machine
end

