-- ==== Sys2Proof/Laws/Claim.lean ====
section
/-!
SUPPORT. The parts of CLAIM (44_chain_enumeration.md R201), one lemma each: hand-off, probes, address change, terminate,
commit, rollback.
-/

namespace Sys2Proof.Machine

/-- `s` with the claim's sequencer at a line, assigning the address `n`. -/
def State.running (s : State) (q : Seq) (l : Line) (n : BusAddr) : State :=
  { s with busy := true, seq := { q with line := l, newAddr := n } }

theorem run_xfer (s : State) (q : Seq) (l : Line) (n addr : BusAddr) (bytes : List Byte) (w : Write) (more : List Drive)
    (rest : List BusOp) (hg : s.gap = none) (ho : s.owned = false) (hf : w.fits bytes.length)
    (hl : s.looks = w.looks ++ more) (hb : bytes.length ≤ 3) :
    ∃ q' : Seq, q'.okx = w.start.acked ∧
      Reach 285 ((s.running q l n).onward (.xfer addr bytes 0 :: rest))
        (((s.afterWrite addr bytes w more).running q' l n).onward rest) := by
  obtain ⟨q', ⟨h1, h2⟩, hk, h⟩ := reach_write_xfer (s.running q l n) addr bytes w more rest hg ho hf hl
  refine ⟨q', hk, (h.mono (by omega)).cast ?_⟩
  cases q'
  simp only [State.running] at h1 h2
  subst h1 h2
  rfl

theorem run_line {s t : State} {q : Seq} {l : Line} {n : BusAddr} (hg : s.gap = none) (h0 : l ≠ .none)
    (h1 : l ≠ .decode) (ht : lineTick l ((s.running q l n).onward []) = t) (hl : t.looks = s.looks) (hgt : t.gap = none) :
    Reach 1 ((s.running q l n).onward []) t :=
  reach_line rfl hg h0 h1 ht hl hgt

theorem run_delay (s : State) (q : Seq) (l : Line) (n : BusAddr) (d : Delay) (rest : List BusOp) (hg : s.gap = none) :
    Reach 1 ((s.running q l n).onward (.delay d :: rest)) ((s.running q l n).onward rest) :=
  (reach_delay (s.running q l n) d rest hg).reach

/-! ## Gates -/

theorem holds_of_asks {s : State} {a : Byte} (h : asksForNew s a) : s.holds a = false := by
  cases hh : s.holds a with
  | false => rfl
  | true =>
    exfalso
    simp only [State.holds, Bool.and_eq_true, decide_eq_true_eq, List.any_eq_true, beq_iff_eq] at hh
    obtain ⟨ha, e, he, hr, hx⟩ := hh
    rcases h with h | h
    · rw [BitVec.lt_def] at h
      rw [BitVec.le_def] at ha
      omega
    · obtain ⟨i, hi, rfl⟩ := List.mem_iff_getElem.1 he
      rw [List.getElem_take] at hr hx
      simp only [List.length_take] at hi
      exact h i _ (by omega) (List.getElem?_eq_getElem (by omega)) hr (hx.trans (addr7_eq a))

theorem holds_of_entry {s : State} {a : Byte} {i : Nat} {e : Entry} (ha : a ≤ 0x7F) (hi : i < s.idx.toNat)
    (he : s.entry[i]? = some e) (hr : e.registered = true) (hx : e.addr = a.setWidth 7) : s.holds a = true := by
  simp only [State.holds, Bool.and_eq_true, decide_eq_true_eq, List.any_eq_true, beq_iff_eq]
  refine ⟨ha, e, ?_, hr, hx.trans (addr7_eq a).symm⟩
  rw [List.mem_iff_getElem?]
  exact ⟨i, by rw [List.getElem?_take_of_lt hi]; exact he⟩

/-! ## Hand-off -/

/-- The claim passes its gates: first claim. -/
theorem claim_gates_first (s : State) (a : Byte) (hg : s.gap = none) (ha : asksForNew s a) (hk : GatesOpen s)
    (h0 : s.idx = 0) :
    Reach 1 ((s.started (.claim a)).onward [])
      (({ s with retryW := 0 }.running s.seq .claimProbe (addr7 s.nextAddr)).onward [wireGcreset, .delay .gcrSettle]) := by
  refine reach_line rfl hg (by simp [State.started]) (by simp [State.started]) ?_ rfl hg
  show claimTick a _ = _
  have hh : ((s.started (.claim a)).onward []).holds a = false := holds_of_asks ha
  have hr : ¬ s.nmax ≤ s.idx.toNat := Nat.not_le.2 hk.room
  have hr' : ¬ ((s.started (.claim a)).onward []).nmax ≤ ((s.started (.claim a)).onward []).idx.toNat := hr
  have hf : ((s.started (.claim a)).onward []).enumFailed = false := hk.latch
  have h0' : ((s.started (.claim a)).onward []).idx = 0 := h0
  rw [claimTick, if_neg (by simp [hh]), if_neg (by simp [hf]), if_neg hr', if_pos h0']
  rfl

/-- The claim passes its gates: later claim. -/
theorem claim_gates_next (s : State) (a : Byte) (hg : s.gap = none) (ha : asksForNew s a) (hk : GatesOpen s)
    (h0 : s.idx ≠ 0) :
    Reach 1 ((s.started (.claim a)).onward [])
      (({ s with retryW := 0 }.running s.seq .claimPropagated (addr7 s.nextAddr)).onward
        [wirePropagate s.prevEntry.addr]) := by
  refine reach_line rfl hg (by simp [State.started]) (by simp [State.started]) ?_ rfl hg
  show claimTick a _ = _
  have hh : ((s.started (.claim a)).onward []).holds a = false := holds_of_asks ha
  have hr : ¬ s.nmax ≤ s.idx.toNat := Nat.not_le.2 hk.room
  have hr' : ¬ ((s.started (.claim a)).onward []).nmax ≤ ((s.started (.claim a)).onward []).idx.toNat := hr
  have hf : ((s.started (.claim a)).onward []).enumFailed = false := hk.latch
  have h0' : ¬ ((s.started (.claim a)).onward []).idx = 0 := h0
  have hp : (((s.started (.claim a)).onward []).prevEntry.registered &&
      ((s.started (.claim a)).onward []).prevEntry.active) = true := by
    have := hk.upstream h0
    simp only [Bool.and_eq_true]
    exact this
  rw [claimTick, if_neg (by simp [hh]), if_neg (by simp [hf]), if_neg hr', if_neg h0', if_pos hp]
  rfl

/-- Parts A to C of a new claim (R202 to R205). -/
theorem claim_handoff (s : State) (a : Byte) (h : Write) (more : List Drive) (hg : s.gap = none) (ho : s.owned = false)
    (ha : asksForNew s a) (hk : GatesOpen s) (hf : s.handoffFits h) (hn : s.idx ≠ 0 → h.start.acked = true)
    (hl : s.looks = h.looks ++ more) :
    ∃ q, Reach 290 ((s.started (.claim a)).onward [])
      ((((s.afterHandoff h more).handedOff).running q .claimProbe (addr7 s.nextAddr)).onward []) := by
  by_cases h0 : s.idx = 0
  · obtain ⟨q, -, h2⟩ := run_xfer { s with retryW := 0 } s.seq .claimProbe (addr7 s.nextAddr) Config.bcastAddr (Config.selGcreset :: Config.gcrMagic) h more
      [.delay .gcrSettle] hg ho (by simpa [State.handoffFits, h0] using hf) hl (by simp [Config.gcrMagic])
    refine ⟨q, (((claim_gates_first s a hg ha hk h0).trans h2).trans (run_delay _ q _ _ _ [] hg)).mono (by omega) |>.cast ?_⟩
    have e : (s.afterHandoff h more).handedOff = { s.afterWrite Config.bcastAddr (Config.selGcreset :: Config.gcrMagic) h more with retryW := 0 } := by
      rw [State.afterHandoff, if_pos h0, State.handedOff, if_pos]
      exact h0
    rw [e]
    rfl
  · obtain ⟨q, hq, h2⟩ := run_xfer { s with retryW := 0 } s.seq .claimPropagated (addr7 s.nextAddr) s.prevEntry.addr [Config.selPropagate] h
      more [] hg ho (by rw [State.handoffFits, if_neg h0] at hf; exact hf) hl (by simp)
    have e : (s.afterHandoff h more).handedOff =
        ({ s with retryW := 0 }.afterWrite s.prevEntry.addr [Config.selPropagate] h more).setPrevTerminated false := by
      rw [State.afterHandoff, if_neg h0, State.handedOff, if_neg]
      · rfl
      · exact h0
    rw [e]
    have h3 : Reach 1 (((({ s with retryW := 0 } : State).afterWrite s.prevEntry.addr [Config.selPropagate] h more).running q
        .claimPropagated (addr7 s.nextAddr)).onward [])
        ((((({ s with retryW := 0 } : State).afterWrite s.prevEntry.addr [Config.selPropagate] h more).setPrevTerminated false).running q
          .claimProbe (addr7 s.nextAddr)).onward [.delay .propSettle]) := by
      refine run_line hg (by simp) (by simp) ?_ rfl hg
      show claimPropagatedTick _ = _
      rw [claimPropagatedTick, if_pos]
      · rfl
      · exact hq.trans (hn h0)
    exact ⟨q, ((((claim_gates_next s a hg ha hk h0).trans h2).trans h3).trans
      (run_delay ((({ s with retryW := 0 } : State).afterWrite s.prevEntry.addr [Config.selPropagate] h more).setPrevTerminated false) q _ _
        _ [] hg)).mono (by omega)⟩

/-! ## Probes -/

theorem claim_probe (s : State) (q : Seq) (n : BusAddr) (w : Write) (more : List Drive) (hg : s.gap = none)
    (ho : s.owned = false) (hf : w.fits 0) (hl : s.looks = w.looks ++ more) :
    ∃ q', q'.okx = w.start.acked ∧
      Reach 286 ((s.running q .claimProbe n).onward []) (((s.afterWrite Config.bootAddr [] w more).running q' .claimProbed n).onward []) := by
  obtain ⟨q', hq, h⟩ := run_xfer s q .claimProbed n Config.bootAddr [] w more [] hg ho hf hl (by simp)
  have h1 : Reach 1 ((s.running q .claimProbe n).onward []) ((s.running q .claimProbed n).onward [.xfer Config.bootAddr [] 0]) :=
    run_line hg (by simp) (by simp) rfl rfl hg
  exact ⟨q', hq, (h1.trans h).mono (by omega)⟩

/-- Part D (R206). -/
theorem claim_probing (s : State) (q : Seq) (n : BusAddr) (p : Probing) (more : List Drive) (hg : s.gap = none)
    (ho : s.owned = false) (hr : s.retryW = 0) (hf : p.fits) (hl : s.looks = p.looks ++ more) :
    ∃ q', q'.okx = p.last.start.acked ∧
      Reach 580 ((s.running q .claimProbe n).onward []) (((s.afterProbing p more).running q' .claimProbed n).onward []) := by
  obtain ⟨f, l⟩ := p
  cases f with
  | none =>
    obtain ⟨q', hq, h⟩ := claim_probe s q n l more hg ho hf.2 (by simpa [Probing.looks] using hl)
    exact ⟨q', hq, h.mono (by omega)⟩
  | some w =>
    obtain ⟨hw, ha⟩ := hf.1 w rfl
    obtain ⟨q1, hq1, h1⟩ := claim_probe s q n w (l.looks ++ more) hg ho hw (by simpa [Probing.looks] using hl)
    have h2 : Reach 1 (((s.afterWrite Config.bootAddr [] w (l.looks ++ more)).running q1 .claimProbed n).onward [])
        (((s.afterWrite Config.bootAddr [] w (l.looks ++ more)).running q1 .claimRetry n).onward [.delay .probeRetry]) := by
      refine run_line hg (by simp) (by simp) ?_ rfl hg
      show claimProbedTick _ = _
      rw [claimProbedTick, if_neg, if_pos]
      · rfl
      · show s.retryW.toNat < _
        rw [hr]
        decide
      · show ¬ q1.okx = true
        rw [hq1, ha]
        simp
    have h3 := run_delay (s.afterWrite Config.bootAddr [] w (l.looks ++ more)) q1 .claimRetry n .probeRetry [] hg
    have h4 : Reach 1 (((s.afterWrite Config.bootAddr [] w (l.looks ++ more)).running q1 .claimRetry n).onward [])
        (({ s.afterWrite Config.bootAddr [] w (l.looks ++ more) with retryW := 1 }.running q1 .claimProbe n).onward []) := by
      refine run_line hg (by simp) (by simp) ?_ rfl hg
      show claimRetryTick _ = _
      have : s.retryW + 1 = 1 := by rw [hr]; decide
      simp only [claimRetryTick, State.onward, State.running, State.goto]
      rw [show (s.afterWrite Config.bootAddr [] w (l.looks ++ more)).retryW = s.retryW from rfl, this]
    obtain ⟨q2, hq2, h5⟩ := claim_probe { s.afterWrite Config.bootAddr [] w (l.looks ++ more) with retryW := 1 } q1 n l more hg rfl hf.2
      rfl
    exact ⟨q2, hq2, ((((h1.trans h2).trans h3).trans h4).trans h5).mono (by omega)⟩

/-! ## Address change, terminate, commit -/

/-- The probe was answered: change-address (R207). -/
theorem claim_setaddr (s : State) (q : Seq) (n : BusAddr) (c : Write) (more : List Drive) (hg : s.gap = none)
    (ho : s.owned = false) (hk : q.okx = true) (hf : c.fits 2) (hl : s.looks = c.looks ++ more) :
    ∃ q', q'.okx = c.start.acked ∧
      Reach 286 ((s.running q .claimProbed n).onward [])
        (((s.afterWrite Config.bootAddr [Config.selSetaddr, s.params.payload n] c more).running q' .claimAddressed n).onward []) := by
  obtain ⟨q', hq, h⟩ := run_xfer s q .claimAddressed n Config.bootAddr [Config.selSetaddr, s.params.payload n] c more [] hg ho hf hl (by simp)
  have h1 : Reach 1 ((s.running q .claimProbed n).onward [])
      ((s.running q .claimAddressed n).onward [.xfer Config.bootAddr [Config.selSetaddr, s.params.payload n] 0]) := by
    refine run_line hg (by simp) (by simp) ?_ rfl hg
    show claimProbedTick _ = _
    rw [claimProbedTick, if_pos]
    · rfl
    · exact hk
  exact ⟨q', hq, (h1.trans h).mono (by omega)⟩

/-- Change-address was acked: terminate the device at its new address (R207). -/
theorem claim_terminate (s : State) (q : Seq) (n : BusAddr) (t : Write) (more : List Drive) (hg : s.gap = none)
    (ho : s.owned = false) (hk : q.okx = true) (hf : t.fits 1) (hl : s.looks = t.looks ++ more) :
    ∃ q', q'.okx = t.start.acked ∧
      Reach 287 ((s.running q .claimAddressed n).onward [])
        (((s.afterWrite n [Config.selTerminate] t more).running q' .claimTerminated n).onward []) := by
  obtain ⟨q', hq, h⟩ := run_xfer s q .claimTerminated n n [Config.selTerminate] t more [] hg ho hf hl (by simp)
  have h1 : Reach 1 ((s.running q .claimAddressed n).onward [])
      ((s.running q .claimTerminated n).onward [.delay .addrWrite, .xfer n [Config.selTerminate] 0]) := by
    refine run_line hg (by simp) (by simp) ?_ rfl hg
    show claimAddressedTick _ = _
    rw [claimAddressedTick, if_pos]
    · rfl
    · exact hk
  exact ⟨q', hq, ((h1.trans (run_delay s q _ n _ _ hg)).trans h).mono (by omega)⟩

/-- Terminate was acked: the commit, W.RESET and the end (R207, R208). -/
theorem claim_commit (s : State) (q : Seq) (r : Write) (more : List Drive) (hg : s.gap = none) (ho : s.owned = false)
    (hk : q.okx = true) (hf : r.fits 1) (hl : s.looks = r.looks ++ more) :
    ∃ q', Reach 287 ((s.running q .claimTerminated (addr7 s.nextAddr)).onward [])
      (({ s.committed.afterWrite (addr7 s.nextAddr) [Config.selReset] r more with seq := q' } : State).complete true .none
        ((addr7 s.nextAddr).setWidth 8)) := by
  have h1 : Reach 1 ((s.running q .claimTerminated (addr7 s.nextAddr)).onward [])
      ((s.committed.running q (.finish true .none ((addr7 s.nextAddr).setWidth 8)) (addr7 s.nextAddr)).onward
        [.xfer (addr7 s.nextAddr) [Config.selReset] 0]) := by
    refine run_line hg (by simp) (by simp) ?_ rfl hg
    show claimTerminatedTick _ = _
    rw [claimTerminatedTick, if_pos]
    · rfl
    · exact hk
  obtain ⟨q', -, h2⟩ := run_xfer s.committed q (.finish true .none ((addr7 s.nextAddr).setWidth 8)) (addr7 s.nextAddr)
    (addr7 s.nextAddr) [Config.selReset] r more [] hg ho hf hl (by simp)
  refine ⟨{ q' with newAddr := addr7 s.nextAddr }, ((h1.trans h2).trans (run_line hg (by simp) (by simp) rfl rfl hg)).mono
    (by omega)⟩

/-! ## Failure -/

/-- The latch and the end (R204, R209). -/
theorem claim_failed (s : State) (q : Seq) (n : BusAddr) (e : Err) (hg : s.gap = none) :
    Reach 2 ((s.running q (.claimFailed e) n).onward [])
      (({ s with enumFailed := true, seq := { q with newAddr := n } } : State).complete false e 0) := by
  have h1 : Reach 1 ((s.running q (.claimFailed e) n).onward [])
      (({ s with enumFailed := true }.running q (.finish false e 0) n).onward []) :=
    run_line hg (by simp) (by simp) rfl rfl hg
  exact h1.trans (run_line hg (by simp) (by simp) rfl rfl hg)

/-- The rollback and the end (R209). -/
theorem claim_rollback (s : State) (q : Seq) (n : BusAddr) (e : Err) (w : Write) (more : List Drive) (hg : s.gap = none)
    (ho : s.owned = false) (hf : w.fits 1) (hl : s.looks = s.rollbackLooks w ++ more) :
    ∃ q', Reach 290 ((s.running q (.rollback e) n).onward [])
      (({ s.afterRollback w more with seq := q' } : State).complete false e 0) := by
  by_cases h0 : s.idx = 0
  · have h1 : Reach 1 ((s.running q (.rollback e) n).onward []) ((s.running q (.claimFailed e) n).onward []) := by
      refine run_line hg (by simp) (by simp) ?_ rfl hg
      show rollbackTick e _ = _
      rw [rollbackTick, if_pos]
      · rfl
      · exact h0
    refine ⟨{ q with newAddr := n }, ((h1.trans (claim_failed s q n e hg)).mono (by omega)).cast ?_⟩
    rw [State.afterRollback, if_pos h0]
  · rw [State.rollbackLooks, if_neg h0] at hl
    have h1 : Reach 1 ((s.running q (.rollback e) n).onward [])
        ((s.running q (.rolledBack e) n).onward [.xfer s.prevEntry.addr [Config.selTerminate] 0]) := by
      refine run_line hg (by simp) (by simp) ?_ rfl hg
      show rollbackTick e _ = _
      rw [rollbackTick, if_neg]
      · rfl
      · exact h0
    obtain ⟨q', hq, h2⟩ := run_xfer s q (.rolledBack e) n s.prevEntry.addr [Config.selTerminate] w more [] hg ho hf hl (by simp)
    let t := s.afterWrite s.prevEntry.addr [Config.selTerminate] w more
    let u : State := if w.start.acked then t.setPrevTerminated true else t
    have hgu : u.gap = none := by
      show (if w.start.acked then t.setPrevTerminated true else t).gap = none
      split <;> exact hg
    have h3 : Reach 1 ((t.running q' (.rolledBack e) n).onward []) ((u.running q' (.claimFailed e) n).onward []) := by
      refine run_line hg (by simp) (by simp) ?_ ?_ hgu
      · show rolledBackTick e _ = _
        have hk : ((t.running q' (.rolledBack e) n).onward []).seq.okx = w.start.acked := hq
        rw [rolledBackTick, hk]
        cases hc : w.start.acked <;> simp only [u, hc] <;> rfl
      · show (if w.start.acked then t.setPrevTerminated true else t).looks = t.looks
        split <;> rfl
    refine ⟨{ q' with newAddr := n }, ((((h1.trans h2).trans h3).trans (claim_failed u q' n e hgu)).mono (by omega)).cast ?_⟩
    rw [State.afterRollback, if_neg h0]
    cases hc : w.start.acked <;> simp only [u, hc] <;> rfl

/-! ## What the parts leave unchanged -/

section

variable (s : State) (h : Write) (p : Probing) (m : List Drive)

theorem handoff_retry : ((s.afterHandoff h m).handedOff).retryW = 0 := by
  unfold State.afterHandoff State.handedOff; split <;> split <;> rfl
theorem handoff_gap : ((s.afterHandoff h m).handedOff).gap = s.gap := by
  unfold State.afterHandoff State.handedOff; split <;> split <;> rfl
theorem handoff_owned : ((s.afterHandoff h m).handedOff).owned = false := by
  unfold State.afterHandoff State.handedOff; split <;> split <;> rfl
theorem handoff_looks : ((s.afterHandoff h m).handedOff).looks = m := by
  unfold State.afterHandoff State.handedOff; split <;> split <;> rfl
theorem handoff_next : ((s.afterHandoff h m).handedOff).nextAddr = s.nextAddr := by
  unfold State.afterHandoff State.handedOff; split <;> split <;> rfl
theorem handoff_idx : ((s.afterHandoff h m).handedOff).idx = s.idx := by
  unfold State.afterHandoff State.handedOff; split <;> split <;> rfl

theorem probing_facts :
    (s.afterProbing p m).gap = s.gap ∧ (s.afterProbing p m).owned = false ∧ (s.afterProbing p m).looks = m ∧
      (s.afterProbing p m).nextAddr = s.nextAddr ∧ (s.afterProbing p m).idx = s.idx := by
  unfold State.afterProbing; split <;> exact ⟨rfl, rfl, rfl, rfl, rfl⟩

end

/-- What CLAIM answers, once the engine's run is known. -/
theorem claim_answers {s t : State} {a : Byte} {k : Nat} {ok : Bool} {e : Err} {r : Byte} {q : Seq}
    (hf : s.fatal = false) (hi : s.initDone = true) (ho : s.owned = false)
    (h : Reach k ((s.started (.claim a)).onward []) (({ t with seq := q } : State).complete ok e r))
    (hk : k ≤ maxTicks) : Answers (.claim a) s (t.outcome ok e r) :=
  ⟨{ q with bus := [], line := .none }, rfl, rfl,
    (checked_ok (freeBus_ok hf hi ho)).trans (launch_eq h (complete_paused _ ok e r) hk)⟩

end Sys2Proof.Machine
end

