-- ==== Sys2Proof/Laws/Loops.lean ====
section
/-!
SUPPORT. The two loops of state updates, each run to its end: the copy of a tick read's bytes (43_device_commands.md R181)
and the destruction of the table (44_chain_enumeration.md R212).
-/

namespace Sys2Proof.Machine

/-! ## DEV_TICKREAD -/

/-- What a turn of the copy leaves (R181). -/
def State.keptRx (s : State) (k : Fin 6) : State := { s with rxbuf := s.rxbuf.set k (s.seq.rx.getD k 0) }

/-- The bytes from `k` on, as the copy leaves them. -/
def State.keptFrom (s : State) (k : Nat) : State :=
  { s with rxbuf := Vector.ofFn fun j => if k ≤ j.val then s.seq.rx.getD j.val 0 else s.rxbuf[j] }

theorem keptFrom_kept (s : State) (k : Fin 6) : (s.keptRx k).keptFrom (k.val + 1) = s.keptFrom k.val := by
  have e : (s.keptRx k).keptFrom (k.val + 1) =
      { s with rxbuf := ((s.keptRx k).keptFrom (k.val + 1)).rxbuf } := rfl
  rw [e, State.keptFrom]
  congr 1
  apply Vector.ext
  intro j hj
  simp only [State.keptRx, Vector.getElem_ofFn, Fin.getElem_fin, Vector.getElem_set]
  by_cases h : k.val = j
  · subst h
    simp
  · simp only [h, if_false]
    by_cases h' : k.val + 1 ≤ j
    · rw [if_pos h', if_pos (by omega)]
    · rw [if_neg h', if_neg (by omega)]

theorem keptFrom_six (s : State) : s.keptFrom 6 = s := by
  have e : (s.keptFrom 6).rxbuf = s.rxbuf := by
    apply Vector.ext
    intro j hj
    simp only [State.keptFrom, Vector.getElem_ofFn, Fin.getElem_fin]
    rw [if_neg (by omega)]
  show { s with rxbuf := (s.keptFrom 6).rxbuf } = s
  rw [e]

/-- The copy from `k` on. -/
theorem reach_keepRx (n k : Nat) (hk : k + n = 5) (s : State) (hg : s.gap = none) :
    Reach (n + 1) ((s.started (.tickreadKeep ⟨k, by omega⟩)).onward [])
      (((s.keptFrom k).started (.finish true .none 0)).onward []) := by
  induction n generalizing k s with
  | zero =>
    obtain rfl : k = 5 := by omega
    have h : Reach 1 ((s.started (.tickreadKeep 5)).onward [])
        (((s.keptRx 5).started (.finish true .none 0)).onward []) :=
      reach_line rfl hg (by simp [State.started]) (by simp [State.started]) rfl rfl hg
    have e : s.keptFrom 5 = s.keptRx 5 := (keptFrom_kept s 5).symm.trans (keptFrom_six _)
    exact h.cast (by rw [e])
  | succ n ih =>
    have h1 : Reach 1 ((s.started (.tickreadKeep ⟨k, by omega⟩)).onward [])
        (((s.keptRx ⟨k, by omega⟩).started (.tickreadKeep ⟨k + 1, by omega⟩)).onward []) := by
      refine reach_line rfl hg (by simp [State.started]) (by simp [State.started]) ?_ rfl hg
      show tickreadKeepTick _ _ = _
      rw [tickreadKeepTick, dif_pos (show k + 1 < 6 by omega)]
      rfl
    have h2 := ih (k + 1) (by omega) (s.keptRx ⟨k, by omega⟩) hg
    rw [keptFrom_kept s ⟨k, by omega⟩] at h2
    exact (h1.trans h2).mono (by omega)

/-- The whole copy: `rxbuf[k] = rx[k]` for every `k`. -/
theorem reach_keepAllRx (s : State) (hg : s.gap = none) :
    Reach 6 ((s.started (.tickreadKeep 0)).onward [])
      (({ s with rxbuf := Vector.ofFn fun k => s.seq.rx.getD k.val 0 }.started (.finish true .none 0)).onward []) := by
  refine (reach_keepRx 5 0 rfl s hg).cast ?_
  simp [State.keptFrom]

/-! ## GCALL_RESET -/

/-- The loop over the entries from `i` on. -/
theorem reach_clearEntries (k : Nat) (i : Nat) (s : State) (hg : s.gap = none) (hk : i + k = s.nmax) :
    Reach (k + 1) ((s.started (.gcallEntry i)).onward [])
      (({ s with entry := s.entry.take i ++ List.replicate k Entry.zero }.started .gcallIdx).onward []) := by
  induction k generalizing i s with
  | zero =>
    refine reach_line rfl hg (by simp [State.started]) (by simp [State.started]) ?_ rfl hg
    show gcallEntryTick i _ = _
    have hi : ¬ i < ((s.started (.gcallEntry i)).onward []).nmax := fun h => by
      change i < s.nmax at h
      omega
    have e : s.entry.take i = s.entry := List.take_of_length_le (by unfold State.nmax at hk; omega)
    rw [gcallEntryTick, if_neg hi, e]
    simp [State.goto, State.started, State.onward]
  | succ k ih =>
    have hi : i < s.nmax := by omega
    have h1 : Reach 1 ((s.started (.gcallEntry i)).onward [])
        (((s.clearEntry i).started (.gcallEntry (i + 1))).onward []) := by
      refine reach_line rfl hg (by simp [State.started]) (by simp [State.started]) ?_ rfl hg
      show gcallEntryTick i _ = _
      rw [gcallEntryTick, if_pos (show i < ((s.started (.gcallEntry i)).onward []).nmax from hi)]
      rfl
    have h2 := ih (i + 1) (s.clearEntry i) hg (by
      show _ = (s.entry.set i Entry.zero).length
      rw [List.length_set]
      unfold State.nmax at hk
      omega)
    refine ((h1.trans h2).mono (by omega)).cast ?_
    have e : (s.entry.set i Entry.zero).take (i + 1) ++ List.replicate k Entry.zero =
        s.entry.take i ++ List.replicate (k + 1) Entry.zero := by
      have hl : i < s.entry.length := hi
      rw [List.take_add_one, List.take_set_of_le (Nat.le_refl i), List.getElem?_set_self hl, List.replicate_succ]
      simp
    show ({ s.clearEntry i with entry := (s.entry.set i Entry.zero).take (i + 1) ++ _ }.started _).onward _ = _
    rw [e]
    rfl

/-- The whole destruction: an empty table, the counters at their start, the latch cleared. -/
theorem reach_destroy (s : State) (hg : s.gap = none) :
    Reach (s.nmax + 6) ((s.started .gcallDestroy).onward [])
      (({ s with
          entry := List.replicate s.nmax Entry.zero, idx := 0, nextAddr := Config.chainBase,
          enumFailed := false }.started
        (.finish s.seq.okx (if s.seq.okx then .none else .nackStart) 0)).onward []) := by
  have h0 : Reach 1 ((s.started .gcallDestroy).onward []) ((s.started (.gcallEntry 0)).onward []) :=
    reach_line rfl hg (by simp [State.started]) (by simp [State.started]) rfl rfl hg
  have h1 := reach_clearEntries s.nmax 0 s hg (by omega)
  let u : State := { s with entry := List.replicate s.nmax Entry.zero }
  have h2 : Reach 1 ((u.started .gcallIdx).onward []) (({ u with idx := 0 }.started .gcallNext).onward []) :=
    reach_line rfl hg (by simp [State.started]) (by simp [State.started]) rfl rfl hg
  let v : State := { u with idx := 0 }
  have h3 : Reach 1 ((v.started .gcallNext).onward [])
      (({ v with nextAddr := Config.chainBase }.started .gcallLatch).onward []) :=
    reach_line rfl hg (by simp [State.started]) (by simp [State.started]) rfl rfl hg
  let w : State := { v with nextAddr := Config.chainBase }
  have h4 : Reach 1 ((w.started .gcallLatch).onward [])
      (({ w with enumFailed := false }.started
        (.finish s.seq.okx (if s.seq.okx then .none else .nackStart) 0)).onward [.delay .gcrSettle]) :=
    reach_line rfl hg (by simp [State.started]) (by simp [State.started]) rfl rfl hg
  have h5 := (reach_delay ({ w with enumFailed := false }.started
    (.finish s.seq.okx (if s.seq.okx then .none else .nackStart) 0)) .gcrSettle [] hg).reach
  have h1' : Reach (s.nmax + 1) ((s.started (.gcallEntry 0)).onward []) ((u.started .gcallIdx).onward []) := h1
  exact (((((h0.trans h1').trans h2).trans h3).trans h4).trans h5).mono (by omega)

end Sys2Proof.Machine
end

