-- ==== Sys2Proof/Laws/PerInstr.lean ====
section
/-!
SUPPORT. One lemma per instruction: its code has the width, and under the mask the fixed bits, of its row of the opcode
table (spec/opcode_table.json; 30_encoding.md R92, R99).
-/

namespace Sys2Proof.Laws.TableRow

/-- The fixed bits of a row: its width, the mask of the bits that are fixed, and their value. -/
structure Row where
  nbits : Nat
  mask : Word
  value : Word

/-- The rows as the table writes them, a wire command's first transmitted byte highest (log 13). -/
def row : Instr → Row
  | .start _ _ => ⟨32, 0xFFFEFF00, 0x01000000⟩
  | .stop => ⟨32, 0xFFFFFFFF, 0x02000000⟩
  | .writebyte _ => ⟨32, 0xFFFFFF00, 0x03000000⟩
  | .readbyte _ => ⟨32, 0xFFFEFFFF, 0x04000000⟩
  | .busscan _ _ => ⟨32, 0xFFFF0000, 0x05000000⟩
  | .init => ⟨32, 0xFFFFFFFF, 0x06000000⟩
  | .claim _ => ⟨32, 0xFFFFFF00, 0x20000000⟩
  | .devTickread _ => ⟨32, 0xFFFFFF00, 0x40000000⟩
  | .devReset _ => ⟨32, 0xFFFFFF00, 0x4A000000⟩
  | .gcallReset => ⟨32, 0xFFFFFFFF, 0x4E000000⟩
  | .devColor _ _ => ⟨32, 0xFFFF0000, 0x5E000000⟩
  | .wProbe _ => ⟨8, 0x01, 0x00⟩
  | .wTickread _ => ⟨24, 0x01FF01, 0x004001⟩
  | .wReset _ => ⟨16, 0x01FF, 0x004A⟩
  | .wPropagate _ => ⟨16, 0x01FF, 0x004B⟩
  | .wTerminate _ => ⟨16, 0x01FF, 0x004C⟩
  | .wSetaddr _ => ⟨24, 0xFFFF00, 0xC04D00⟩
  | .wGcreset => ⟨32, 0xFFFFFFFF, 0x004ECA03⟩
  | .wColor _ _ => ⟨24, 0x01FF00, 0x005E00⟩

/-- A code's width and its number. -/
def number : Code → Nat × Word
  | .command w => (32, w)
  | .wire bs => (8 * bs.length, bs.foldl (fun n b => n <<< 8 ||| b.setWidth 32) 0)

def Statement (i : Instr) : Prop :=
  WellFormed i = true →
    (number (encode i)).1 = (row i).nbits ∧ (number (encode i)).2 &&& (row i).mask = (row i).value

theorem start (a : Byte) (f : Bool) : Statement (.start a f) := by
  revert a f
  unfold Statement
  decide

theorem stop : Statement .stop := by
  unfold Statement
  decide

theorem writebyte (a : Byte) : Statement (.writebyte a) := by
  revert a
  unfold Statement
  decide

theorem readbyte (f : Bool) : Statement (.readbyte f) := by
  revert f
  unfold Statement
  decide

/-- A word with two byte operands under the mask of its opcode, reserved and flag bits. -/
theorem packed_high (op a b : Byte) :
    packCommand op false b a &&& 0xFFFF0000 = op ++ (0 : BitVec 7) ++ (0 : BitVec 1) ++ (0 : Byte) ++ (0 : Byte) := by
  rw [show (0xFFFF0000 : Word) =
    (0xFF : Byte) ++ (0x7F : BitVec 7) ++ (1 : BitVec 1) ++ (0 : Byte) ++ (0 : Byte) by decide, mask_fields]
  simp only [fieldOp_pack, fieldReserved_pack, fieldF_pack, fieldB_pack, fieldA_pack]
  refine ⟨?_, by decide, by decide, by simp, by simp⟩
  revert op
  decide

theorem busscan (a b : Byte) : Statement (.busscan a b) := fun _ =>
  ⟨rfl, (packed_high _ a b).trans rfl⟩

theorem init : Statement .init := by
  unfold Statement
  decide

theorem claim (a : Byte) : Statement (.claim a) := by
  revert a
  unfold Statement
  decide

theorem devTickread (a : Byte) : Statement (.devTickread a) := by
  revert a
  unfold Statement
  decide

theorem devReset (a : Byte) : Statement (.devReset a) := by
  revert a
  unfold Statement
  decide

theorem gcallReset : Statement .gcallReset := by
  unfold Statement
  decide

theorem devColor (a b : Byte) : Statement (.devColor a b) := fun _ =>
  ⟨rfl, (packed_high _ a b).trans rfl⟩

theorem wProbe (t : Byte) : Statement (.wProbe t) := by
  revert t
  unfold Statement
  decide

theorem wTickread (t : Byte) : Statement (.wTickread t) := by
  revert t
  unfold Statement
  decide

theorem wReset (t : Byte) : Statement (.wReset t) := by
  revert t
  unfold Statement
  decide

theorem wPropagate (t : Byte) : Statement (.wPropagate t) := by
  revert t
  unfold Statement
  decide

theorem wTerminate (t : Byte) : Statement (.wTerminate t) := by
  revert t
  unfold Statement
  decide

theorem wSetaddr (p : Byte) : Statement (.wSetaddr p) := by
  revert p
  unfold Statement
  decide

theorem wGcreset : Statement .wGcreset := by
  unfold Statement
  decide

/-- A payload byte stands outside the mask. -/
theorem payload_masked : ∀ p : Byte, (p.setWidth 32 : Word) &&& 0x01FF00 = 0 := by decide

theorem wColor_fixed : ∀ t : Byte,
    (((packTarget t false).setWidth 32 <<< 8 ||| Config.selColor.setWidth 32) <<< 8 : Word) &&& 0x01FF00 = 0x005E00 := by
  decide

theorem wColor (t p : Byte) : Statement (.wColor t p) := by
  intro _
  refine ⟨rfl, ?_⟩
  simp only [number, encode, row, List.foldl_cons, List.foldl_nil]
  rw [show (0 : Word) <<< 8 = 0#32 by decide, BitVec.zero_or, BitVec.and_or_distrib_right, payload_masked,
    wColor_fixed]
  rfl

end Sys2Proof.Laws.TableRow
end

