-- ==== Sys2Proof/Laws/Scan.lean ====
section
/-!
SUPPORT. The loop of BUSSCAN (42_bus_scan.md R160).
-/

namespace Sys2Proof.Machine

theorem filter_range (N a b : Nat) :
    (List.range N).filter (fun c => a ≤ c && c ≤ b) = List.range' a (min (b + 1) N - a) := by
  induction N with
  | zero => simp
  | succ N ih =>
    rw [List.range_succ, List.filter_append, ih]
    by_cases h : a ≤ N ∧ N ≤ b
    · rw [show min (b + 1) (N + 1) - a = (min (b + 1) N - a) + 1 by omega, List.range'_concat]
      simp [h.1, h.2]
      omega
    · rw [show min (b + 1) (N + 1) - a = min (b + 1) N - a by omega]
      simp
      omega

/-- The candidates a scan still probes from candidate `n` on. -/
def scanFrom (n : Nat) (b : Byte) : List BusAddr := (List.range' n (min (b.toNat + 1) 128 - n)).map (BitVec.ofNat 7)

theorem scanned_eq (a b : Byte) : scanned a b = scanFrom a.toNat b := by
  rw [scanned, filter_range, scanFrom]
  rfl

theorem scanFrom_cons {n : Nat} {b : Byte} (hb : n ≤ b.toNat) (hn : n ≤ 127) :
    scanFrom n b = BitVec.ofNat 7 n :: scanFrom (n + 1) b := by
  rw [scanFrom, show min (b.toNat + 1) 128 - n = (min (b.toNat + 1) 128 - (n + 1)) + 1 by omega, List.range'_succ]
  rfl

theorem scanFrom_nil {n : Nat} {b : Byte} (h : b.toNat < n ∨ 127 < n) : scanFrom n b = [] := by
  rw [scanFrom, show min (b.toNat + 1) 128 - n = 0 by omega]
  rfl

/-- One probe of a scan. -/
theorem reach_ping (s : State) (c : BusAddr) (p : Ping) (more : List Drive) (rest : List BusOp) (hg : s.gap = none)
    (ho : s.owned = false) (hl : s.looks = p.looks ++ more) :
    ∃ q : Seq, Scratch s.seq q ∧ q.acked = p.start.acked ∧
      Reach 86 (s.onward (.doStart c false :: .doStop :: rest))
        ({ s.afterTransaction [p.start.acked] [.start, .tx (addressByte c false) p.start.acked, .stop] p.stop.last more
            with seq := q }.onward rest) := by
  have hl' : s.looks = p.start.looks ++ (p.stop.looks ++ more) := by simpa [Ping.looks] using hl
  have h1 := (reach_doStart s c false p.start _ (.doStop :: rest) hg hl').reach
  have h2 := (reach_doStop (s.afterStart c false p.start (p.stop.looks ++ more)) p.stop more rest hg rfl).reach
  refine ⟨{ s.seq with samp := p.start.frame.ack.samp, acked := p.start.acked }, ⟨rfl, rfl⟩, rfl,
    (h1.trans h2).cast ?_⟩
  obtain ⟨e1, e2⟩ := recorded_first p.start.acked
  simp only [State.afterStart, State.afterTx, State.withAck, State.openedRecord, ho, if_false, Bool.false_eq_true,
    Start.acked, State.afterStop, State.afterTransaction] at e1 e2 ⊢
  rw [e1, e2]
  simp [State.onward]

theorem afterPings_seq (cs : List BusAddr) (ps : List Ping) (more : List Drive) (s : State) (q : Seq) :
    ({ s with seq := q } : State).afterPings cs ps more = { s.afterPings cs ps more with seq := q } := by
  induction cs generalizing s ps with
  | nil => simp [State.afterPings]
  | cons c cs ih =>
    cases ps with
    | nil => simp [State.afterPings]
    | cons p ps => 
      exact ih ps (s.afterTransaction [p.start.acked] [.start, .tx (addressByte c false) p.start.acked, .stop] p.stop.last
        (ps.flatMap Ping.looks ++ more))

theorem afterPings_gap (cs : List BusAddr) (ps : List Ping) (more : List Drive) (s : State) :
    (s.afterPings cs ps more).gap = s.gap := by
  induction cs generalizing s ps with
  | nil => simp [State.afterPings]
  | cons c cs ih =>
    cases ps with
    | nil => simp [State.afterPings]
    | cons p ps =>
      exact ih ps (s.afterTransaction [p.start.acked] [.start, .tx (addressByte c false) p.start.acked, .stop] p.stop.last
        (ps.flatMap Ping.looks ++ more))

theorem afterPings_nil (ps : List Ping) (more : List Drive) (s : State) : s.afterPings [] ps more = s := by
  simp [State.afterPings]

/-- The loop from candidate `n` on. -/
theorem reach_scan (k n : Nat) (hk : n + k = 257) (h0 : 0 < k) (b cnt : Byte) (first : Bool) (ps : List Ping)
    (more : List Drive) (s : State) (hg : s.gap = none) (ho : s.owned = false)
    (hp : ps.length = (scanFrom n b).length) (hl : s.looks = ps.flatMap Ping.looks ++ more) :
    ∃ q : Seq, Reach (90 * k) ((s.started (.scan (BitVec.ofNat 9 n) b cnt first)).onward [])
      (({ s.afterPings (scanFrom n b) ps more with seq := q }.started
        (.finish true .none (cnt + BitVec.ofNat 8 (ps.countP fun p : Ping => p.start.acked)))).onward []) := by
  induction k generalizing n cnt first ps s with
  | zero => omega
  | succ k ih =>
    have hn : (BitVec.ofNat 9 n).toNat = n := by simp; omega
    have hb : (b.setWidth 9).toNat = b.toNat := by simp; omega
    have hlt : b.setWidth 9 < BitVec.ofNat 9 n ↔ b.toNat < n := by rw [BitVec.lt_def, hn, hb]
    have hmx : Config.addrMax.setWidth 9 < BitVec.ofNat 9 n ↔ 127 < n := by
      rw [BitVec.lt_def, hn]; simp [Config.addrMax]
    by_cases h1 : b.toNat < n
    · rw [scanFrom_nil (.inl h1)] at hp ⊢
      obtain rfl := List.length_eq_zero_iff.1 hp
      refine ⟨s.seq, Reach.mono (j := 1) ?_ (by omega)⟩
      refine reach_line rfl hg (by simp [State.started]) (by simp [State.started]) ?_ rfl hg
      show scanTick _ _ _ _ _ = _
      rw [scanTick, if_pos (hlt.2 h1)]
      simp [State.goto, State.started, State.onward, afterPings_nil]
    · have hstep : BitVec.ofNat 9 n + 1 = BitVec.ofNat 9 (n + 1) := by
        apply BitVec.eq_of_toNat_eq; simp
      have hbl := b.isLt
      by_cases h2 : 127 < n
      · have hs : scanFrom n b = scanFrom (n + 1) b := by
          rw [scanFrom_nil (.inr h2), scanFrom_nil (.inr (by omega))]
        rw [hs] at hp ⊢
        obtain ⟨q, h⟩ := ih (n + 1) (by omega) (by omega) cnt first ps s hg ho hp hl
        refine ⟨q, Reach.mono (j := 1 + 90 * k) (Reach.trans ?_ h) (by omega)⟩
        refine reach_line rfl hg (by simp [State.started]) (by simp [State.started]) ?_ rfl hg
        show scanTick _ _ _ _ _ = _
        rw [scanTick, if_neg (fun h' => h1 (hlt.1 h')), if_pos (hmx.2 h2), hstep]
        rfl
      · rw [scanFrom_cons (by omega) (by omega)] at hp ⊢
        obtain ⟨p, ps, rfl⟩ : ∃ p ps', ps = p :: ps' := by
          cases ps with
          | nil => simp at hp
          | cons p ps => exact ⟨p, ps, rfl⟩
        have hl' : s.looks = p.looks ++ (ps.flatMap Ping.looks ++ more) := by simpa using hl
        have hc : (BitVec.ofNat 9 n).extractLsb' 0 7 = BitVec.ofNat 7 n := by
          apply BitVec.eq_of_toNat_eq; simp
        -- the head of the loop
        have e1 : Reach 1 ((s.started (.scan (BitVec.ofNat 9 n) b cnt first)).onward [])
            ((s.started (.scanned (BitVec.ofNat 9 n) b cnt)).onward
              ((if first then [] else [.delay .scanGap]) ++ [.doStart (BitVec.ofNat 7 n) false, .doStop])) := by
          refine reach_line rfl hg (by simp [State.started]) (by simp [State.started]) ?_ rfl hg
          show scanTick _ _ _ _ _ = _
          rw [scanTick, if_neg (fun h' => h1 (hlt.1 h')), if_neg (fun h' => h2 (hmx.1 h')), hc]
          rfl
        -- the gap
        have e2 : Reach 1 ((s.started (.scanned (BitVec.ofNat 9 n) b cnt)).onward
              ((if first then [] else [.delay .scanGap]) ++ [.doStart (BitVec.ofNat 7 n) false, .doStop]))
            ((s.started (.scanned (BitVec.ofNat 9 n) b cnt)).onward [.doStart (BitVec.ofNat 7 n) false, .doStop]) := by
          cases first with
          | true => exact (Reach.refl _).mono (by omega)
          | false => exact (reach_delay (s.started (.scanned (BitVec.ofNat 9 n) b cnt)) .scanGap _ hg).reach
        -- the probe
        obtain ⟨q1, hq1, ha, e3⟩ := reach_ping (s.started (.scanned (BitVec.ofNat 9 n) b cnt)) (BitVec.ofNat 7 n) p
          (ps.flatMap Ping.looks ++ more) [] hg ho hl'
        -- the count
        let s1 : State := { s.afterTransaction [p.start.acked]
          [.start, .tx (addressByte (BitVec.ofNat 7 n) false) p.start.acked, .stop] p.stop.last
          (ps.flatMap Ping.looks ++ more) with seq := q1 }
        have e4 : Reach 1 ({ (s.started (.scanned (BitVec.ofNat 9 n) b cnt)).afterTransaction [p.start.acked]
            [.start, .tx (addressByte (BitVec.ofNat 7 n) false) p.start.acked, .stop] p.stop.last
            (ps.flatMap Ping.looks ++ more) with seq := q1 }.onward [])
            ((s1.started (.scan (BitVec.ofNat 9 (n + 1)) b (if p.start.acked then cnt + 1 else cnt) false)).onward []) := by
          refine reach_line rfl hg (by simp [hq1.line, State.started]) (by simp [hq1.line, State.started]) ?_ rfl hg
          simp only [State.onward_line, hq1.line, State.started, lineTick, scannedTick, hstep, State.onward_acked, ha]
          rfl
        obtain ⟨q, h⟩ := ih (n + 1) (by omega) (by omega) (if p.start.acked then cnt + 1 else cnt) false ps s1 hg rfl
          (by simpa using hp) rfl
        refine ⟨q, Reach.mono (j := 1 + (1 + (86 + (1 + 90 * k)))) ?_ (by omega)⟩
        refine (e1.trans (e2.trans (e3.trans (e4.trans h)))).cast ?_
        have hcnt : (if p.start.acked then cnt + 1 else cnt) + BitVec.ofNat 8 (ps.countP fun p : Ping => p.start.acked) =
            cnt + BitVec.ofNat 8 ((p :: ps).countP fun p : Ping => p.start.acked) := by
          cases hpa : p.start.acked with
          | true =>
            rw [List.countP_cons_of_pos (p := fun p : Ping => p.start.acked) hpa, BitVec.ofNat_add, if_pos rfl, BitVec.add_assoc,
              BitVec.add_comm (1 : BitVec 8)]
            rfl
          | false => rw [List.countP_cons_of_neg (p := fun p : Ping => p.start.acked) (by simp [hpa])]; rfl
        rw [hcnt, afterPings_seq]
        rfl

end Sys2Proof.Machine
end

