-- ==== Sys2Proof/Laws/Window.lean ====
section
/-!
SUPPORT. The host's register window, said once: which offset an address has, what an access at a listed offset does, and
that every other access is refused (10_state.md R40, R44).
-/

namespace Sys2Proof.Machine

@[simp] theorem offset_base (p : Params) (off : Nat) : p.offset (p.hostBase + off) = some off := by
  simp [Params.offset]

@[simp] theorem offset_first (p : Params) : p.offset p.hostBase = some 0 := by simp [Params.offset]

theorem offset_below {p : Params} {addr : Nat} (h : addr < p.hostBase) : p.offset addr = none := by
  simp [Params.offset]
  omega

theorem offset_above {p : Params} {addr : Nat} (h : p.hostBase ≤ addr) : p.offset addr = some (addr - p.hostBase) := by
  simp [Params.offset, h]

theorem hostAccess_read (s : State) (off width : Nat) :
    hostAccess (.read (s.params.hostBase + off) width) s = hostRead off width s := by simp [hostAccess]

theorem hostAccess_write (s : State) (off width : Nat) (w : Word) :
    hostAccess (.write (s.params.hostBase + off) width w) s = hostWrite off width w s := by simp [hostAccess]

/-- A write to CMD (R32). -/
theorem hostAccess_cmd (s : State) (w : Word) :
    hostAccess (.write s.params.hostBase 32 w) s = hostCommand w s := by simp [hostAccess, hostWrite, cmdOffset]

/-- From 0x24 on the map has only the entries of the table, one in each word from 0x40 (R40). -/
theorem readReg_above {s : State} {off : Nat} (h : 0x24 ≤ off) :
    readReg s off = if 0x40 ≤ off ∧ off % 4 = 0 then (s.entry[(off - 0x40) / 4]?).map entryReg else none := by
  have fixed (k : Nat) (hk : k < 0x24) : off ≠ k := fun e => Nat.not_lt.2 h (e ▸ hk)
  simp [readReg, fixed]

/-- No register stands at an offset that is no multiple of 4 (R40, R44). -/
theorem readReg_misaligned {s : State} {off : Nat} (h : off % 4 ≠ 0) : readReg s off = none := by
  have aligned (k : Nat) (hk : k % 4 = 0) : off ≠ k := fun e => h (e ▸ hk)
  simp [readReg, aligned, h]

/-- ENTRY[i] (R40). -/
theorem readReg_entry (s : State) (i : Nat) : readReg s (0x40 + 4 * i) = (s.entry[i]?).map entryReg := by
  rw [readReg_above (by omega)]
  simp

/-- A listed offset but CMD's has a register. -/
theorem readReg_listed {s : State} {off : Nat} (h : s.listedOffset off) (h0 : off ≠ 0x00) :
    ∃ v, readReg s off = some v := by
  rcases h with h | ⟨i, hi, rfl⟩
  · simp only [List.mem_cons, List.not_mem_nil, or_false, h0, false_or] at h
    rcases h with rfl | rfl | rfl | rfl | rfl | rfl | rfl | rfl <;> exact ⟨_, rfl⟩
  · rw [readReg_entry, List.getElem?_eq_getElem hi]
    exact ⟨_, rfl⟩

/-- An offset the map does not list has none (R44). -/
theorem readReg_unlisted {s : State} {off : Nat}
    (h : off % 4 ≠ 0 ∨ (0x24 ≤ off ∧ off < 0x40) ∨ 0x40 + 4 * s.nmax ≤ off) : readReg s off = none := by
  rcases h with h | ⟨h, h'⟩ | h
  · exact readReg_misaligned h
  · rw [readReg_above h]
    exact if_neg fun e => Nat.not_lt.2 e.1 h'
  · have past : s.entry[(off - 0x40) / 4]? = none := List.getElem?_eq_none (by unfold State.nmax at h; omega)
    rw [readReg_above (by omega), past]
    simp

/-- What is not undefined is 32 bits wide and at a listed offset. -/
theorem listed_of_defined {s : State} {addr width : Nat} (h : ¬s.undefinedAccess addr width) :
    width = 32 ∧ ∃ off, addr = s.params.hostBase + off ∧ s.listedOffset off := by
  simp only [State.undefinedAccess, not_or, not_and, Nat.not_lt, Nat.not_le, Decidable.not_not, ne_eq] at h
  obtain ⟨hw, hb, h4, hg, hn⟩ := h
  refine ⟨hw, addr - s.params.hostBase, by omega, ?_⟩
  generalize addr - s.params.hostBase = off at h4 hg hn
  by_cases hlt : off < 0x24
  · left
    have : off = 0x00 ∨ off = 0x04 ∨ off = 0x08 ∨ off = 0x0C ∨ off = 0x10 ∨ off = 0x14 ∨ off = 0x18 ∨ off = 0x1C ∨
        off = 0x20 := by omega
    simpa using this
  · have := hg (by omega)
    exact .inr ⟨(off - 0x40) / 4, by omega, by omega⟩

/-- An undefined access is refused (R44). -/
theorem refused_of_undefined {s : State} {addr width : Nat} (h : s.undefinedAccess addr width) (w : Word) :
    hostAccess (.read addr width) s = .refused .hostAccess ∧
      hostAccess (.write addr width w) s = .refused .hostAccess := by
  by_cases hb : addr < s.params.hostBase
  · simp [hostAccess, offset_below hb]
  · have hb' : s.params.hostBase ≤ addr := by omega
    by_cases hw : width = 32
    · have hu : (addr - s.params.hostBase) % 4 ≠ 0 ∨
          (0x24 ≤ addr - s.params.hostBase ∧ addr - s.params.hostBase < 0x40) ∨
            0x40 + 4 * s.nmax ≤ addr - s.params.hostBase := by
        rcases h with h | h | h
        · exact absurd hw h
        · exact absurd h hb
        · exact h
      simp only [hostAccess, offset_above hb']
      generalize addr - s.params.hostBase = off at hu ⊢
      have h0 : off ≠ cmdOffset := by
        simp only [cmdOffset]
        omega
      have h18 : off ≠ 0x18 := by omega
      simp [hostRead, hostWrite, hostWriteOther, hw, h0, h18, readReg_unlisted hu]
    · simp only [hostAccess, offset_above hb', hostRead, hostWrite, hostWriteOther, hw, ne_eq, not_false_eq_true, if_true,
        if_false, true_and]
      split <;> rfl

end Sys2Proof.Machine
end

