-- ==== Sys2Proof/Tests/Slice0.lean ====
section
/-!
SUPPORT. Tests of the model, their expected results taken from the spec (95_test_vectors.md, the tables of 30_encoding.md),
and a witness for the hypotheses of every statement of Certificates/Slice0/Obligations.lean that has some.
-/

namespace Sys2Proof.Tests

open Sys2Proof Sys2Proof.Machine

/-! ## An environment that answers at once -/

/-- SCL is high at the first read. -/
def quick : Rise := ⟨[], true⟩
/-- The environment leaves SDA at `v` at the sample. -/
def cell (v : Bool) : Cell := ⟨quick, true, v⟩
/-- The environment sends the byte `b`, and pulls the 9th bit low if `ack`. -/
def sent (b : Byte) (ack : Bool) : Frame :=
  ⟨cell (b.getLsbD 7), cell (b.getLsbD 6), cell (b.getLsbD 5), cell (b.getLsbD 4), cell (b.getLsbD 3),
    cell (b.getLsbD 2), cell (b.getLsbD 1), cell (b.getLsbD 0), cell (!ack)⟩
/-- A transmitted byte, acked or not. -/
def heard (ack : Bool) : Frame := sent 0xFF ack
def started (ack : Bool) : Start := ⟨⟨quick, [], true, true⟩, heard ack⟩
/-- A transaction with a write phase. -/
def wrote (start : Bool) (acks : List Bool) : Write := ⟨started start, acks.map heard, quick⟩
/-- A transaction with a read phase of these bytes. -/
def read (restart : Bool) (bytes : List Byte) : Read :=
  ⟨started true, [heard true], started restart, bytes.map (sent · false), quick⟩
def pinged (ack : Bool) : Ping := ⟨started ack, quick⟩

/-! ## States -/

/-- After a successful INIT (program P1 of 95_test_vectors.md, step 1). -/
def ready (looks : List Drive) : State :=
  { State.reset with ok := true, initDone := true, looks := looks }
/-- After START 0x20, W, acked (V53). -/
def owning (looks : List Drive) : State :=
  { ready looks with ctrl := ⟨false, false, true⟩, owned := true, ackvec := 1, nb := 1 }
/-- After one CLAIM (program P3, step 2). -/
def one (looks : List Drive) : State :=
  { ready looks with
    idx := 1, nextAddr := 0x22, entry := ⟨0x20, true, true, true, 0⟩ :: List.replicate 31 Entry.zero }

def next? : Host.Outcome State Fault Refusal → Option State
  | .next t => some t
  | .fault _ => none
  | .refused _ => none

/-- The host writes a command word and then polls. -/
def given (s : State) (w : Word) : State := { s with hostQ := [⟨.write 0x00 32 w, none⟩] }

/-- STATUS, RESULT, ACKVEC and the trace. -/
def shown (t : State) : Word × Word × Word × List WireEvent := (statusReg t, resultReg t, ackvecReg t, t.trace)

/-! ## WellFormed refuses a wire target above ADDR_MAX (20_memory.md R66) -/

theorem test_wellFormed_refuses_probe : WellFormed (.wProbe 0x80) = false := by decide
theorem test_wellFormed_refuses_tickread : WellFormed (.wTickread 0x80) = false := by decide
theorem test_wellFormed_refuses_reset : WellFormed (.wReset 0x80) = false := by decide
theorem test_wellFormed_refuses_propagate : WellFormed (.wPropagate 0x80) = false := by decide
theorem test_wellFormed_refuses_terminate : WellFormed (.wTerminate 0x80) = false := by decide
theorem test_wellFormed_refuses_color : WellFormed (.wColor 0x80 0) = false := by decide

/-! ## Decoding: words of 30_encoding.md R91, R103 and of V30 to V35, bytes of R99 -/

theorem test_decode_start : decodeCommand 0b00000001_0000000_1_00000000_01100000 = some (.start 0x60 true) := by decide
theorem test_decode_stop : decodeCommand 0b00000010_0000000_0_00000000_00000000 = some .stop := by decide
theorem test_decode_writebyte : decodeCommand 0b00000011_0000000_0_00000000_01001010 = some (.writebyte 0x4A) := by decide
theorem test_decode_readbyte : decodeCommand 0b00000100_0000000_1_00000000_00000000 = some (.readbyte true) := by decide
theorem test_decode_busscan : decodeCommand 0b00000101_0000000_0_01110111_00001000 = some (.busscan 0x08 0x77) := by decide
theorem test_decode_init : decodeCommand 0b00000110_0000000_0_00000000_00000000 = some .init := by decide
theorem test_decode_claim : decodeCommand 0b00100000_0000000_0_00000000_00100010 = some (.claim 0x22) := by decide
theorem test_decode_devTickread : decodeCommand 0b01000000_0000000_0_00000000_00100000 = some (.devTickread 0x20) := by
  decide
theorem test_decode_devReset : decodeCommand 0b01001010_0000000_0_00000000_00100000 = some (.devReset 0x20) := by decide
theorem test_decode_gcallReset : decodeCommand 0b01001110_0000000_0_00000000_00000000 = some .gcallReset := by decide
theorem test_decode_devColor : decodeCommand 0b01011110_0000000_0_11111111_01111111 = some (.devColor 0x7F 0xFF) := by
  decide
theorem test_decode_wProbe : decodeWire [0b1100000_0] = some (.wProbe 0x60) := by decide
theorem test_decode_wTickread : decodeWire [0b0100000_0, 0b01000000, 0b0100000_1] = some (.wTickread 0x20) := by decide
theorem test_decode_wReset : decodeWire [0b0100000_0, 0b01001010] = some (.wReset 0x20) := by decide
theorem test_decode_wPropagate : decodeWire [0b0100000_0, 0b01001011] = some (.wPropagate 0x20) := by decide
theorem test_decode_wTerminate : decodeWire [0b0100010_0, 0b01001100] = some (.wTerminate 0x22) := by decide
theorem test_decode_wSetaddr : decodeWire [0b11000000, 0b01001101, 0b00100010] = some (.wSetaddr 0x22) := by decide
theorem test_decode_wGcreset : decodeWire [0b00000000, 0b01001110, 0b11001010, 0b00000011] = some .wGcreset := by decide
theorem test_decode_wColor : decodeWire [0b0100000_0, 0b01011110, 0b00000101] = some (.wColor 0x20 0x05) := by decide

/-- V30 to V35: the refused neighbours of accepted words. -/
theorem test_decode_illegal :
    [0x02000001, 0x02010000, 0x01020060, 0x01010160, 0x04010001, 0x00000000, 0x07000000, 0x1F000000, 0x21000000,
      0x4B000020, 0x4C000020, 0x4D000020, 0x4F000000, 0xFF000000, 0x4A000120, 0x5E01FF7F].map decodeCommand =
      List.replicate 16 none := by decide

/-- V1 to V7. -/
theorem test_address_bytes :
    [addressByte 0x60 false, addressByte 0x20 false, addressByte 0x20 true, addressByte 0x22 false,
      addressByte 0x00 false, addressByte 0x7F true, addressByte 0x5E false] =
      [0xC0, 0x40, 0x41, 0x44, 0x00, 0xFF, 0xBC] := by decide

/-! ## Steps from reset, and the checks -/

/-- V38. -/
theorem test_illegal_before_init : (next? (step (given State.reset 0x00000000))).map statusReg = some 0x00000300 := by
  decide +kernel
/-- V39. -/
theorem test_writebyte_before_init : (next? (step (given State.reset 0x03000040))).map statusReg = some 0x00000500 := by
  decide +kernel
/-- V41, first half (program P1, step 1). -/
theorem test_init : (next? (step (given State.reset 0x06000000))).map statusReg = some 0x0000000A := by decide +kernel
/-- V40. -/
theorem test_init_mismatch :
    (next? (step (given { State.reset with params := { Params.atReset with hwVersion := 1 } } 0x06000000))).map statusReg =
      some 0x00000610 := by decide +kernel
/-- V43, the last part: a composite command on an owned bus. -/
theorem test_busscan_while_owned : (next? (step (given (owning []) 0x05007708))).map statusReg = some 0x0000040C := by
  decide +kernel
/-- `withFetchWord` puts a command where the next step takes it. -/
theorem test_withFetchWord_command : (next? (step (State.reset.withFetchWord 32 0x06000000))).map (·.initDone) =
    some true := by decide +kernel
/-- `withFetchWord` puts a wire command where the next step takes it: W.TERMINATE 0x22 with nobody there. -/
theorem test_withFetchWord_wire : (next? (step (State.reset.withFetchWord 16 0x444C))).map (·.trace) =
    some [.start, .tx 0x44 false, .stop] := by decide +kernel

/-- A read of CMD completes, whatever value it returns. -/
theorem test_read_cmd : (next? (hostAccess (.read 0x00 32) State.reset)).map (·.freeReads) = some 1 := by decide +kernel
/-- The window at another HOST_BASE. -/
theorem test_host_base :
    (next? (hostAccess (.read 0x1004 32) { ready [] with params := { Params.atReset with hostBase := 0x1000 } })).map
      (·.hostRd) = some 0x0000000A := by decide +kernel
/-- R212: the latch is cleared last, in a micro-step of its own. -/
theorem test_gcall_latch_last : (tick ({ one [] with enumFailed := true }.goto [] .gcallNext)).enumFailed = true := by
  decide +kernel

/-! ## One command each -/

/-- V50. -/
theorem test_start : (next? (exec (.start 0x60 false) (ready (started true).looks))).map shown =
    some (0x0000000E, 0, 0x00010001, [.start, .tx 0xC0 true]) := by decide +kernel
/-- V55, the second START: a restart keeps the record. -/
theorem test_restart : (next? (exec (.start 0x20 true) (owning (started true).looks))).map shown =
    some (0x0000000E, 0, 0x00020003, [.restart, .tx 0x41 true]) := by decide +kernel
/-- V51, the STOP: the record is kept. -/
theorem test_stop : (next? (exec .stop { owning [] with ackvec := 0 })).map shown =
    some (0x0000000A, 0, 0x00010000, [.stop]) := by decide +kernel
/-- V53. -/
theorem test_writebyte : (next? (exec (.writebyte 0x4A) (owning (heard true).looks))).map shown =
    some (0x0000000E, 0, 0x00020003, [.tx 0x4A true]) := by decide +kernel
/-- V53, the device nacks: no error. -/
theorem test_writebyte_nacked : (next? (exec (.writebyte 0x4A) (owning (heard false).looks))).map shown =
    some (0x0000000C, 0, 0x00020001, [.tx 0x4A false]) := by decide +kernel
/-- V54. -/
theorem test_readbyte_ack : (next? (exec (.readbyte false) (owning (sent 0xA5 false).looks))).map shown =
    some (0x0000000E, 0xA5, 0x00020003, [.rx 0xA5 true]) := by decide +kernel
/-- V54, the last byte. -/
theorem test_readbyte_last : (next? (exec (.readbyte true) (owning (sent 0x3C false).looks))).map shown =
    some (0x0000000E, 0x3C, 0x00020001, [.rx 0x3C false]) := by decide +kernel
/-- V60. -/
theorem test_busscan : (next? (exec (.busscan 0x20 0x23)
      (ready ([true, false, true, false].flatMap fun a => (pinged a).looks)))).map shown =
    some (0x0000000A, 2, 0x00010000, [.start, .tx 0x40 true, .stop, .start, .tx 0x42 false, .stop,
      .start, .tx 0x44 true, .stop, .start, .tx 0x46 false, .stop]) := by decide +kernel
/-- V70. -/
theorem test_devTickread : (next? (exec (.devTickread 0x20)
      (one (read true [0x11, 0x22, 0x33, 0x44, 0x55, 0x66]).looks))).map
        (fun t => (statusReg t, ackvecReg t, rxloReg t, rxhiReg t)) =
    some (0x0000000A, 0x000900FF, 0x44332211, 0x00006655) := by decide +kernel
/-- V72: the restart is nacked. -/
theorem test_devTickread_restart_nacked : (next? (exec (.devTickread 0x20) (one (read false []).looks))).map
        (fun t => (shown t, (t.entry[0]?.map (·.active)))) =
    some ((0x00000108, 0, 0x00030003, [.start, .tx 0x40 true, .tx 0x40 true, .restart, .tx 0x41 false, .stop]),
      some false) := by decide +kernel
/-- V73, on an entry that was inactive (V78). -/
theorem test_devReset : (next? (exec (.devReset 0x20)
      { one (wrote true [true]).looks with entry := [⟨0x20, true, false, true, 0⟩] })).map
        (fun t => (shown t, t.entry.map entryReg)) =
    some ((0x0000000A, 0, 0x00020003, [.start, .tx 0x40 true, .tx 0x4A true, .stop]), [0x00000720]) := by
  decide +kernel
/-- V76: the selector is nacked, the payload is still sent. -/
theorem test_devColor : (next? (exec (.devColor 0x20 0x05) (one (wrote true [false, true]).looks))).map shown =
    some (0x0000000A, 0, 0x00030005, [.start, .tx 0x40 true, .tx 0x5E false, .tx 0x05 true, .stop]) := by
  decide +kernel
/-- V84: a later claim, the device answers the second probe. -/
theorem test_claim_retry : (next? (exec (.claim 0) (one ((wrote true [true]).looks ++ (wrote false []).looks ++
      (wrote true []).looks ++ (wrote true [true, true]).looks ++ (wrote true [true]).looks ++
      (wrote true [true]).looks)))).map (fun t => (statusReg t, t.result, chainReg t, (t.entry.take 2).map entryReg)) =
    some (0x0000000A, 0x22, 0x00000224, [0x00000320, 0x00010722]) := by decide +kernel
/-- V87: the first claim on an empty bus. -/
theorem test_claim_empty_bus : (next? (exec (.claim 0) (ready []))).map (fun t => (shown t, chainReg t)) =
    some ((0x00000928, 0, 0x00010000, [.start, .tx 0x00 false, .stop, .start, .tx 0xC0 false, .stop,
      .start, .tx 0xC0 false, .stop]), 0x00000020) := by decide +kernel
/-- V90, with one device enumerated. -/
theorem test_gcallReset : (next? (exec .gcallReset (one (wrote true [true, true, true]).looks))).map
      (fun t => (shown t, chainReg t, t.entry == State.reset.entry)) =
    some ((0x0000000A, 0, 0x0004000F, [.start, .tx 0x00 true, .tx 0x4E true, .tx 0xCA true, .tx 0x03 true, .stop]),
      0x00000020, true) := by decide +kernel

/-! ## The wire commands (the examples of 43_device_commands.md R177 to R187) -/

theorem test_wProbe : (next? (exec (.wProbe 0x60) (ready (wrote true []).looks))).map (fun t => (t.trace, t.seq.okx)) =
    some ([.start, .tx 0xC0 true, .stop], true) := by decide +kernel
theorem test_wTickread : (next? (exec (.wTickread 0x20) (ready (read true [0xA0, 0xB1, 0xC2, 0xD3, 0xE4, 0xF5]).looks))).map
      (fun t => (t.trace, t.seq.rx)) =
    some ([.start, .tx 0x40 true, .tx 0x40 true, .restart, .tx 0x41 true, .rx 0xA0 true, .rx 0xB1 true, .rx 0xC2 true,
      .rx 0xD3 true, .rx 0xE4 true, .rx 0xF5 false, .stop], [0xA0, 0xB1, 0xC2, 0xD3, 0xE4, 0xF5]) := by decide +kernel
theorem test_wReset : (next? (exec (.wReset 0x20) (ready (wrote true [true]).looks))).map (·.trace) =
    some [.start, .tx 0x40 true, .tx 0x4A true, .stop] := by decide +kernel
theorem test_wPropagate : (next? (exec (.wPropagate 0x20) (ready (wrote true [true]).looks))).map (·.trace) =
    some [.start, .tx 0x40 true, .tx 0x4B true, .stop] := by decide +kernel
theorem test_wTerminate : (next? (exec (.wTerminate 0x22) (ready (wrote true [true]).looks))).map (·.trace) =
    some [.start, .tx 0x44 true, .tx 0x4C true, .stop] := by decide +kernel
theorem test_wSetaddr : (next? (exec (.wSetaddr 0x22) (ready (wrote true [true, true]).looks))).map (·.trace) =
    some [.start, .tx 0xC0 true, .tx 0x4D true, .tx 0x22 true, .stop] := by decide +kernel
/-- The payload of change-address is a parameter: here the 8-bit form. -/
theorem test_wSetaddr_shifted :
    ({ Params.atReset with addrPayload := ⟨⟨(List.range 128).map fun a => BitVec.ofNat 8 (2 * a)⟩, rfl⟩ }).payload 0x22 =
      0x44 := by decide +kernel
theorem test_wGcreset : (next? (exec .wGcreset (ready (wrote true [true, true, true]).looks))).map (·.trace) =
    some [.start, .tx 0x00 true, .tx 0x4E true, .tx 0xCA true, .tx 0x03 true, .stop] := by decide +kernel
theorem test_wColor : (next? (exec (.wColor 0x20 0x05) (ready (wrote true [true, true]).looks))).map (·.trace) =
    some [.start, .tx 0x40 true, .tx 0x5E true, .tx 0x05 true, .stop] := by decide +kernel

/-! ## The lines -/

/-- V25: the 31 control-register writes of START 0x60, W, as digits DDIR SCLO SDAO, in the micro-steps it takes. -/
theorem test_start_writes :
    (ctrlWrites 97 ((ready (started true).looks).onward [.doStart 0x60 false])).map
        (fun c => 4 * c.ddir.toNat + 2 * c.sclo.toNat + c.sdao.toNat) =
      [3, 3, 6, 4, 5, 7, 5, 5, 7, 5, 4, 6, 4, 4, 6, 4, 4, 6, 4, 4, 6, 4, 4, 6, 4, 4, 6, 4, 1, 3, 1] := by decide +kernel

/-! ## Witnesses

For each statement with hypotheses, a concrete state and operands that meet all of them together, clause by clause and at
the ends of the ranges. -/

theorem exists_next {o : Host.Outcome State Fault Refusal} (h : (next? o).isSome = true) : ∃ t, o = .next t := by
  cases o with
  | next t => exact ⟨t, rfl⟩
  | fault f => cases h
  | refused r => cases h

/-- The invariants hold after program P3, step 2, whatever the host does next. -/
theorem inv_one (q : List HostMove) : Inv { one [] with hostQ := q } := by
  refine ⟨⟨by simp [one, ready, State.reset, Seq.idle], fun _ => rfl, fun _ => rfl⟩,
    ⟨⟨show (one []).nmax ≤ 32 by decide, show (one []).idx.toNat ≤ (one []).nmax by decide, rfl, ?_, ?_, ?_⟩, trivial⟩,
    ⟨Nat.zero_le _, fun k _ => by simp [one, ready, State.reset]⟩, ⟨nofun, fun _ => rfl, fun _ => rfl⟩⟩
  · intro i e he hi
    have h0 : i = 0 := by
      change i < 1 at hi
      omega
    subst h0
    cases he
    exact ⟨rfl, rfl, by decide⟩
  · intro i e he hi
    change 1 ≤ i at hi
    obtain ⟨j, rfl⟩ : ∃ j, i = j + 1 := ⟨i - 1, by omega⟩
    simp only [one, List.getElem?_cons_succ, List.getElem?_replicate] at he
    split at he
    · exact (Option.some.inj he).symm
    · cases he
  · intro i e he ht
    show i + 1 = 1
    cases i with
    | zero => rfl
    | succ j =>
      simp only [one, List.getElem?_cons_succ, List.getElem?_replicate] at he
      split at he
      · rw [← Option.some.inj he] at ht
        cases ht
      · cases he

theorem table_one (q : List HostMove) : TableInv { one [] with hostQ := q } := (inv_one q).chain.table

theorem witness_DecodeEncodeAgree : WellFormed (.wColor 0x7F 0xFF) = true := by decide

theorem witness_CommandWordHasOneMeaning : decodeCommand 0x0101007F = some (.start 0x7F true) := by decide

theorem witness_WireBytesHaveOneMeaning : decodeWire [0xFE, 0x40, 0xFF] = some (.wTickread 0x7F) := by decide

theorem witness_EveryStepKeepsTheInvariants :
    Inv (given (one []) 0x20000000) ∧ ∃ t, step (given (one []) 0x20000000) = .next t :=
  ⟨inv_one _, exists_next (by decide +kernel)⟩

/-- A step that goes on, one that refuses an access to an offset of no register, one that refuses a wire request. -/
theorem witness_StepsStopOnlyOnUndefinedRequests :
    PositionInv (given (one []) 0x20000000) ∧
    (PositionInv { one [] with hostQ := [⟨.read 0x24 32, none⟩] } ∧
      step { one [] with hostQ := [⟨.read 0x24 32, none⟩] } = .refused .hostAccess) ∧
    (PositionInv { one [] with wireReq := [0x40, 0xFF] } ∧
      step { one [] with wireReq := [0x40, 0xFF] } = .refused .notAWireCommand) :=
  ⟨(inv_one _).position, ⟨(inv_one _).position, rfl⟩, ⟨(inv_one []).position.1, fun _ => rfl, fun _ => rfl⟩, rfl⟩

theorem witness_StepRunsTheDecodedCommand :
    (given (ready []) 0x02000000).busy = false ∧ (given (ready []) 0x02000000).wireReq = [] ∧
      (given (ready []) 0x02000000).fatal = false ∧
      (given (ready []) 0x02000000).hostQ = ⟨.write 0x00 32 0x02000000, none⟩ :: [] ∧
      decodeCommand 0x02000000 = some .stop := ⟨rfl, rfl, rfl, rfl, rfl⟩

theorem witness_StepRunsTheWireRequest :
    (State.reset.withFetchWord 16 0x444C).busy = false ∧
      decodeWire (State.reset.withFetchWord 16 0x444C).wireReq = some (.wTerminate 0x22) := by decide +kernel

theorem witness_ChecksDecideInOrder :
    { ready [] with busy := true }.busy = true ∧
    ((ready []).busy = false ∧ { ready [] with fatal := true }.fatal = true ∧ (ready []).fatal = false ∧
      decodeCommand 0x00000000 = none ∧ decodeCommand 0x06000000 = some .init ∧ (ready []).initDone = true ∧
      decodeCommand 0x03000040 = some (.writebyte 0x40) ∧ State.reset.initDone = false ∧ (ready []).owned = false ∧
      decodeCommand 0x05007708 = some (.busscan 0x08 0x77) ∧ (owning []).owned = true) := by decide

theorem witness_BusyWriteIsDroppedAndOvrStays :
    { ready [] with busy := true }.busy = true ∧ { ready [] with ovr := true }.ovr = true ∧
      ∃ t, step { ready [] with ovr := true } = .next t := ⟨rfl, rfl, _, rfl⟩

/-- A state in which the host waits with these accesses. -/
def waiting (q : List HostMove) (gap : Option Nat) : State := { ready [] with hostQ := q, gap := gap }
/-- The block runs a command, at this line. -/
def running (line : Line) (q : List HostMove) (gap : Option Nat) : State :=
  { waiting q gap with busy := true, cmdw := 0x02000000, seq := { Seq.idle with line := line } }
/-- The host reads STATUS, and then polls. -/
def statusRead : HostMove := ⟨.read 0x04 32, none⟩

/-- Busy: an access is due; none is due at a command's first micro-step; a word that waits to be decoded in the fatal state,
an illegal one, and a legal one. -/
theorem witness_StepIsHostOrEngine :
    ((running .initCheck [statusRead] (some 0)).busy = true ∧
      (running .initCheck [statusRead] (some 0)).hostQ = statusRead :: [] ∧
      (running .initCheck [statusRead] (some 0)).gap = some 0) ∧
    ((running .initCheck [statusRead] (some 1)).busy = true ∧
      ((running .initCheck [statusRead] (some 1)).hostQ = [] ∨ (running .initCheck [statusRead] (some 1)).gap ≠ some 0) ∧
      (running .initCheck [statusRead] (some 1)).seq.line ≠ .none ∧
      (running .initCheck [statusRead] (some 1)).seq.line ≠ .decode) ∧
    ((running .decode [] none).busy = true ∧ (running .decode [] none).hostQ = [] ∧
      (running .decode [] none).seq.bus = [] ∧ (running .decode [] none).seq.line = .decode ∧
      { running .decode [] none with fatal := true }.fatal = true ∧ (running .decode [] none).fatal = false ∧
      decodeCommand { running .decode [] none with cmdw := 0 }.cmdw = none ∧
      decodeCommand (running .decode [] none).cmdw = some .stop) := by decide

/-- Idle: an access that is no write to CMD; a word followed at once by another access; nothing to do. -/
theorem witness_StepIsHostOrEngine_idle :
    ((waiting [statusRead] none).busy = false ∧ (waiting [statusRead] none).wireReq = [] ∧
      (waiting [statusRead] none).hostQ = statusRead :: []) ∧
    ((waiting [⟨.write 0 32 0x02000000, some 0⟩, statusRead] none).hostQ =
      ⟨.write (ready []).params.hostBase 32 0x02000000, some 0⟩ :: statusRead :: []) ∧
    (ready []).hostQ = [] := by decide

theorem witness_EntryReadsItsFields :
    (one []).entry[0]? = some ⟨0x20, true, true, true, 0⟩ ∧ (one []).entry[31]? = some Entry.zero := by decide

/-- A window at 0x1000 and the control-register bits at other places. -/
def elsewhere : State :=
  { ready [] with params := { Params.atReset with hostBase := 0x1000, ctrlDdirBit := 31, ctrlSclBit := 7, ctrlSdaBit := 0 } }

theorem witness_CtrlReadsTheLines :
    ((ready []).params.ctrlDdirBit ≠ (ready []).params.ctrlSclBit ∧
      (ready []).params.ctrlDdirBit ≠ (ready []).params.ctrlSdaBit ∧
      (ready []).params.ctrlSclBit ≠ (ready []).params.ctrlSdaBit) ∧
    (elsewhere.params.ctrlDdirBit ≠ elsewhere.params.ctrlSclBit ∧
      elsewhere.params.ctrlDdirBit ≠ elsewhere.params.ctrlSdaBit ∧
      elsewhere.params.ctrlSclBit ≠ elsewhere.params.ctrlSdaBit) := by decide

/-- The first and the last offset of the map. -/
theorem witness_EveryListedRegisterCanBeRead :
    (one []).listedOffset 0x00 ∧ (one []).listedOffset 0x20 ∧ (one []).listedOffset 0x40 ∧ (one []).listedOffset 0xBC :=
  ⟨.inl (by decide), .inl (by decide), .inr ⟨0, by decide⟩, .inr ⟨31, by decide⟩⟩

theorem witness_OtherWritesChangeNothing :
    ((one []).listedOffset 0x04 ∧ 0x04 ≠ 0x00) ∧ (one []).listedOffset 0x20 ∧ (one []).listedOffset 0xBC :=
  ⟨⟨.inl (by decide), by decide⟩, .inl (by decide), .inr ⟨31, by decide⟩⟩

/-- Each way to be undefined, at the ends of its range; and two accesses that are defined. -/
theorem witness_UndefinedAccessesAreRefused :
    elsewhere.undefinedAccess 0x1004 16 ∧ elsewhere.undefinedAccess 0xFFF 32 ∧ elsewhere.undefinedAccess 0x1002 32 ∧
      elsewhere.undefinedAccess 0x1024 32 ∧ elsewhere.undefinedAccess 0x103C 32 ∧
      elsewhere.undefinedAccess 0x10C0 32 ∧ ¬elsewhere.undefinedAccess 0x1000 32 ∧
      ¬elsewhere.undefinedAccess 0x10BC 32 := by
  unfold State.undefinedAccess
  decide

theorem witness_LineWritesSetTheControlRegister : (ready []).gap = none := rfl

/-- A rise that the slave delays by three reads (V20). -/
def late : Rise := ⟨[true, false, true], false⟩

theorem witness_SclRaiseWaitsForTheLine :
    (ready (late.looks ++ [])).gap = none ∧ (ready (late.looks ++ [])).looks = late.looks ++ [] := ⟨rfl, rfl⟩

theorem witness_WaitIdleWaitsForBothLines :
    let ms : List Miss := [.scl false ⟨true, true⟩, .scl true ⟨false, false⟩, .sda true false]
    let s := ready (ms.flatMap Miss.looks ++ ⟨true, false⟩ :: ⟨false, true⟩ :: [])
    s.gap = none ∧ s.ctrl.sclo = true ∧ s.ctrl.releasesSda = true ∧
      s.looks = ms.flatMap Miss.looks ++ ⟨true, false⟩ :: ⟨false, true⟩ :: [] := ⟨rfl, rfl, rfl, rfl⟩

theorem witness_BitCellCarriesOneBit :
    (owning ((cell true).looks ++ [])).gap = none ∧ (owning ((cell true).looks ++ [])).ctrl.sclo = false ∧
      (owning ((cell true).looks ++ [])).looks = (cell true).looks ++ [] := ⟨rfl, rfl, rfl⟩

theorem witness_TxByteSendsAndRecords :
    (owning ((heard true).looks ++ [])).gap = none ∧ (owning ((heard true).looks ++ [])).ctrl.sclo = false ∧
      (owning ((heard true).looks ++ [])).looks = (heard true).looks ++ [] := ⟨rfl, rfl, rfl⟩

theorem witness_RxByteReceivesAndAcks :
    (owning ((sent 0xA5 true).looks ++ [])).gap = none ∧ (owning ((sent 0xA5 true).looks ++ [])).ctrl.sclo = false ∧
      (owning ((sent 0xA5 true).looks ++ [])).looks = (sent 0xA5 true).looks ++ [] := ⟨rfl, rfl, rfl⟩

/-- On a free bus and as a restart. -/
theorem witness_DoStartMakesTheCondition :
    (ready ((started true).looks ++ [])).gap = none ∧
      (ready ((started true).looks ++ [])).looks = (started true).looks ++ [] ∧
      (owning ((started false).looks ++ [])).gap = none ∧
      (owning ((started false).looks ++ [])).looks = (started false).looks ++ [] := ⟨rfl, rfl, rfl, rfl⟩

theorem witness_DoStopMakesTheCondition :
    (owning (late.looks ++ [])).gap = none ∧ (owning (late.looks ++ [])).looks = late.looks ++ [] := ⟨rfl, rfl⟩

/-- With fifteen frames recorded, and with sixteen (V56). -/
theorem witness_RecordKeepsSixteenAcks :
    let full : State := { owning [] with ackvec := 0xFFFF, nb := 16 }
    let almost : State := { owning [] with ackvec := 0x7FFF, nb := 15 }
    full.ackvec = ackBits (List.replicate 17 true) ∧ full.nb = ackCount (List.replicate 17 true) ∧
      almost.ackvec = ackBits (List.replicate 15 true) ∧ almost.nb = ackCount (List.replicate 15 true) := by decide

theorem witness_InitChecksTheVersion :
    State.reset.gap = none ∧ State.reset.fatal = false ∧ State.reset.initDone = false ∧
      State.reset.params.hwVersion = State.reset.params.expectedVersion ∧
      { Params.atReset with hwVersion := 1 }.hwVersion ≠ { Params.atReset with hwVersion := 1 }.expectedVersion := by
  decide

theorem witness_StartEndsWithTheAck :
    let s := ready ((started true).looks ++ [])
    s.gap = none ∧ s.fatal = false ∧ s.initDone = true ∧ (0x7F : Byte) ≤ 0x7F ∧ s.looks = (started true).looks ++ [] :=
  ⟨rfl, rfl, rfl, by decide, rfl⟩

/-- The host polls; and it has an access to come, not yet due. -/
theorem witness_AddressAboveMaxIsRejected :
    (((ready []).hostQ = [] ∨ (ready []).gap ≠ some 0) ∧ (ready []).fatal = false ∧ (ready []).initDone = true ∧
      (0x7F : Byte) < 0x80 ∧ (ready []).owned = false) ∧
    (let s := waiting [statusRead] (some 1)
     (s.hostQ = [] ∨ s.gap ≠ some 0) ∧ s.fatal = false ∧ s.initDone = true ∧ (0x7F : Byte) < 0xFF ∧ s.owned = false) := by
  decide

theorem witness_StopReleasesTheBus :
    let s := owning (late.looks ++ [])
    s.gap = none ∧ s.fatal = false ∧ s.initDone = true ∧ s.looks = late.looks ++ [] := ⟨rfl, rfl, rfl, rfl⟩

theorem witness_WritebyteEndsWithTheAck :
    let s := owning ((heard false).looks ++ [])
    s.gap = none ∧ s.fatal = false ∧ s.initDone = true ∧ s.owned = true ∧ s.ctrl.sclo = false ∧
      s.looks = (heard false).looks ++ [] := ⟨rfl, rfl, rfl, rfl, rfl, rfl⟩

theorem witness_ReadbyteReturnsTheByte :
    let s := owning ((sent 0x3C false).looks ++ [])
    s.gap = none ∧ s.fatal = false ∧ s.initDone = true ∧ s.owned = true ∧ s.ctrl.sclo = false ∧
      s.looks = (sent 0x3C false).looks ++ [] := ⟨rfl, rfl, rfl, rfl, rfl, rfl⟩

/-- A range that crosses ADDR_MAX (V64), and an empty one (V63). -/
theorem witness_BusscanCountsTheAcks :
    let ps := [pinged true, pinged false]
    let s := ready (ps.flatMap Ping.looks ++ [])
    s.gap = none ∧ s.fatal = false ∧ s.initDone = true ∧ s.owned = false ∧ ps.length = (scanned 0x7E 0x81).length ∧
      s.looks = ps.flatMap Ping.looks ++ [] ∧ ([] : List Ping).length = (scanned 0x05 0x03).length ∧
      (ready []).looks = ([] : List Ping).flatMap Ping.looks ++ [] :=
  ⟨rfl, rfl, rfl, rfl, by decide, rfl, by decide, rfl⟩

/-- The six bytes of V70. -/
def six : List Byte := [0x11, 0x22, 0x33, 0x44, 0x55, 0x66]

theorem witness_TickreadDeliversSixBytes :
    let x := read true six
    let s := one (x.looks ++ [])
    s.gap = none ∧ s.fatal = false ∧ s.initDone = true ∧ s.owned = false ∧ (0x20 : Byte) ≤ 0x7F ∧ x.fits 1 6 ∧
      x.restart.acked = true ∧ s.looks = x.looks ++ [] :=
  ⟨rfl, rfl, rfl, rfl, by decide, ⟨rfl, rfl, rfl⟩, rfl, rfl⟩

theorem witness_TickreadNackLeavesRxbuf :
    (let w := wrote false []
     let s := one (w.looks ++ [])
     s.gap = none ∧ s.fatal = false ∧ s.initDone = true ∧ s.owned = false ∧ (0x20 : Byte) ≤ 0x7F ∧ w.fits 1 ∧
       w.start.acked = false ∧ s.looks = w.looks ++ []) ∧
    (let x := read false []
     let s := one (x.looks ++ [])
     s.gap = none ∧ s.fatal = false ∧ s.initDone = true ∧ s.owned = false ∧ x.fits 1 6 ∧ x.restart.acked = false ∧
       s.looks = x.looks ++ []) :=
  ⟨⟨rfl, rfl, rfl, rfl, by decide, rfl, rfl, rfl⟩, ⟨rfl, rfl, rfl, rfl, ⟨rfl, rfl, rfl⟩, rfl, rfl⟩⟩

theorem witness_DeviceWritesEndWithTheStartAck :
    (let w := wrote true [true]
     let s := one (w.looks ++ [])
     s.gap = none ∧ s.fatal = false ∧ s.initDone = true ∧ s.owned = false ∧ (0x7F : Byte) ≤ 0x7F ∧
       s.looks = w.looks ++ [] ∧ w.fits 1) ∧
    (let w := wrote true [true, false]
     let s := one (w.looks ++ [])
     s.gap = none ∧ s.looks = w.looks ++ [] ∧ w.fits 2) ∧
    (let w := wrote false []
     let s := one (w.looks ++ [])
     s.gap = none ∧ s.looks = w.looks ++ [] ∧ w.fits 1 ∧ w.fits 2) :=
  ⟨⟨rfl, rfl, rfl, rfl, by decide, rfl, rfl⟩, ⟨rfl, rfl, rfl⟩, rfl, rfl, rfl, rfl⟩

theorem witness_TouchMarksTheAddressedEntry :
    (one []).entry[0]? = some ⟨0x20, true, true, true, 0⟩ ∧ (0 < (one []).idx.toNat ∧ true = true ∧ (0x20 : BusAddr) = 0x20) ∧
      (one []).entry[31]? = some Entry.zero ∧ ¬(31 < (one []).idx.toNat) := by decide

theorem witness_GcallResetDestroysTheTable :
    let w := wrote true [true, true, true]
    let s := one (w.looks ++ [])
    s.gap = none ∧ s.fatal = false ∧ s.initDone = true ∧ s.owned = false ∧ w.fits 3 ∧ s.looks = w.looks ++ [] :=
  ⟨rfl, rfl, rfl, rfl, rfl, rfl⟩

theorem witness_ReclaimOnlyClearsTheCounter :
    let w := wrote true [true]
    let s := { one (w.looks ++ []) with enumFailed := true }
    s.gap = none ∧ s.fatal = false ∧ s.initDone = true ∧ s.owned = false ∧ (0x20 : Byte) ≤ 0x7F ∧ 0 < s.idx.toNat ∧
      s.entry[0]? = some ⟨0x20, true, true, true, 0⟩ ∧ (0x20 : BusAddr) = (0x20 : Byte).setWidth 7 ∧ w.fits 1 ∧
      s.looks = w.looks ++ [] :=
  ⟨rfl, rfl, rfl, rfl, by decide, by decide, rfl, by decide, rfl, rfl⟩

/-- 0xFF asks for a new device, and so does 0 (V37, V92). -/
theorem one_asks (l : List Drive) : asksForNew (one l) 0xFF ∧ asksForNew (one l) 0 := by
  refine ⟨.inl (by decide), .inr fun i e hi he _ => ?_⟩
  have h0 : i = 0 := by
    change i < 1 at hi
    omega
  subst h0
  cases he
  decide

theorem ready_asks (l : List Drive) : asksForNew (ready l) 0 :=
  .inr fun i e hi _ _ => by
    change i < 0 at hi
    omega

theorem one_open (l : List Drive) : GatesOpen (one l) :=
  ⟨rfl, show (one []).idx.toNat < (one []).nmax by decide, fun _ => ⟨rfl, rfl⟩⟩
theorem ready_open (l : List Drive) : GatesOpen (ready l) :=
  ⟨rfl, show (ready []).idx.toNat < (ready []).nmax by decide, fun h => absurd rfl h⟩
def once : Probing := ⟨none, wrote true []⟩
def twice : Probing := ⟨some (wrote false []), wrote true []⟩
theorem once_fits : once.fits := by
  refine ⟨fun w h => ?_, rfl⟩
  simp [once] at h
theorem twice_fits : twice.fits := by
  refine ⟨fun w h => ?_, rfl⟩
  rw [← Option.some.inj (show some (wrote false []) = some w from h)]
  exact ⟨rfl, rfl⟩
theorem one_looks (l : List Drive) : (one l).looks = l := rfl
theorem ready_looks (l : List Drive) : (ready l).looks = l := rfl
theorem one_handoff (l : List Drive) : (one l).handoffFits (wrote true [true]) := rfl
theorem ready_handoff (l : List Drive) : (ready l).handoffFits (wrote false []) := rfl
theorem one_rollback (l : List Drive) (w : Write) : (one l).rollbackLooks w = w.looks := rfl
theorem ready_rollback (l : List Drive) (w : Write) : (ready l).rollbackLooks w = [] := rfl

/-- Latched (V88), full (V89), broken (V82). -/
theorem witness_ClaimGatesStopWithoutTraffic :
    let s := one []
    let broken := { s with entry := [⟨0x20, true, false, true, 0⟩, Entry.zero] }
    let full := { s with entry := [⟨0x20, true, true, true, 0⟩] }
    (s.gap = none ∧ s.fatal = false ∧ s.initDone = true ∧ s.owned = false ∧ asksForNew s 0xFF) ∧
    { s with enumFailed := true }.enumFailed = true ∧
    (asksForNew full 0xFF ∧ full.enumFailed = false ∧ full.nmax ≤ full.idx.toNat) ∧
    (asksForNew broken 0xFF ∧ broken.enumFailed = false ∧ broken.idx.toNat < broken.nmax ∧ broken.idx ≠ 0 ∧
      ¬(broken.prevEntry.registered = true ∧ broken.prevEntry.active = true)) :=
  ⟨⟨rfl, rfl, rfl, rfl, .inl (by decide)⟩, rfl, ⟨.inl (by decide), rfl, by decide⟩, .inl (by decide), rfl, by decide,
    by decide, by decide⟩

/-- A first claim without a retry (P3 step 2). -/
theorem witness_ClaimEnumeratesTheNextDevice :
    let h := wrote false []
    let p := once
    let c := wrote true [true, true]
    let t := wrote true [true]
    let s := ready (h.looks ++ (p.looks ++ (c.looks ++ (t.looks ++ (t.looks ++ [])))))
    s.gap = none ∧ s.fatal = false ∧ s.initDone = true ∧ s.owned = false ∧ asksForNew s 0 ∧ GatesOpen s ∧
      s.handoffFits h ∧ (s.idx ≠ 0 → h.start.acked = true) ∧ p.fits ∧ p.last.start.acked = true ∧ c.fits 2 ∧
      c.start.acked = true ∧ t.fits 1 ∧ t.start.acked = true ∧
      s.looks = h.looks ++ (p.looks ++ (c.looks ++ (t.looks ++ (t.looks ++ [])))) := by
  intro h p c t s
  exact ⟨rfl, rfl, rfl, rfl, ready_asks _, ready_open _, ready_handoff _, fun h => absurd rfl h, once_fits, rfl, rfl,
    rfl, rfl, rfl, ready_looks _⟩

/-- A later claim with a retry (V84). -/
theorem witness_ClaimEnumeratesTheNextDevice_retry :
    let h := wrote true [true]
    let p := twice
    let c := wrote true [true, true]
    let s := one (h.looks ++ (p.looks ++ (c.looks ++ (h.looks ++ (h.looks ++ [])))))
    s.gap = none ∧ s.fatal = false ∧ s.initDone = true ∧ s.owned = false ∧ asksForNew s 0 ∧ GatesOpen s ∧
      s.handoffFits h ∧ (s.idx ≠ 0 → h.start.acked = true) ∧ p.fits ∧ p.last.start.acked = true ∧ c.fits 2 ∧
      c.start.acked = true ∧ h.fits 1 ∧ h.start.acked = true ∧
      s.looks = h.looks ++ (p.looks ++ (c.looks ++ (h.looks ++ (h.looks ++ [])))) := by
  intro h p c s
  exact ⟨rfl, rfl, rfl, rfl, (one_asks _).2, one_open _, one_handoff _, fun _ => rfl,
    twice_fits, rfl, rfl, rfl, rfl, rfl, one_looks _⟩

theorem witness_ClaimPropagateNackedRollsBack :
    let h := wrote false []
    let s := one (h.looks ++ (h.looks ++ []))
    s.gap = none ∧ s.fatal = false ∧ s.initDone = true ∧ s.owned = false ∧ asksForNew s 0 ∧ GatesOpen s ∧ s.idx ≠ 0 ∧
      h.fits 1 ∧ h.start.acked = false ∧ s.looks = h.looks ++ (h.looks ++ []) := by
  intro h s
  exact ⟨rfl, rfl, rfl, rfl, (one_asks _).2, one_open _, nofun, rfl, rfl, one_looks _⟩

/-- The first claim (V87). -/
theorem witness_ClaimWithoutBootDeviceRollsBack :
    let h := wrote false []
    let s := ready (h.looks ++ (h.looks ++ (h.looks ++ ([] ++ []))))
    s.gap = none ∧ s.fatal = false ∧ s.initDone = true ∧ s.owned = false ∧ asksForNew s 0 ∧ GatesOpen s ∧
      s.handoffFits h ∧ (s.idx ≠ 0 → h.start.acked = true) ∧ h.fits 0 ∧ h.start.acked = false ∧ h.fits 1 ∧
      s.looks = h.looks ++ (h.looks ++ (h.looks ++ (s.rollbackLooks h ++ []))) := by
  intro h s
  refine ⟨rfl, rfl, rfl, rfl, ready_asks _, ready_open _, ready_handoff _, fun h => absurd rfl h, rfl, rfl, rfl, ?_⟩
  rw [ready_rollback, ready_looks]

/-- A later claim (P3 step 4). -/
theorem witness_ClaimWithoutBootDeviceRollsBack_later :
    let h := wrote true [true]
    let p := wrote false []
    let s := one (h.looks ++ (p.looks ++ (p.looks ++ (h.looks ++ []))))
    s.gap = none ∧ s.fatal = false ∧ s.initDone = true ∧ s.owned = false ∧ asksForNew s 0 ∧ GatesOpen s ∧
      s.handoffFits h ∧ (s.idx ≠ 0 → h.start.acked = true) ∧ p.fits 0 ∧ p.start.acked = false ∧ h.fits 1 ∧
      s.looks = h.looks ++ (p.looks ++ (p.looks ++ (s.rollbackLooks h ++ []))) := by
  intro h p s
  refine ⟨rfl, rfl, rfl, rfl, (one_asks _).2, one_open _, one_handoff _, fun _ => rfl, rfl, rfl, rfl, ?_⟩
  rw [one_rollback, one_looks]

/-- V85. -/
theorem witness_ClaimHandshakeNackedRollsBack :
    let h := wrote true [true]
    let p := once
    let c := wrote false []
    let s := one (h.looks ++ (p.looks ++ (c.looks ++ (h.looks ++ []))))
    s.gap = none ∧ s.fatal = false ∧ s.initDone = true ∧ s.owned = false ∧ asksForNew s 0 ∧ GatesOpen s ∧
      s.handoffFits h ∧ (s.idx ≠ 0 → h.start.acked = true) ∧ p.fits ∧ p.last.start.acked = true ∧ c.fits 2 ∧ h.fits 1 ∧
      c.start.acked = false ∧ s.looks = h.looks ++ (p.looks ++ (c.looks ++ (s.rollbackLooks h ++ []))) := by
  intro h p c s
  refine ⟨rfl, rfl, rfl, rfl, (one_asks _).2, one_open _, one_handoff _, fun _ => rfl, once_fits, rfl, rfl, rfl, rfl,
    ?_⟩
  rw [one_rollback, one_looks]

/-- V86. -/
theorem witness_ClaimHandshakeNackedRollsBack_terminate :
    let h := wrote true [true]
    let p := once
    let c := wrote true [true, true]
    let t := wrote false []
    let s := one (h.looks ++ (p.looks ++ (c.looks ++ (t.looks ++ (h.looks ++ [])))))
    s.gap = none ∧ s.fatal = false ∧ s.initDone = true ∧ s.owned = false ∧ asksForNew s 0 ∧ GatesOpen s ∧
      s.handoffFits h ∧ (s.idx ≠ 0 → h.start.acked = true) ∧ p.fits ∧ p.last.start.acked = true ∧ c.fits 2 ∧ t.fits 1 ∧
      h.fits 1 ∧ c.start.acked = true ∧ t.start.acked = false ∧
      s.looks = h.looks ++ (p.looks ++ (c.looks ++ (t.looks ++ (s.rollbackLooks h ++ [])))) := by
  intro h p c t s
  refine ⟨rfl, rfl, rfl, rfl, (one_asks _).2, one_open _, one_handoff _, fun _ => rfl, once_fits, rfl, rfl, rfl, rfl,
    rfl, rfl, ?_⟩
  rw [one_rollback, one_looks]

/-- A claim that ends with an assignment, and one that ends without (a full table). -/
theorem witness_ClaimAssignsTheNextAddressOrNone :
    (let l := (wrote true [true]).looks ++ (wrote true []).looks ++ (wrote true [true, true]).looks ++
       (wrote true [true]).looks ++ (wrote true [true]).looks
     TableInv { one [] with looks := l } ∧ { one [] with looks := l }.gap = none ∧
       { one [] with looks := l }.fatal = false ∧ { one [] with looks := l }.initDone = true ∧
       { one [] with looks := l }.owned = false ∧ asksForNew { one [] with looks := l } 0 ∧
       (next? (exec (.claim 0) { one [] with looks := l })).map (fun t => (t.busy, t.ok)) = some (false, true)) ∧
    (let s := { one [] with enumFailed := true }
     TableInv s ∧ s.gap = none ∧ s.fatal = false ∧ s.initDone = true ∧ s.owned = false ∧ asksForNew s 0xFF ∧
       (next? (exec (.claim 0xFF) s)).map (fun t => (t.busy, t.ok)) = some (false, false)) :=
  ⟨⟨table_of_eq (table_one []) rfl rfl rfl, rfl, rfl, rfl, rfl, (one_asks _).2, by decide +kernel⟩,
    ⟨table_of_eq (table_one []) rfl rfl rfl, rfl, rfl, rfl, rfl, .inl (by decide), by decide +kernel⟩⟩

/-- A probe and the longest one, the general call. -/
theorem witness_WireWritesSendTheirBytes :
    (let w := wrote true []
     let s := ready (w.looks ++ [])
     s.gap = none ∧ s.owned = false ∧ (0x7F : Byte) ≤ 0x7F ∧ s.looks = w.looks ++ [] ∧ w.fits ([] : List Byte).length) ∧
    (let w := wrote true [true, true, true]
     let s := ready (w.looks ++ [])
     s.gap = none ∧ s.owned = false ∧ s.looks = w.looks ++ [] ∧ w.fits ([0x4E, 0xCA, 0x03] : List Byte).length) :=
  ⟨⟨rfl, rfl, by decide, rfl, rfl⟩, rfl, rfl, rfl, rfl⟩

theorem witness_WireTickreadReadsSixBytes :
    (let x := read true six
     let s := ready (x.looks ++ [])
     s.gap = none ∧ s.owned = false ∧ (0x7F : Byte) ≤ 0x7F ∧ x.fits 1 6 ∧ s.looks = x.looks ++ []) ∧
    (let w := wrote false []
     let s := ready (w.looks ++ [])
     s.gap = none ∧ s.owned = false ∧ w.fits 1 ∧ w.start.acked = false ∧ s.looks = w.looks ++ []) :=
  ⟨⟨rfl, rfl, by decide, ⟨rfl, rfl, rfl⟩, rfl⟩, rfl, rfl, rfl, rfl, rfl⟩

theorem witness_WireTargetAboveMaxIsRejected :
    (0x7F : Byte) < 0x80 ∧ Instr.wColor 0x80 0 ∈ [.wProbe 0x80, .wTickread 0x80, .wReset 0x80, .wPropagate 0x80,
      .wTerminate 0x80, .wColor 0x80 0] := by decide

/-- START on a bus that answers, and the same left before the engine's first micro-step for a read of STATUS. -/
theorem witness_RawCommandsNeverTouchTheChain :
    (∃ t, exec (.start 0x20 false) (one (started true).looks) = .next t) ∧
    (let s : State := { one (started true).looks with busy := true }.goto [.doStart 0x20 false] .startDone
     s.busy = true ∧ s.runsRaw ∧ (∃ t, step s = .next t) ∧
       step { s with hostQ := [statusRead], gap := some 0 } =
         .next { s with hostRd := 0x0000000B }) :=
  ⟨exists_next (by decide +kernel), rfl, ⟨by decide, by decide⟩, exists_next (by decide +kernel), rfl⟩

/-- DEV_RESET of a registered device, and a tick read of an absent one. -/
theorem witness_OnlyTickreadWritesRxbuf :
    (∀ a, Instr.devReset 0x20 ≠ .devTickread a) ∧ (∃ t, exec (.devReset 0x20) (one (wrote true [true]).looks) = .next t) ∧
      (next? (exec (.devTickread 0x20) (one []))).map (·.ok) = some false :=
  ⟨nofun, exists_next (by decide +kernel), by decide +kernel⟩

/-- A device command left at its last line; the copying lines, first and last, and the line before them. -/
theorem witness_OnlyTickreadWritesRxbuf_ticks :
    ((running .devDone [] none).busy = true ∧ (running .devDone [] none).seq.line.ofTickread = false ∧
      (running .devDone [] none).seq.line ≠ .decode ∧ (running .devDone [] none).seq.line.keepsRx = false) ∧
    ((running (.tickreadKeep 0) [] none).seq.bus = [] ∧
      (running (.tickreadKeep 0) [] none).seq.line = .tickreadKeep 0 ∧
      (running (.tickreadKeep 5) [] none).seq.line = .tickreadKeep 5) ∧
    (let s := running .tickreadDone [] none
     (tick { s with seq := { s.seq with okx := true } }).seq.line.keepsRx = true) := by decide

theorem witness_OnlyTickreadWritesRxbuf_step : ∃ t, step (running .devDone [] none) = .next t :=
  exists_next (by decide +kernel)

theorem witness_OnlyGcallResetClearsTheChain :
    Instr.claim 0x20 ≠ .gcallReset ∧ (∃ t, exec (.claim 0x20) { one [] with enumFailed := true } = .next t) ∧
      { one [] with enumFailed := true }.enumFailed = true ∧ TableInv (one []) ∧
      (one []).entry[0]? = some ⟨0x20, true, true, true, 0⟩ :=
  ⟨nofun, exists_next (by decide +kernel), rfl, table_one [], rfl⟩

/-- A device command left at its last line; GCALL_RESET at the turn of its loop for entry 0, and at the latch. -/
theorem witness_OnlyGcallResetClearsTheChain_ticks :
    (let s : State := { one [] with busy := true }.goto [] .devDone
     s.busy = true ∧ ChainInv s ∧ s.seq.line.ofGcall = false ∧ s.seq.line ≠ .decode ∧ ∃ t, step s = .next t) ∧
    (let s : State := { one [] with enumFailed := true }.goto [] .gcallLatch
     s.enumFailed = true ∧ s.seq.line = .gcallLatch ∧ (tick s).enumFailed = false) ∧
    (let s : State := (one []).goto [] (.gcallEntry 0)
     ChainInv s ∧ s.entry[0]? = some ⟨0x20, true, true, true, 0⟩ ∧ (tick s).entry[0]? = some Entry.zero) :=
  ⟨⟨rfl, ⟨table_of_eq (table_one []) rfl rfl rfl, trivial⟩, rfl, nofun, exists_next (by decide +kernel)⟩, ⟨rfl, rfl, rfl⟩,
    ⟨⟨rfl, (table_one []).room, (table_one []).idx, fun _ _ _ h => absurd h (Nat.not_lt_zero _)⟩, trivial⟩, rfl, rfl⟩

theorem witness_StepsKeepLatchesAndParameters :
    (∃ t, step (given (ready []) 0x02000000) = .next t) ∧ (given (ready []) 0x02000000).initDone = true ∧
      (∃ t, step (given { ready [] with fatal := true } 0x02000000) = .next t) :=
  ⟨exists_next (by decide +kernel), rfl, exists_next (by decide +kernel)⟩

theorem witness_FatalRefusesEveryCommand :
    { State.reset with fatal := true }.fatal = true ∧ decodeCommand 0x05007708 = some (.busscan 0x08 0x77) := by decide

/-- Waiting for SCL, for the idle bus, and at its second read. -/
theorem witness_HangLastsForever :
    let s : State := { ready [] with busy := true, env := ⟨false, false⟩ }
    [s.onward [.awaitScl], s.onward [.awaitIdle], { s with env := ⟨true, false⟩ }.onward [.awaitIdleSda true],
      { s with env := ⟨false, true⟩ }.onward [.awaitIdleSda false]].all
      (fun s => s.busy && s.hung && s.hostQ.isEmpty) = true := by decide

theorem witness_EveryInstructionEndsOrWaits : WellFormed (.wProbe 0x7F) = true ∧ (ready []).gap = none := by decide

end Sys2Proof.Tests
end

section
/-! The step, one equation per branch: which agent acts, and what a decoded word does (00_scope.md R13, 60_exceptions.md
R244). The statements of 00_scope.md are settled from them. -/

namespace Sys2Proof.Machine

/-! ## When the host is due -/

theorem hostDue_of_gap_zero {s : State} {m : HostMove} {q : List HostMove} (hq : s.hostQ = m :: q)
    (hg : s.gap = some 0) : s.hostDue = true := by simp [State.hostDue, hq, hg]

theorem hostDue_eq_false_iff {s : State} : s.hostDue = false ↔ s.hostQ = [] ∨ s.gap ≠ some 0 := by
  cases hq : s.hostQ <;> simp [State.hostDue, hq]

/-! ## Which agent a step runs -/

theorem step_of_hostDue {s : State} {m : HostMove} {q : List HostMove} (hb : s.busy = true) (hq : s.hostQ = m :: q)
    (hd : s.hostDue = true) : step s = hostStep m q s := by simp [step, hb, hq, hd]

theorem step_of_not_hostDue {s : State} (hb : s.busy = true) (hd : s.hostDue = false) : step s = engineStep s := by
  cases hq : s.hostQ <;> simp [step, hb, hq, hd]

theorem step_of_wireReq {s : State} (hb : s.busy = false) (hw : s.wireReq ≠ []) : step s = wireStep s := by
  simp [step, hb, hw]

theorem step_of_idle_host {s : State} {m : HostMove} {q : List HostMove} (hb : s.busy = false) (hw : s.wireReq = [])
    (hq : s.hostQ = m :: q) : step s = hostStep m q s := by simp [step, hb, hw, hq]

theorem step_of_idle {s : State} (hb : s.busy = false) (hw : s.wireReq = []) (hq : s.hostQ = []) :
    step s = .next s := by simp [step, hb, hw, hq]

/-! ## What the engine does -/

theorem engineStep_of_running {s : State} (h0 : s.seq.line ≠ .none) (h1 : s.seq.line ≠ .decode) :
    engineStep s = .next (engineRun s) := by simp [engineStep, h0, h1]

theorem engineStep_of_decode {s : State} (hs : s.seq.bus = []) (hl : s.seq.line = .decode) :
    engineStep s = runCommand s.pass := by simp [engineStep, hs, hl]

theorem runCommand_of_fatal {s : State} (hf : s.fatal = true) : runCommand s = .next (s.refuse .fatal) := by
  simp [runCommand, hf]

theorem runCommand_of_illegal {s : State} (hf : s.fatal = false) (hw : decodeCommand s.cmdw = none) :
    runCommand s = .next (s.refuse .illegalCmd) := by simp [runCommand, hf, hw]

theorem runCommand_of_decoded {s : State} {i : Instr} (hf : s.fatal = false) (hw : decodeCommand s.cmdw = some i) :
    runCommand s = exec i s := by simp [runCommand, hf, hw]

/-! ## What a write to CMD does -/

theorem hostCommand_of_busy {s : State} (w : Word) (hb : s.busy = true) :
    hostCommand w s = .next { s with ovr := true } := by simp [hostCommand, hb]

theorem hostCommand_of_due {s : State} (w : Word) (hb : s.busy = false) (hd : s.hostDue = true) :
    hostCommand w s = .next (accept w s) := by
  have hd' : (accept w s).hostDue = true := hd
  simp [hostCommand, hb, hd']

theorem hostCommand_of_not_due {s : State} (w : Word) (hb : s.busy = false) (hd : s.hostDue = false) :
    hostCommand w s = runCommand (accept w s).pass := by
  have hd' : (accept w s).hostDue = false := hd
  simp [hostCommand, hb, hd']

/-! ## The step while busy and while idle -/

/-- A waiting word is decoded when the host is not due. -/
theorem step_of_decode {s : State} (hb : s.busy = true) (hd : s.hostDue = false) (hs : s.seq.bus = [])
    (hl : s.seq.line = .decode) : step s = runCommand s.pass := by
  rw [step_of_not_hostDue hb hd, engineStep_of_decode hs hl]

/-- A running command goes on when the host is not due. -/
theorem step_of_running {s : State} (hb : s.busy = true) (hd : s.hostDue = false) (h0 : s.seq.line ≠ .none)
    (h1 : s.seq.line ≠ .decode) : step s = .next (engineRun s) := by
  rw [step_of_not_hostDue hb hd, engineStep_of_running h0 h1]

/-- A word that the host follows at once with another access is accepted and waits to be decoded (log 24). -/
theorem step_of_word_and_access {s : State} {w : Word} {m : HostMove} {q : List HostMove} (hb : s.busy = false)
    (hw : s.wireReq = []) (hq : s.hostQ = ⟨.write s.params.hostBase 32 w, some 0⟩ :: m :: q) :
    step s = .next (s.decoding w (m :: q) (some 0)) := by
  let u : State := { s with hostQ := m :: q, gap := some 0 }
  calc step s = hostAccess (.write u.params.hostBase 32 w) u := step_of_idle_host hb hw hq
    _ = hostCommand w u := hostAccess_cmd u w
    _ = .next (accept w u) := hostCommand_of_due w hb (hostDue_of_gap_zero rfl rfl)

end Sys2Proof.Machine

open Sys2Proof Sys2Proof.Machine

/-- Settles O14: while busy by whether the host is due, and then by the engine's line; while idle by the host's list. -/
theorem stepIsHostOrEngine : Obligations.StepIsHostOrEngine := by
  intro s
  constructor
  · intro hb
    refine ⟨fun m q hq hg => step_of_hostDue hb hq (hostDue_of_gap_zero hq hg), fun hn => ?_⟩
    have hd : s.hostDue = false := hostDue_eq_false_iff.2 hn
    refine ⟨step_of_running hb hd, fun hs hl => ?_⟩
    rw [step_of_decode hb hd hs hl]
    exact ⟨runCommand_of_fatal (s := s.pass), runCommand_of_illegal (s := s.pass),
      fun _ => runCommand_of_decoded (s := s.pass)⟩
  · intro hb hw
    exact ⟨fun m q => step_of_idle_host hb hw, fun w m q => step_of_word_and_access hb hw, step_of_idle hb hw⟩

/-- Settles O59: each name of the configuration unfolds to its value in the table of 00_scope.md R7. -/
theorem namedValuesAreTheSpecs : Obligations.NamedValuesAreTheSpecs := by
  unfold Obligations.NamedValuesAreTheSpecs
  decide

end

section
/-! What every run of an instruction and every step keeps: the invariants (10_state.md R25, R27, R30, R35, R36, R38,
R39). -/

namespace Sys2Proof.Machine

/-! ## Keeping a property through `exec` -/

/-- A property holds after `exec` if the micro-steps keep it and it holds at each way an instruction can begin or be
turned away. -/
theorem executed_keeps {P : State → Prop} {i : Instr} {s t : State} (hx : Executed i s t)
    (htick : ∀ u, P u → P (tick u)) (hrefuse : ∀ e, P (s.refuse e))
    (htarget : WellFormed i = false → P { s with seq := { s.seq with okx := false, rx := [] } })
    (hrange : P ({ s with busy := true }.goto [] (.finish false .addrRange 0)))
    (hran : (∀ n, needsOf i = some n → firstFailure n s = .none) → P (s.launched i)) : P t := by
  cases hx with
  | refused e => exact hrefuse e
  | range => exact engineRun_keeps htick _ hrange
  | target h => exact htarget h
  | ran h => exact engineRun_keeps htick _ (hran h)

/-! ## The invariants of a state at rest -/

/-- `t` has the parts of `s` that the invariants speak of, the sequencer's line apart. -/
structure SameBlock (s t : State) : Prop where
  ctrl : t.ctrl = s.ctrl
  owned : t.owned = s.owned
  initDone : t.initDone = s.initDone
  ackvec : t.ackvec = s.ackvec
  nb : t.nb = s.nb
  retryW : t.retryW = s.retryW
  idx : t.idx = s.idx
  nextAddr : t.nextAddr = s.nextAddr
  entry : t.entry = s.entry

/-- The invariants do not speak of the host's accesses, its reads, `ovr`, or the environment. -/
theorem inv_of_same {s t : State} (h : Inv s) (hs : SameBlock s t) (hb : t.busy = s.busy) (hq : t.seq = s.seq) :
    Inv t where
  position := ⟨by rw [hb, hq]; exact h.position.busy, by rw [hq]; exact h.position.none,
    by rw [hq]; exact h.position.decode⟩
  chain := ⟨tableAt_of_eq h.chain.table hq hs.entry hs.idx hs.nextAddr,
    claimInv_same h.chain.claim (by rw [hq]) (by rw [hq]) hs.idx hs.nextAddr hs.retryW (hs.entry ▸ SameTable.refl _ _)⟩
  record := record_of_eq h.record hs.ackvec hs.nb
  lines := lines_of_eq h.lines (by rw [settled_eq, settled_eq, hq, hs.ctrl, hs.owned]) hs.initDone (by rw [hq]; exact id)

/-- What the invariants say of a block that runs no command: the whole table, and the lines as they stand. -/
structure RestInv (s : State) : Prop where
  table : TableInv s
  record : RecordInv s
  held : s.owned = true → s.ctrl.sclo = false ∧ s.initDone = true
  released : s.owned = false → s.ctrl = ⟨false, true, true⟩

theorem line_none_of_idle {s : State} (h : PositionInv s) (hb : s.busy = false) : s.seq.line = .none :=
  Decidable.byContradiction fun hne => Bool.false_ne_true (hb.symm.trans (h.busy.2 hne))

theorem idle_of_line_none {s : State} (h : PositionInv s) (hl : s.seq.line = .none) : s.busy = false :=
  Bool.eq_false_iff.2 fun hb => h.busy.1 hb hl

/-- Where a word may be decoded the engine is at no command's line. -/
theorem line_of_decodes {s : State} (h : PositionInv s) (hd : s.decodes) :
    s.seq.bus = [] ∧ (s.seq.line = .none ∨ s.seq.line = .decode) := by
  rcases hd with hb | ⟨-, hbus, hl⟩
  · have hl := line_none_of_idle h hb
    exact ⟨h.none hl, .inl hl⟩
  · exact ⟨hbus, .inr hl⟩

theorem rest_of_inv {s : State} (h : Inv s) (hd : s.decodes) : RestInv s := by
  obtain ⟨hbus, hl⟩ := line_of_decodes h.position hd
  have hs : s.settled = (s.ctrl, s.owned) := by rw [settled_eq, hbus]; rfl
  refine ⟨table_of_at h.chain.table (by rcases hl with hl | hl <;> rw [hl] <;> rfl), h.record, ?_, ?_⟩
  · simpa only [hs] using h.lines.held
  · simpa only [hs] using h.lines.released

theorem rest_of_same {s t : State} (h : RestInv s) (hs : SameBlock s t) : RestInv t where
  table := table_of_eq h.table hs.entry hs.idx hs.nextAddr
  record := record_of_eq h.record hs.ackvec hs.nb
  held := by rw [hs.owned, hs.ctrl, hs.initDone]; exact h.held
  released := by rw [hs.owned, hs.ctrl]; exact h.released

/-- A line at which no claim is under way, the table is whole and the lines are as a bus procedure left them. -/
def Line.calm : Line → Bool
  | .none => true
  | .decode => true
  | .finish _ _ _ => true
  | _ => false

/-- The invariants of a block at rest hold at a line where nothing is left to do. -/
theorem inv_of_rest {s : State} (h : RestInv s) (hp : PositionInv s) (hbus : s.seq.bus = [])
    (hl : s.seq.line.calm = true) : Inv s := by
  have hs : s.settled = (s.ctrl, s.owned) := by rw [settled_eq, hbus]; rfl
  refine ⟨hp, ⟨?_, ?_⟩, h.record, ⟨?_, ?_, ?_⟩⟩
  · unfold TableAt
    cases hl' : s.seq.line <;> rw [hl'] at hl <;> first | exact h.table | cases hl
  · unfold ClaimInv
    cases hl' : s.seq.line <;> rw [hl'] at hl <;> trivial
  · simpa only [hs] using h.held
  · simpa only [hs] using h.released
  · rintro (e | e) <;> rw [e] at hl <;> cases hl

/-! ## Micro-steps, instructions, steps -/

theorem inv_tick {s : State} (h : Inv s) : Inv (tick s) :=
  ⟨position_tick h.position, chain_tick h.chain, record_tick h.record, lines_tick h.lines⟩

theorem launchOf_line (i : Instr) : (launchOf i).2 ≠ .none ∧ (launchOf i).2 ≠ .decode := by
  cases i <;> exact ⟨nofun, nofun⟩

/-- No instruction starts inside the table's destruction or past a gate of a claim. -/
theorem chain_launched {s : State} (h : TableInv s) (i : Instr) : ChainInv (s.launched i) := by
  cases i <;> exact ⟨table_of_eq h rfl rfl rfl, trivial⟩

theorem initDone_of_checked {n : Needs} {s : State} (h : firstFailure n s = .none) (hn : n ≠ .notInitialised) :
    s.initDone = true := by
  cases hi : s.initDone with
  | true => rfl
  | false =>
    unfold firstFailure at h
    split at h
    · cases h
    · cases n <;> simp only [hi] at h
      case notInitialised => exact absurd rfl hn
      all_goals cases h

theorem owned_of_checked {s : State} (h : firstFailure .ownedBus s = .none) : s.owned = true := by
  have hi := initDone_of_checked h nofun
  cases ho : s.owned with
  | true => rfl
  | false =>
    unfold firstFailure at h
    split at h
    · cases h
    · simp only [hi, ho] at h
      cases h

theorem initDone_of_notInitialised {s : State} (h : firstFailure .notInitialised s = .none) : s.initDone = false := by
  cases hi : s.initDone with
  | false => rfl
  | true =>
    unfold firstFailure at h
    split at h <;> cases h

/-- The lines of a block at rest, at a first line with no bus procedure before it. -/
theorem lines_at_rest {s t : State} (h : RestInv s) (hs : t.settled = (s.ctrl, s.owned)) (hi : t.initDone = s.initDone)
    (hn : t.seq.line = .initCheck ∨ t.seq.line = .initRelease → s.owned = false) : LinesInv t :=
  ⟨by rw [hs, hi]; exact h.held, by rw [hs]; exact h.released, by rw [hs]; exact hn⟩

/-- A byte frame leaves SCL low, and the bus owned as it was. -/
theorem lines_byte {s : State} {c : Ctrl} (hs : s.settled = (c, true)) (hc : c.sclo = false) (hi : s.initDone = true)
    (hl : s.seq.line ≠ .initCheck ∧ s.seq.line ≠ .initRelease) : LinesInv s :=
  ⟨by rw [hs]; exact fun _ => ⟨hc, hi⟩, by rw [hs]; nofun, by rintro (e | e) <;> simp [e] at hl⟩

/-- Where the lines end once an instruction's first bus procedure is over: with what its checks give, as the line
invariant says. -/
theorem lines_launched {i : Instr} {s : State} (h : RestInv s)
    (hc : ∀ n, needsOf i = some n → firstFailure n s = .none) : LinesInv (s.launched i) := by
  cases i
  case start a f =>
    exact lines_byte (c := ⟨false, false, true⟩) rfl rfl (initDone_of_checked (hc _ rfl) nofun) ⟨nofun, nofun⟩
  case writebyte a =>
    have ho := owned_of_checked (hc _ rfl)
    exact lines_byte (c := ⟨false, false, true⟩) (congrArg _ ho) rfl (initDone_of_checked (hc _ rfl) nofun) ⟨nofun, nofun⟩
  case readbyte f =>
    have ho := owned_of_checked (hc _ rfl)
    exact lines_byte (c := ⟨true, false, f⟩) (congrArg _ ho) rfl (initDone_of_checked (hc _ rfl) nofun) ⟨nofun, nofun⟩
  case init =>
    have hi := initDone_of_notInitialised (hc _ rfl)
    have free : s.owned = false := Bool.eq_false_iff.2 fun ho => Bool.false_ne_true (hi.symm.trans (h.held ho).2)
    exact lines_at_rest h rfl rfl fun _ => free
  case busscan a b => exact lines_at_rest h rfl rfl (by rintro (e | e) <;> cases e)
  case claim a => exact lines_at_rest h rfl rfl (by rintro (e | e) <;> cases e)
  all_goals exact lines_released rfl

theorem inv_launched {i : Instr} {s : State} (h : RestInv s)
    (hc : ∀ n, needsOf i = some n → firstFailure n s = .none) : Inv (s.launched i) := by
  obtain ⟨h0, h1⟩ := launchOf_line i
  exact ⟨position_goto _ rfl h0 h1, chain_launched h.table i, record_of_eq h.record rfl rfl, lines_launched h hc⟩

theorem inv_executed {i : Instr} {s t : State} (h : Inv s) (hd : s.decodes) (hx : Executed i s t) : Inv t := by
  have hr := rest_of_inv h hd
  refine executed_keeps hx (fun _ => inv_tick) (fun e => ?_) (fun _ => ?_) ?_ (inv_launched hr)
  · exact inv_of_rest (rest_of_same hr (by constructor <;> rfl)) (position_refuse s e) rfl rfl
  · obtain ⟨hbus, hl⟩ := line_of_decodes h.position hd
    refine inv_of_rest (rest_of_same hr (by constructor <;> rfl)) ⟨h.position.busy, h.position.none, h.position.decode⟩
      hbus ?_
    rcases hl with hl | hl <;> simp [hl, Line.calm]
  · exact inv_of_rest (rest_of_same hr (by constructor <;> rfl)) (position_goto _ rfl nofun nofun) rfl rfl

/-- A block that has accepted a word. -/
theorem inv_decoding {s : State} (h : Inv s) (hd : s.decodes) (w : Word) (q : List HostMove) (g : Option Nat) :
    Inv (s.decoding w q g) :=
  inv_of_rest (rest_of_same (rest_of_inv h hd) (by constructor <;> rfl))
    ⟨iff_of_true rfl nofun, nofun, fun _ => rfl⟩ rfl rfl

theorem inv_stepped {s t : State} (h : Inv s) (hs : Stepped s t) : Inv t := by
  cases hs with
  | idle => exact h
  | read q g u v n hu =>
    have hu' : SameBlock s u ∧ u.busy = s.busy ∧ u.seq = s.seq := by
      rcases hu with rfl | rfl
      · exact ⟨by constructor <;> rfl, rfl, rfl⟩
      · exact ⟨by constructor <;> simp, by simp, by simp⟩
    obtain ⟨⟨⟩, hb, hq⟩ := hu'
    exact inv_of_same h (by constructor <;> assumption) hb hq
  | written q g => exact inv_of_same h (by constructor <;> rfl) rfl rfl
  | dropped q g => exact inv_of_same h (by constructor <;> rfl) rfl rfl
  | accepted q g w hb => exact inv_decoding h (.inl hb) w q g
  | turnedDown q g w e hd =>
    exact inv_of_rest (rest_of_same (rest_of_inv h hd) (by constructor <;> rfl)) (position_refuse _ e) rfl rfl
  | command q g w i _ hd _ _ hx => exact inv_executed (inv_decoding h hd w q g) (.inr ⟨rfl, rfl, rfl⟩) hx
  | wire i _ hb hx =>
    exact inv_executed (s := { s with wireReq := [] }) (inv_of_same h (by constructor <;> rfl) rfl rfl) (.inl hb) hx
  | engine => exact engineRun_keeps (P := Inv) (fun _ => inv_tick) s h

end Sys2Proof.Machine

open Sys2Proof Sys2Proof.Machine

/-- Settles O8: each way a step can go (`Stepped`) keeps the invariants, the runs of the engine by `inv_tick`. -/
theorem everyStepKeepsTheInvariants : Obligations.EveryStepKeepsTheInvariants := fun _ _ h hs =>
  inv_stepped h (stepped_of_step hs)

end

section
/-! The host's window, one equation per kind of access (10_state.md R40 to R44), and when a step has an answer. The
statements about the registers are settled from them. -/

namespace Sys2Proof.Machine

/-! ## Accesses at an offset of the map -/

/-- A read of CMD returns a free value (log 10). -/
theorem hostRead_cmd (s : State) :
    hostRead cmdOffset 32 s = .next { s with hostRd := Config.cmdRead s.freeReads, freeReads := s.freeReads + 1 } := by
  simp [hostRead]

/-- A read of CTRL is a look at the lines (R42; log 3). -/
theorem hostRead_ctrl (s : State) : hostRead 0x18 32 s = .next { s.look with hostRd := ctrlReg s.look } := by
  simp [hostRead, cmdOffset, readReg]

/-- A read of any other register returns its value (R44). -/
theorem hostRead_of_reg {s : State} {off : Nat} {v : Word} (h0 : off ≠ cmdOffset) (h18 : off ≠ 0x18)
    (h : readReg s off = some v) : hostRead off 32 s = .next { s with hostRd := v } := by
  simp [hostRead, h0, h18, h]

/-- A write to a register other than CMD changes nothing (R44). -/
theorem hostWrite_of_reg {s : State} {off : Nat} {v : Word} (h0 : off ≠ cmdOffset) (h : readReg s off = some v)
    (w : Word) : hostWrite off 32 w s = .next s := by
  simp [hostWrite, hostWriteOther, h0, h]

theorem hostAccess_read_of_reg {s : State} {off : Nat} {v : Word} (h0 : off ≠ cmdOffset) (h18 : off ≠ 0x18)
    (h : readReg s off = some v) :
    hostAccess (.read (s.params.hostBase + off) 32) s = .next { s with hostRd := v } :=
  (hostAccess_read s off 32).trans (hostRead_of_reg h0 h18 h)

theorem hostAccess_write_of_reg {s : State} {off : Nat} {v : Word} (h0 : off ≠ cmdOffset) (h : readReg s off = some v)
    (w : Word) : hostAccess (.write (s.params.hostBase + off) 32 w) s = .next s :=
  (hostAccess_write s off 32 w).trans (hostWrite_of_reg h0 h w)

/-- The environment's next drive, or the present one (log 3). -/
theorem look_eq (s : State) :
    ∃ d ds, s.look = { s with env := d, looks := ds } ∧ (s.looks = d :: ds ∨ s.looks = [] ∧ ds = [] ∧ d = s.env) := by
  cases h : s.looks with
  | nil => exact ⟨s.env, [], by rw [State.look_nil s h, ← h], .inr ⟨rfl, rfl, rfl⟩⟩
  | cons d ds => exact ⟨d, ds, State.look_cons s h, .inl rfl⟩

/-! ## When there is an answer -/

theorem runCommand_next (s : State) : ∃ t, runCommand s = .next t := by
  unfold runCommand
  split
  · exact ⟨_, rfl⟩
  · split
    · exact ⟨_, rfl⟩
    · obtain ⟨t, ht, -⟩ := exec_executed _ s
      exact ⟨t, ht⟩

theorem hostCommand_next (w : Word) (s : State) : ∃ t, hostCommand w s = .next t := by
  unfold hostCommand
  split
  · exact ⟨_, rfl⟩
  · split
    · exact ⟨_, rfl⟩
    · exact runCommand_next _

theorem hostRead_listed {s : State} {off : Nat} (h : s.listedOffset off) :
    ∃ (v : Word) (d : Drive) (ds : List Drive) (n : Nat),
      hostRead off 32 s = .next { s with hostRd := v, env := d, looks := ds, freeReads := n } ∧
      (off ≠ 0x18 → d = s.env ∧ ds = s.looks) ∧ (off ≠ 0x00 → n = s.freeReads) ∧
      (off = 0x00 → v = Config.cmdRead s.freeReads ∧ n = s.freeReads + 1) := by
  by_cases h0 : off = 0x00
  · subst h0
    exact ⟨_, _, _, _, hostRead_cmd s, fun _ => ⟨rfl, rfl⟩, fun h => absurd rfl h, fun _ => ⟨rfl, rfl⟩⟩
  · by_cases h18 : off = 0x18
    · subst h18
      obtain ⟨d, ds, hlook, -⟩ := look_eq s
      refine ⟨ctrlReg s.look, d, ds, s.freeReads, ?_, fun h => absurd rfl h, fun _ => rfl, nofun⟩
      rw [hostRead_ctrl, hlook]
    · obtain ⟨v, hv⟩ := readReg_listed h h0
      exact ⟨v, _, _, _, hostRead_of_reg h0 h18 hv, fun _ => ⟨rfl, rfl⟩, fun _ => rfl, fun h => absurd h h0⟩

theorem hostWrite_listed {s : State} {off : Nat} (h : s.listedOffset off) (w : Word) :
    ∃ t, hostWrite off 32 w s = .next t := by
  by_cases h0 : off = cmdOffset
  · subst h0
    obtain ⟨t, ht⟩ := hostCommand_next w s
    exact ⟨t, by simpa [hostWrite] using ht⟩
  · obtain ⟨v, hv⟩ := readReg_listed h h0
    exact ⟨s, hostWrite_of_reg h0 hv w⟩

/-- A host access is answered, or it is undefined and refused (R44). -/
theorem hostAccess_next_or_refused (a : Access) (s : State) :
    (∃ t, hostAccess a s = .next t) ∨
      ∃ addr width, (a = .read addr width ∨ ∃ w, a = .write addr width w) ∧ s.undefinedAccess addr width ∧
        hostAccess a s = .refused .hostAccess := by
  cases a with
  | read addr width =>
    by_cases hu : s.undefinedAccess addr width
    · exact .inr ⟨addr, width, .inl rfl, hu, (refused_of_undefined hu 0).1⟩
    · obtain ⟨rfl, off, rfl, hl⟩ := listed_of_defined hu
      obtain ⟨v, d, ds, n, h, -⟩ := hostRead_listed hl
      exact .inl ⟨_, (hostAccess_read s off 32).trans h⟩
  | write addr width w =>
    by_cases hu : s.undefinedAccess addr width
    · exact .inr ⟨addr, width, .inr ⟨w, rfl⟩, hu, (refused_of_undefined hu w).2⟩
    · obtain ⟨rfl, off, rfl, hl⟩ := listed_of_defined hu
      obtain ⟨t, h⟩ := hostWrite_listed hl w
      exact .inl ⟨t, (hostAccess_write s off 32 w).trans h⟩

/-- With a position that fits `busy` the engine always goes on. -/
theorem engineStep_next {s : State} (h : PositionInv s) (hb : s.busy = true) : ∃ t, engineStep s = .next t := by
  have h0 : s.seq.line ≠ .none := h.busy.1 hb
  by_cases h1 : s.seq.line = .decode
  · rw [engineStep_of_decode (h.decode h1) h1]
    exact runCommand_next _
  · exact ⟨_, engineStep_of_running h0 h1⟩

theorem wireStep_next_or_refused (s : State) :
    (∃ t, wireStep s = .next t) ∨ decodeWire s.wireReq = none ∧ wireStep s = .refused .notAWireCommand := by
  unfold wireStep
  cases hw : decodeWire s.wireReq with
  | none => exact .inr ⟨rfl, rfl⟩
  | some i =>
    obtain ⟨t, ht, -⟩ := exec_executed i { s with wireReq := [] }
    exact .inl ⟨t, ht⟩

/-- Which agent a step runs: the host, the engine, a wire request, or none. -/
theorem step_agent (s : State) :
    (∃ m q, s.hostQ = m :: q ∧ step s = hostStep m q s) ∨ (s.busy = true ∧ step s = engineStep s) ∨
      (s.wireReq ≠ [] ∧ step s = wireStep s) ∨ step s = .next s := by
  cases hb : s.busy with
  | true =>
    cases hd : s.hostDue with
    | false => exact .inr (.inl ⟨rfl, step_of_not_hostDue hb hd⟩)
    | true =>
      cases hq : s.hostQ with
      | nil => simp [State.hostDue, hq] at hd
      | cons m q => exact .inl ⟨m, q, rfl, step_of_hostDue hb hq hd⟩
  | false =>
    by_cases hw : s.wireReq = []
    · cases hq : s.hostQ with
      | nil => exact .inr (.inr (.inr (step_of_idle hb hw hq)))
      | cons m q => exact .inl ⟨m, q, rfl, step_of_idle_host hb hw hq⟩
    · exact .inr (.inr (.inl ⟨hw, step_of_wireReq hb hw⟩))

end Sys2Proof.Machine

open Sys2Proof Sys2Proof.Machine

/-- Settles O9: the host's access, the engine and a wire request each have an answer or the one refusal of their kind. -/
theorem stepsStopOnlyOnUndefinedRequests : Obligations.StepsStopOnlyOnUndefinedRequests := by
  intro s hp
  rcases step_agent s with ⟨m, q, hq, hs⟩ | ⟨hb, hs⟩ | ⟨hw, hs⟩ | hs
  · rcases hostAccess_next_or_refused m.access { s with hostQ := q, gap := m.gapAfter } with
      ⟨t, h⟩ | ⟨addr, width, ha, hu, h⟩
    · exact .inl ⟨t, hs.trans h⟩
    · exact .inr (.inl ⟨m, q, addr, width, hq, ha, hu, hs.trans h⟩)
  · rw [hs]
    exact .inl (engineStep_next hp hb)
  · rw [hs]
    exact (wireStep_next_or_refused s).imp_right fun ⟨h, h'⟩ => .inr ⟨hw, h, h'⟩
  · exact .inl ⟨s, hs⟩

/-- Settles O10: the access is a write to CMD, no access is due after it, and the decoding micro-step passes no gap. -/
theorem stepRunsTheDecodedCommand : Obligations.StepRunsTheDecodedCommand := by
  intro s w q i hb hw hf hq hi
  let u : State := { s with hostQ := q, gap := none }
  calc step s = hostAccess (.write u.params.hostBase 32 w) u := step_of_idle_host hb hw hq
    _ = hostCommand w u := hostAccess_cmd u w
    _ = runCommand (accept w u).pass := hostCommand_of_not_due w hb (hostDue_of_polite rfl)
    _ = exec i (accept w u) := runCommand_of_decoded hf hi

/-- Settles O60: CMD, CTRL and the other registers each by its own read. -/
theorem everyListedRegisterCanBeRead : Obligations.EveryListedRegisterCanBeRead := by
  intro s off h
  rw [hostAccess_read]
  exact hostRead_listed h

/-- Settles O19: a listed offset but CMD's has a register. -/
theorem otherWritesChangeNothing : Obligations.OtherWritesChangeNothing := by
  intro s w off h h0
  obtain ⟨v, hv⟩ := readReg_listed h h0
  exact hostAccess_write_of_reg h0 hv w

/-- Settles O20: by the map (`readReg_unlisted`) one way, by its offsets the other. -/
theorem undefinedAccessesAreRefused : Obligations.UndefinedAccessesAreRefused := fun _ w _ _ =>
  ⟨fun h => refused_of_undefined h w, listed_of_defined⟩

end

section
/-! The fields of each readable register, at their bits (10_state.md R40 to R43). -/

namespace Sys2Proof.Machine

/-- STATUS (R41). -/
theorem statusReg_bits (s : State) :
    (statusReg s).getLsbD 0 = s.busy ∧ (statusReg s).getLsbD 1 = s.ok ∧ (statusReg s).getLsbD 2 = s.owned ∧
      (statusReg s).getLsbD 3 = s.initDone ∧ (statusReg s).getLsbD 4 = s.fatal ∧
      (statusReg s).getLsbD 5 = s.enumFailed ∧ (statusReg s).getLsbD 6 = s.ovr ∧ (statusReg s).getLsbD 7 = false := by
  simp only [statusReg, BitVec.getLsbD_append]
  simp

theorem statusReg_err (s : State) :
    (statusReg s).extractLsb' 8 4 = s.err.code ∧ (statusReg s).extractLsb' 12 20 = 0 := by
  unfold statusReg
  simp (disch := decide) only [BitVec.extractLsb'_append_eq_of_le, BitVec.extractLsb'_append_eq_of_add_le]
  exact ⟨BitVec.extractLsb'_eq_self, BitVec.extractLsb'_eq_self⟩

/-- ACKVEC (R40). -/
theorem ackvecReg_fields (s : State) :
    (ackvecReg s).extractLsb' 0 16 = s.ackvec ∧ (ackvecReg s).extractLsb' 16 5 = s.nb ∧
      (ackvecReg s).extractLsb' 21 11 = 0 := by
  unfold ackvecReg
  simp (disch := decide) only [BitVec.extractLsb'_append_eq_of_le, BitVec.extractLsb'_append_eq_of_add_le]
  exact ⟨BitVec.extractLsb'_eq_self, BitVec.extractLsb'_eq_self, BitVec.extractLsb'_eq_self⟩

/-- RXLO: the first four bytes, the first lowest (R40, 20_memory.md R64). -/
theorem rxloReg_bytes (s : State) (k : Fin 4) : (rxloReg s).extractLsb' (8 * k) 8 = s.rxbuf[k.val] := by
  unfold rxloReg
  match k with
  | 0 | 1 | 2 | 3 =>
    simp (disch := decide) only [BitVec.extractLsb'_append_eq_of_le, BitVec.extractLsb'_append_eq_of_add_le]
    exact BitVec.extractLsb'_eq_self

/-- RXHI (R40). -/
theorem rxhiReg_fields (s : State) :
    (rxhiReg s).extractLsb' 0 8 = s.rxbuf[4] ∧ (rxhiReg s).extractLsb' 8 8 = s.rxbuf[5] ∧
      (rxhiReg s).extractLsb' 16 16 = 0 := by
  unfold rxhiReg
  simp (disch := decide) only [BitVec.extractLsb'_append_eq_of_le, BitVec.extractLsb'_append_eq_of_add_le]
  exact ⟨BitVec.extractLsb'_eq_self, BitVec.extractLsb'_eq_self, BitVec.extractLsb'_eq_self⟩

/-- CHAIN (R40). -/
theorem chainReg_fields (s : State) :
    (chainReg s).extractLsb' 0 8 = s.nextAddr ∧ (chainReg s).extractLsb' 8 8 = s.idx ∧
      (chainReg s).extractLsb' 16 16 = 0 := by
  unfold chainReg
  simp (disch := decide) only [BitVec.extractLsb'_append_eq_of_le, BitVec.extractLsb'_append_eq_of_add_le]
  exact ⟨BitVec.extractLsb'_eq_self, BitVec.extractLsb'_eq_self, BitVec.extractLsb'_eq_self⟩

/-- ENTRY[i] (R43). -/
theorem entryReg_fields (e : Entry) :
    (entryReg e).extractLsb' 0 7 = e.addr ∧ (entryReg e).extractLsb' 11 5 = 0 ∧
      (entryReg e).extractLsb' 16 8 = e.retry ∧ (entryReg e).extractLsb' 24 8 = 0 := by
  unfold entryReg
  simp (disch := decide) only [BitVec.extractLsb'_append_eq_of_le, BitVec.extractLsb'_append_eq_of_add_le]
  exact ⟨BitVec.extractLsb'_eq_self, BitVec.extractLsb'_eq_self, BitVec.extractLsb'_eq_self,
    BitVec.extractLsb'_eq_self⟩

theorem entryReg_bits (e : Entry) :
    (entryReg e).getLsbD 7 = false ∧ (entryReg e).getLsbD 8 = e.registered ∧ (entryReg e).getLsbD 9 = e.active ∧
      (entryReg e).getLsbD 10 = e.terminated := by
  simp only [entryReg, BitVec.getLsbD_append]
  simp

/-- CTRL, bit by bit: the direction bit and the line levels at their places, a later one of two that share a place; 0
elsewhere (R42; log 8). -/
theorem ctrlReg_getLsbD (s : State) (k : Fin 32) :
    (ctrlReg s).getLsbD k =
      if k = s.params.ctrlSdaBit then s.sdaLevel
      else if k = s.params.ctrlSclBit then s.sclLevel
      else if k = s.params.ctrlDdirBit then s.ctrl.ddir else false := by
  simp only [ctrlReg, putBit_getLsbD _ _ _ _ (Fin.isLt _), Fin.val_inj]
  simp

end Sys2Proof.Machine

open Sys2Proof Sys2Proof.Machine

/-- Settles O15: the read and the write are those of any register, the fields `statusReg`'s. -/
theorem statusReadsItsFields : Obligations.StatusReadsItsFields := by
  refine ⟨by decide, fun s => ?_⟩
  have hv : readReg s 0x04 = some (statusReg s) := rfl
  obtain ⟨b0, b1, b2, b3, b4, b5, b6, b7⟩ := statusReg_bits s
  obtain ⟨he, hz⟩ := statusReg_err s
  exact ⟨_, hostAccess_read_of_reg (by decide) (by decide) hv, b0, b1, b2, b3, b4, b5, b6, b7, he, hz,
    hostAccess_write_of_reg (by decide) hv⟩

/-- Settles O16: each register by its own read, with its fields. -/
theorem resultAndChainRegistersRead : Obligations.ResultAndChainRegistersRead := fun s =>
  ⟨hostAccess_read_of_reg (by decide) (by decide) rfl,
    ⟨_, hostAccess_read_of_reg (by decide) (by decide) rfl, ackvecReg_fields s⟩,
    ⟨_, _, hostAccess_read_of_reg (by decide) (by decide) rfl, hostAccess_read_of_reg (by decide) (by decide) rfl,
      rxloReg_bytes s, rxhiReg_fields s⟩,
    hostAccess_read_of_reg (by decide) (by decide) rfl,
    ⟨_, hostAccess_read_of_reg (by decide) (by decide) rfl, chainReg_fields s⟩⟩

/-- Settles O17: ENTRY[i] stands at its offset (`readReg_entry`), which is neither CMD's nor CTRL's. -/
theorem entryReadsItsFields : Obligations.EntryReadsItsFields := by
  intro s i e he
  have hv : readReg s (0x40 + 4 * i) = some (entryReg e) := by rw [readReg_entry, he]; rfl
  have h0 : 0x40 + 4 * i ≠ cmdOffset := by simp [cmdOffset]
  obtain ⟨hr, hg, ha, ht⟩ := entryReg_bits e
  obtain ⟨f0, f11, f16, f24⟩ := entryReg_fields e
  exact ⟨_, hostAccess_read_of_reg h0 (by omega) hv, f0, hr, hg, ha, ht, f11, f16, f24, hostAccess_write_of_reg h0 hv⟩

/-- Settles O18: the read is a look, and with three different places each bit is its own. -/
theorem ctrlReadsTheLines : Obligations.CtrlReadsTheLines := by
  intro s hdc hdd hcd
  obtain ⟨d, ds, hlook, hl⟩ := look_eq s
  let u : State := { s with env := d, looks := ds }
  have bit (k : Fin 32) := ctrlReg_getLsbD u k
  refine ⟨ctrlReg u, d, ds, hl, ?_, ?_, ?_, ?_, fun k h1 h2 h3 => ?_⟩
  · rw [hostAccess_read, hostRead_ctrl, hlook]
  · rw [bit, if_neg hdd, if_neg hdc, if_pos rfl]
  · rw [bit, if_neg hcd, if_pos rfl]
    rfl
  · rw [bit, if_pos rfl]
    rfl
  · rw [bit, if_neg h3, if_neg h2, if_neg h1]

end

section
/-! The state after reset (10_state.md R48). -/

namespace Sys2Proof.Machine

theorem reset_entry {i : Nat} (h : i < State.reset.nmax) : State.reset.entry[i]? = some Entry.zero :=
  (List.getElem?_replicate_of_lt h : (List.replicate 32 Entry.zero)[i]? = _)

/-- The block after reset is at rest: an empty table, no record, both lines released. -/
theorem rest_reset : RestInv State.reset := by
  have zero {i : Nat} {e : Entry} (he : State.reset.entry[i]? = some e) : e = Entry.zero :=
    Option.some.inj (he.symm.trans (reset_entry (List.getElem?_eq_some_iff.1 he).1))
  refine ⟨⟨by decide, by decide, by decide, fun i e _ h => absurd h (Nat.not_lt_zero i), fun i e he _ => zero he,
    fun i e he ht => ?_⟩, ⟨by decide, fun k _ => ?_⟩, nofun, fun _ => rfl⟩
  · rw [zero he] at ht
    cases ht
  · simp [State.reset]

end Sys2Proof.Machine

open Sys2Proof Sys2Proof.Machine

/-- Settles O6: the values are those of the definition; with no wire request and no access the step is idle. -/
theorem resetLeavesTheListedValues : Obligations.ResetLeavesTheListedValues :=
  ⟨rfl, rfl, rfl, rfl, rfl, rfl, rfl, rfl, rfl, rfl, rfl, rfl, by decide, rfl, rfl, rfl, rfl, fun _ => reset_entry, rfl,
    rfl, rfl, step_of_idle rfl rfl rfl⟩

/-- Settles O7: after reset the block is at rest. -/
theorem invariantsHoldAtReset : Obligations.InvariantsHoldAtReset :=
  inv_of_rest rest_reset ⟨by decide, fun _ => rfl, fun _ => rfl⟩ rfl rfl

end

section
/-! What a micro-step at a line of a command leaves alone, said once: which command the next line belongs to, and who
writes the latches, `rxbuf` and the table (10_state.md R26, R31, R33, R34, R37, R38). -/

namespace Sys2Proof.Machine

/-- The commands, as far as their lines go. -/
inductive Owner where
  /-- The command has reported its outcome, or reports it next. -/
  | ended
  /-- A word waits to be decoded. -/
  | decode
  | init
  | rawByte
  | scan
  | tickread
  | device
  | gcall
  | claim
  | wire

/-- The command that a line belongs to. -/
def Line.owner : Line → Owner
  | .none | .finish _ _ _ => .ended
  | .decode => .decode
  | .initCheck | .initRelease | .initMark => .init
  | .startDone | .writeDone | .readDone => .rawByte
  | .scan _ _ _ _ | .scanned _ _ _ => .scan
  | .tickreadDone | .tickreadKeep _ => .tickread
  | .devDone => .device
  | .gcallDestroy | .gcallEntry _ | .gcallIdx | .gcallNext | .gcallLatch => .gcall
  | .claim _ | .claimPropagated | .claimProbe | .claimProbed | .claimRetry | .claimAddressed | .claimTerminated
  | .rollback _ | .rolledBack _ | .claimFailed _ => .claim
  | .wireDone => .wire

theorem Line.owner_decode {l : Line} : l.owner = .decode ↔ l = .decode := by
  cases l <;> simp [Line.owner]

theorem Line.owner_tickread {l : Line} : l.owner = .tickread ↔ l.ofTickread = true := by
  cases l <;> simp [Line.owner, Line.ofTickread]

theorem Line.owner_gcall {l : Line} : l.owner = .gcall ↔ l.ofGcall = true := by
  cases l <;> simp [Line.owner, Line.ofGcall]

/-- The lines that write the table (44_chain_enumeration.md R205, R207, R209, R212). -/
def Line.writesTable : Line → Bool
  | .claimPropagated | .claimTerminated | .rolledBack _ | .gcallEntry _ => true
  | _ => false

/-- What a micro-step at the line `l` of a command leaves alone. -/
structure LineKeeps (l : Line) (s t : State) : Prop where
  initDone : s.initDone = true → t.initDone = true
  fatal : s.fatal = true → t.fatal = true
  rxbuf : l.keepsRx = false → t.rxbuf = s.rxbuf
  latch : s.enumFailed = true → t.enumFailed = true ∨ l = .gcallLatch
  entry : l.writesTable = false → t.entry = s.entry
  owner : t.seq.line.owner = .ended ∨ t.seq.line.owner = l.owner

theorem lineTick_keeps (s : State) : LineKeeps s.seq.line s (lineTick s.seq.line s) := by
  generalize hl : s.seq.line = l
  cases l
  case none => exact ⟨id, id, fun _ => rfl, .inl, fun _ => rfl, .inr (congrArg _ hl)⟩
  case decode => exact ⟨id, id, fun _ => rfl, .inl, fun _ => rfl, .inr (congrArg _ hl)⟩
  case initCheck =>
    show LineKeeps .initCheck s (initCheckTick s)
    unfold initCheckTick
    split
    · exact ⟨id, fun _ => rfl, fun _ => rfl, .inl, fun _ => rfl, .inl rfl⟩
    · exact ⟨id, id, fun _ => rfl, .inl, fun _ => rfl, .inr rfl⟩
  case initMark => exact ⟨fun _ => rfl, id, fun _ => rfl, .inl, fun _ => rfl, .inl rfl⟩
  case gcallLatch => exact ⟨id, id, fun _ => rfl, fun _ => .inr rfl, fun _ => rfl, .inl rfl⟩
  case claimFailed e => exact ⟨id, id, fun _ => rfl, fun _ => .inl rfl, fun _ => rfl, .inl rfl⟩
  all_goals
    simp only [lineTick, initReleaseTick, scanTick, scannedTick, tickreadDoneTick, tickreadKeepTick, devDoneTick,
      gcallDestroyTick, gcallEntryTick, gcallIdxTick, gcallNextTick, claimTick, claimPropagatedTick, claimProbeTick,
      claimProbedTick, claimRetryTick, claimAddressedTick, claimTerminatedTick, rollbackTick, rolledBackTick,
      wireDoneTick]
    repeat' split
  all_goals
    refine ⟨id, id, fun h => ?_, .inl, fun h => ?_, ?_⟩
    · first | rfl | cases h
    · first | rfl | cases h
    · first | exact .inl rfl | exact .inr rfl

theorem tick_owner (s : State) :
    (tick s).seq.line.owner = .ended ∨ (tick s).seq.line.owner = s.seq.line.owner := by
  unfold tick
  split
  · exact .inr (congrArg Line.owner (busTick_frame _ _ s).line)
  · exact (lineTick_keeps s).owner

/-- A command that is not being run does not come to be run by a micro-step. -/
theorem tick_owner_ne {s : State} {o : Owner} (ho : o ≠ .ended) (h : s.seq.line.owner ≠ o) :
    (tick s).seq.line.owner ≠ o := by
  rcases tick_owner s with e | e <;> rw [e]
  · exact ho.symm
  · exact h

end Sys2Proof.Machine

end

section
/-! What no step undoes: `ovr`, `init_done`, `fatal`, and the parameters (10_state.md R20, R26, R29). -/

namespace Sys2Proof.Machine

/-- The latches that only reset clears are kept, and the parameters are those of `s`. -/
structure LatchesKept (s t : State) : Prop where
  ovr : s.ovr = true → t.ovr = true
  initDone : s.initDone = true → t.initDone = true
  fatal : s.fatal = true → t.fatal = true
  params : t.params = s.params
  nmax : t.nmax = s.nmax

theorem LatchesKept.refl (s : State) : LatchesKept s s := ⟨id, id, id, rfl, rfl⟩

theorem LatchesKept.trans {s t u : State} (h : LatchesKept s t) (h' : LatchesKept t u) : LatchesKept s u :=
  ⟨h'.ovr ∘ h.ovr, h'.initDone ∘ h.initDone, h'.fatal ∘ h.fatal, h'.params.trans h.params, h'.nmax.trans h.nmax⟩

theorem latches_tick (s : State) : LatchesKept s (tick s) := by
  refine tick_keeps (P := LatchesKept s) (fun _ h => ⟨h.ovr, h.initDone, h.fatal, h.params, h.nmax⟩)
    (fun op rest u _ h => h.trans ?_) (fun u _ h => h.trans ?_) s (.refl s)
  · have f := busTick_frame op rest u
    exact ⟨by rw [f.ovr]; exact id, by rw [f.initDone]; exact id, by rw [f.fatal]; exact id, f.params, f.table.1⟩
  · have f := lineTick_frame u.seq.line u
    have k := lineTick_keeps u
    exact ⟨by rw [f.ovr]; exact id, k.initDone, k.fatal, f.params, f.nmax⟩

theorem latches_engineRun (s : State) : LatchesKept s (engineRun s) :=
  engineRun_keeps (P := LatchesKept s) (fun u h => h.trans (latches_tick u)) s (.refl s)

theorem latches_executed {i : Instr} {s t : State} (hx : Executed i s t) : LatchesKept s t := by
  exact executed_keeps hx (P := LatchesKept s) (fun u h => h.trans (latches_tick u)) (fun _ => ⟨id, id, id, rfl, rfl⟩)
    (fun _ => ⟨id, id, id, rfl, rfl⟩) ⟨id, id, id, rfl, rfl⟩ fun _ => ⟨id, id, id, rfl, rfl⟩

theorem latches_stepped {s t : State} (hs : Stepped s t) : LatchesKept s t := by
  cases hs with
  | idle => exact .refl s
  | read q g u v n hu =>
    have h : LatchesKept s u := by
      rcases hu with rfl | rfl
      · exact .refl _
      · exact ⟨by simp, by simp, by simp, by simp, by simp [State.nmax]⟩
    exact h.trans ⟨id, id, id, rfl, rfl⟩
  | written => exact ⟨id, id, id, rfl, rfl⟩
  | dropped => exact ⟨fun _ => rfl, id, id, rfl, rfl⟩
  | accepted => exact ⟨id, id, id, rfl, rfl⟩
  | turnedDown => exact ⟨id, id, id, rfl, rfl⟩
  | command q g w i _ _ _ _ hx => exact LatchesKept.trans (t := s.decoding w q g) ⟨id, id, id, rfl, rfl⟩ (latches_executed hx)
  | wire i _ _ hx => exact LatchesKept.trans (t := { s with wireReq := [] }) ⟨id, id, id, rfl, rfl⟩ (latches_executed hx)
  | engine => exact latches_engineRun s

end Sys2Proof.Machine

open Sys2Proof Sys2Proof.Machine

/-- Settles O13: the busy branch of a write to CMD, and `ovr` among the latches no step clears. -/
theorem busyWriteIsDroppedAndOvrStays : Obligations.BusyWriteIsDroppedAndOvrStays :=
  ⟨fun s w hb => (hostAccess_cmd s w).trans (hostCommand_of_busy w hb),
    fun _ _ ho hs => (latches_stepped (stepped_of_step hs)).ovr ho⟩

/-- Settles O55: the latches and the parameters are kept however a step goes. -/
theorem stepsKeepLatchesAndParameters : Obligations.StepsKeepLatchesAndParameters := fun _ _ hs =>
  have h := latches_stepped (stepped_of_step hs)
  ⟨h.initDone, h.fatal, h.params, h.nmax⟩

end

section
/-! Byte frames, their record, and the two raw byte commands (10_state.md R30; 40_line_primitives.md R129, R130;
41_bus_commands.md R148, R150). -/

open Sys2Proof Sys2Proof.Machine

/-- Settles O25: the run of `TxByte`, its end state and its writes (`reach_txByte`). -/
theorem txByteSendsAndRecords : Obligations.TxByteSendsAndRecords := by
  intro s b f more rest hg hc hl
  obtain ⟨n, h, -⟩ := reach_txByte s b f more rest hg hc hl
  exact ⟨n, ticks_of_ticks h⟩

/-- Settles O26: the run of `RxByte`, its end state and its writes (`reach_rxByte`). -/
theorem rxByteReceivesAndAcks : Obligations.RxByteReceivesAndAcks := by
  intro s last f more rest hg hc hl
  obtain ⟨n, h, -⟩ := reach_rxByte s last f more rest hg hc hl
  exact ⟨n, ticks_of_ticks h⟩

/-- Settles O29: one more frame by `recorded`, the bits and the count by the record's own equations. -/
theorem recordKeepsSixteenAcks : Obligations.RecordKeepsSixteenAcks := by
  intro s acks ha hn
  refine ⟨?_, fun k => ?_, ?_⟩
  · simp only [State.recordAck, ha, hn]
    exact recorded acks _
  · rw [ha, ackBits_getLsbD]
  · rw [hn, ackCount_toNat]

/-- Settles O34: the checks let the command run, `TxByte` runs to its end, and the next line completes. -/
theorem writebyteEndsWithTheAck : Obligations.WritebyteEndsWithTheAck := by
  intro s a fr more hg hf hi ho hc hl
  have hrun := (reach_txByte (s.started .writeDone) a fr more [] hg hc hl).reach
  let u := (s.started .writeDone).afterTx a fr more
  exact ⟨{ u.seq with bus := [], line := .none }, rfl, rfl, (checked_ok (ownedBus_ok hf hi ho)).trans
    (launch_completes (t := u) hrun rfl hg nofun nofun rfl rfl hg (by decide))⟩

/-- Settles O35: the checks let the command run, `RxByte` runs to its end, and the next line completes. -/
theorem readbyteReturnsTheByte : Obligations.ReadbyteReturnsTheByte := by
  intro s f fr more hg hf hi ho hc hl
  have hrun := (reach_rxByte (s.started .readDone) f fr more [] hg hc hl).reach
  let u := (s.started .readDone).afterRx f fr more
  exact ⟨{ u.seq with bus := [], line := .none }, rfl, rfl, (checked_ok (ownedBus_ok hf hi ho)).trans
    (launch_completes (t := u) hrun rfl hg nofun nofun rfl rfl hg (by decide))⟩

end

section
/-! In what an instruction ends (10_state.md R33), and who writes `rxbuf` (R31). -/

namespace Sys2Proof.Machine

/-! ## How an instruction ends -/

/-- The host polls and no word waits to be decoded. -/
structure Polite (s : State) : Prop where
  position : PositionInv s
  gap : s.gap = none
  line : s.seq.line.owner ≠ .decode

theorem polite_tick {s : State} (h : Polite s) : Polite (tick s) := by
  refine ⟨position_tick h.position, ?_, tick_owner_ne nofun h.line⟩
  refine tick_keeps (P := fun u => u.gap = none) (fun u hu => ?_) (fun op rest u _ hu => ?_) (fun u _ hu => ?_) s h.gap
  · rw [State.pass_of_polite u hu]
    exact hu
  · rw [(busTick_frame op rest u).gap, hu]
  · rw [(lineTick_frame _ u).gap, hu]

/-- Where the engine is left with the host polling: at no command, or at a line that reads low for ever. -/
theorem ended_or_hung {s : State} (h : Polite s) (hp : s.paused = true) :
    s.busy = false ∧ s.seq.line = .none ∧ s.seq.bus = [] ∨ s.busy = true ∧ s.hung = true := by
  by_cases h0 : s.seq.line = .none
  · exact .inl ⟨idle_of_line_none h.position h0, h0, h.position.none h0⟩
  · have h1 : s.seq.line ≠ .decode := fun e => h.line (Line.owner_decode.2 e)
    refine .inr ⟨h.position.busy.2 h0, ?_⟩
    simpa [State.paused, State.atRest, h0, h1, hostDue_of_polite h.gap, hostPending_of_polite h.gap] using hp

/-- A run of the engine that starts within the bound is left at the end of its command or at a low line. -/
theorem engineRun_ended_or_hung {s : State} (h : Polite s) (hk : bound s ≤ s.looks.length + (s.nmax + maxTicks)) :
    (engineRun s).busy = false ∧ (engineRun s).seq.line = .none ∧ (engineRun s).seq.bus = [] ∨
      (engineRun s).busy = true ∧ (engineRun s).hung = true :=
  ended_or_hung (engineRun_keeps (P := Polite) (fun _ => polite_tick) s h)
    (engine_paused h.gap (by rw [h.gap]; simpa using hk))

/-! ## Who writes `rxbuf` -/

/-- Only a copying line of DEV_TICKREAD writes `rxbuf` (43_device_commands.md R181). -/
theorem tick_rxbuf {s : State} (h : s.seq.bus ≠ [] ∨ s.seq.line.keepsRx = false) : (tick s).rxbuf = s.rxbuf := by
  unfold tick
  split
  · exact (busTick_frame _ _ s).rxbuf
  · rename_i hb
    exact (lineTick_keeps s).rxbuf (h.resolve_left (absurd hb))

theorem Line.ofTickread_iff {l : Line} : l.ofTickread = true ↔ l = .tickreadDone ∨ l.keepsRx = true := by
  cases l <;> simp [Line.ofTickread, Line.keepsRx]

theorem Line.keepsRx_of_not_tickread {l : Line} (h : l.ofTickread = false) : l.keepsRx = false :=
  Bool.eq_false_iff.2 fun hk => Bool.false_ne_true (h.symm.trans (Line.ofTickread_iff.2 (.inr hk)))

theorem tick_ofTickread {s : State} (h : s.seq.line.ofTickread = false) : (tick s).seq.line.ofTickread = false := by
  have hn := tick_owner_ne (s := s) (o := .tickread) nofun (by rw [Ne, Line.owner_tickread, h]; nofun)
  simpa [Line.owner_tickread] using hn

/-- The engine is at no line of DEV_TICKREAD, and `rxbuf` is still `b`. -/
structure RxApart (b : Vector Byte 6) (u : State) : Prop where
  rxbuf : u.rxbuf = b
  line : u.seq.line.ofTickread = false

theorem rxApart_tick {b : Vector Byte 6} {u : State} (h : RxApart b u) : RxApart b (tick u) :=
  ⟨(tick_rxbuf (.inr (Line.keepsRx_of_not_tickread h.line))).trans h.rxbuf, tick_ofTickread h.line⟩

theorem rxApart_engineRun {b : Vector Byte 6} {u : State} (h : RxApart b u) : RxApart b (engineRun u) :=
  engineRun_keeps (P := RxApart b) (fun _ => rxApart_tick) u h

/-- `rxbuf` is still `b` unless a DEV_TICKREAD has succeeded, is copying, or is about to report that it succeeded. -/
def RxUnlessDone (b : Vector Byte 6) (u : State) : Prop :=
  match u.seq.line with
  | .tickreadDone => u.busy = true ∧ u.rxbuf = b
  | .tickreadKeep _ => u.busy = true
  | .finish ok _ _ => ok = true ∧ u.busy = true ∨ u.rxbuf = b
  | .none => u.ok = true ∨ u.rxbuf = b
  | _ => False

theorem rxUnlessDone_tick {b : Vector Byte 6} {u : State} (h : RxUnlessDone b u) : RxUnlessDone b (tick u) := by
  refine tick_keeps (P := RxUnlessDone b) (fun _ h => h) (fun op rest s _ h => ?_) (fun s _ h => ?_) u h
  · have f := busTick_frame op rest s
    unfold RxUnlessDone at h ⊢
    rw [f.line, f.rxbuf, f.busy, f.ok]
    exact h
  · unfold RxUnlessDone at h
    cases hl : s.seq.line <;> simp only [hl] at h
    case none => simpa [lineTick, RxUnlessDone, hl] using h
    case finish ok e r => exact h.imp And.left id
    case tickreadDone =>
      show RxUnlessDone b (tickreadDoneTick s)
      unfold tickreadDoneTick
      split
      · exact h.1
      · exact .inr h.2
    case tickreadKeep k =>
      show RxUnlessDone b (tickreadKeepTick k s)
      unfold tickreadKeepTick
      split
      · exact h
      · exact .inl ⟨rfl, h⟩

/-- A copying line is entered from the copying line before it, or from a transaction that succeeded (R181). -/
theorem tick_keepsRx {s : State} (h : (tick s).seq.line.keepsRx = true) :
    s.seq.line.keepsRx = true ∨ s.seq.bus = [] ∧ s.seq.line = .tickreadDone ∧ s.seq.okx = true := by
  cases hb : s.seq.bus with
  | cons op rest =>
    rw [tick, hb] at h
    exact .inl ((busTick_frame op rest s).line ▸ h)
  | nil =>
    rw [tick, hb] at h
    change (lineTick s.seq.line s).seq.line.keepsRx = true at h
    by_cases ht : s.seq.line.ofTickread = true
    · rcases Line.ofTickread_iff.1 ht with hl | hl
      · refine .inr ⟨rfl, hl, ?_⟩
        cases hk : s.seq.okx with
        | true => rfl
        | false => simp [hl, lineTick, tickreadDoneTick, hk, State.complete, Line.keepsRx] at h
      · exact .inl hl
    · have hf : (lineTick s.seq.line s).seq.line.ofTickread = false := by
        have hn := tick_ofTickread (s := s) (by simpa using ht)
        rwa [tick, hb] at hn
      rw [Line.keepsRx_of_not_tickread hf] at h
      cases h

/-! ## A step while a command runs -/

/-- What a host access that finds a command running leaves of it. -/
structure SameRun (s t : State) : Prop where
  seq : t.seq = s.seq
  rxbuf : t.rxbuf = s.rxbuf
  entry : t.entry = s.entry
  enumFailed : t.enumFailed = s.enumFailed

/-- A step while a command runs is a host access that leaves it alone, or the engine goes on. -/
theorem stepped_running {s t : State} (hs : Stepped s t) (hb : s.busy = true) (hl : s.seq.line ≠ .decode) :
    SameRun s t ∨ t = engineRun s := by
  have hd : ¬ s.decodes := by
    rintro (h | ⟨-, -, h⟩)
    · simp [hb] at h
    · exact hl h
  cases hs with
  | idle h => simp [hb] at h
  | read q g u v n hu =>
    left
    rcases hu with rfl | rfl
    · constructor <;> rfl
    · constructor <;> simp
  | written => exact .inl (by constructor <;> rfl)
  | dropped => exact .inl (by constructor <;> rfl)
  | accepted _ _ _ h => simp [hb] at h
  | turnedDown _ _ _ _ h => exact absurd h hd
  | command _ _ _ _ _ h => exact absurd h hd
  | wire _ _ h => simp [hb] at h
  | engine => exact .inr rfl

end Sys2Proof.Machine

open Sys2Proof Sys2Proof.Machine

/-- Settles O58: a refusal ends at once; a run that starts within its bound is left at its end or at a low line. -/
theorem everyInstructionEndsOrWaits : Obligations.EveryInstructionEndsOrWaits := by
  intro i s hw hg
  obtain ⟨t, ht, hx⟩ := exec_executed i s
  refine ⟨t, ht, ?_⟩
  cases hx with
  | refused e => exact .inl ⟨rfl, rfl, rfl⟩
  | range =>
    refine engineRun_ended_or_hung ⟨position_goto _ rfl nofun nofun, hg, nofun⟩ ?_
    show s.looks.length + 0 + 1 - _ ≤ s.looks.length + (s.nmax + maxTicks)
    unfold maxTicks
    omega
  | target h => simp [hw] at h
  | ran =>
    obtain ⟨h0, h1⟩ := launchOf_line i
    exact engineRun_ended_or_hung ⟨position_goto _ rfl h0 h1, hg, fun e => h1 (Line.owner_decode.1 e)⟩
      (launched_bound i s)

/-- Settles O53: no other instruction is at a line of DEV_TICKREAD (`RxApart`), and DEV_TICKREAD writes only on its way
to success (`RxUnlessDone`). -/
theorem onlyTickreadWritesRxbuf : Obligations.OnlyTickreadWritesRxbuf := by
  refine ⟨fun i s t hi ht => ?_, fun a s t ht hend => ?_, fun s t hb hl hd ht => ?_, fun s => ⟨tick_rxbuf, ?_, tick_keepsRx⟩⟩
  · have hlaunch : (launchOf i).2.ofTickread = false := by
      cases i <;> first | rfl | exact absurd rfl (hi _)
    cases executed_of_exec ht with
    | refused e => rfl
    | range => exact RxApart.rxbuf (rxApart_engineRun ⟨rfl, rfl⟩)
    | target => rfl
    | ran => exact RxApart.rxbuf (rxApart_engineRun ⟨rfl, hlaunch⟩)
  · have h : RxUnlessDone s.rxbuf t :=
      executed_keeps (executed_of_exec ht) (P := RxUnlessDone s.rxbuf) (fun _ => rxUnlessDone_tick) (fun _ => .inr rfl)
        nofun (.inr rfl) fun _ => ⟨rfl, rfl⟩
    unfold RxUnlessDone at h
    rcases hend with hl | ⟨hb, ho⟩
    · rw [hl] at h
      exact h.2
    · cases hl : t.seq.line <;> simp_all
  · rcases stepped_running (stepped_of_step ht) hb hd with h | rfl
    · exact ⟨h.rxbuf, by rw [h.seq, hl]⟩
    · obtain ⟨hrx, hline⟩ := rxApart_engineRun ⟨rfl, hl⟩
      exact ⟨hrx, hline⟩
  · intro k hbus hl
    simp only [tick, hbus, hl]
    rfl

end

section
/-! What only GCALL_RESET undoes of the chain (10_state.md R37, R38, R47), and what a claim that has ended assigned
(44_chain_enumeration.md R209, R214). -/

namespace Sys2Proof.Machine

/-! ## Registered entries and the latch -/

/-- Entry `k` of `t` is registered as `e` is: at its address, with its retry count. -/
def State.registeredAs (t : State) (k : Nat) (e : Entry) : Prop :=
  ∃ e', t.entry[k]? = some e' ∧ e'.registered = true ∧ e'.addr = e.addr ∧ e'.retry = e.retry

theorem registeredAs_of_eq {s t : State} {k : Nat} {e : Entry} (h : s.entry[k]? = some e) (hr : e.registered = true)
    (he : t.entry = s.entry) : t.registeredAs k e := ⟨e, he ▸ h, hr, rfl, rfl⟩

theorem ChainKept.refl (s : State) : ChainKept s s := ⟨id, fun _ _ h hr => registeredAs_of_eq h hr rfl⟩

theorem ChainKept.trans {s t u : State} (h : ChainKept s t) (h' : ChainKept t u) : ChainKept s u := by
  refine ⟨h'.latch ∘ h.latch, fun k e he hr => ?_⟩
  obtain ⟨e1, he1, hr1, ha1, ht1⟩ := h.registered k e he hr
  obtain ⟨e2, he2, hr2, ha2, ht2⟩ := h'.registered k e1 he1 hr1
  exact ⟨e2, he2, hr2, ha2.trans ha1, ht2.trans ht1⟩

theorem chainKept_of_eq {s t : State} (he : t.entry = s.entry) (hf : t.enumFailed = s.enumFailed) : ChainKept s t :=
  ⟨by rw [hf]; exact id, fun _ _ h hr => registeredAs_of_eq h hr he⟩

/-- An entry of the old table is in the new one, but for its `active` flag. -/
theorem SameTable.get {n : Nat} {l l' : List Entry} (h : SameTable n l l') {k : Nat} {e : Entry} (he : l[k]? = some e) :
    ∃ e', l'[k]? = some e' ∧ e' = { e with active := e'.active } := by
  have hk : k < l'.length := by
    rw [h.1]
    exact (List.getElem?_eq_some_iff.1 he).1
  have hk' : l'[k]? = some l'[k] := List.getElem?_eq_getElem hk
  obtain ⟨e0, he0, hee, -⟩ := h.2 k _ hk'
  rw [he] at he0
  cases he0
  exact ⟨_, hk', hee⟩

theorem registeredAs_of_same {s t : State} {n k : Nat} {e : Entry} (h : s.entry[k]? = some e)
    (hr : e.registered = true) (hs : SameTable n s.entry t.entry) : t.registeredAs k e := by
  obtain ⟨e', he', hee⟩ := hs.get h
  exact ⟨e', he', by rw [hee]; exact hr, by rw [hee], by rw [hee]⟩

/-- Setting the previous device's `terminated` flag keeps every registration (R205, R209). -/
theorem registeredAs_setPrev {s : State} (b : Bool) {k : Nat} {e : Entry} (h : s.entry[k]? = some e)
    (hr : e.registered = true) : (s.setPrevTerminated b).registeredAs k e := by
  refine ⟨if s.idx.toNat - 1 = k then { e with terminated := b } else e, ?_, ?_, ?_, ?_⟩
  · simp only [State.setPrevTerminated, List.getElem?_modify, h]
    split <;> rfl
  all_goals split <;> first | exact hr | rfl

/-- The commit writes the free entry `idx`, which is not registered (10_state.md R38). -/
theorem registeredAs_commit {s : State} (ht : TableInv s) {k : Nat} {e : Entry} (h : s.entry[k]? = some e)
    (hr : e.registered = true) : s.commitClaim.registeredAs k e := by
  have hk : s.idx.toNat ≠ k := by
    rintro rfl
    rw [ht.free _ e h (Nat.le_refl _)] at hr
    cases hr
  refine ⟨e, ?_, hr, rfl, rfl⟩
  rw [← h]
  exact List.getElem?_set_ne hk

/-- A line of a command keeps a registered entry, but for GCALL_RESET's turn for it (R212). -/
theorem lineTick_registered {s : State} (hc : ChainInv s) {k : Nat} {e : Entry} (h : s.entry[k]? = some e)
    (hr : e.registered = true) : (lineTick s.seq.line s).registeredAs k e ∨ s.seq.line = .gcallEntry k := by
  have same {t : State} (he : t.entry = s.entry) := registeredAs_of_eq h hr he
  cases hl : s.seq.line
  case gcallEntry i =>
    by_cases hi : i = k
    · exact .inr (by rw [hi])
    · left
      show (gcallEntryTick i s).registeredAs k e
      unfold gcallEntryTick
      split
      · exact ⟨e, (List.getElem?_set_ne hi).trans h, hr, rfl, rfl⟩
      · exact same rfl
  case claimPropagated =>
    left
    show (claimPropagatedTick s).registeredAs k e
    unfold claimPropagatedTick
    split
    · exact registeredAs_setPrev false h hr
    · exact same rfl
  case rolledBack err =>
    left
    show (rolledBackTick err s).registeredAs k e
    unfold rolledBackTick
    split
    · exact registeredAs_setPrev true h hr
    · exact same rfl
  case claimTerminated =>
    left
    show (claimTerminatedTick s).registeredAs k e
    unfold claimTerminatedTick
    split
    · exact registeredAs_commit (table_of_at hc.table (by rw [hl]; rfl)) h hr
    · exact same rfl
  all_goals exact .inl (hl ▸ same ((lineTick_keeps s).entry (by rw [hl]; rfl)))

theorem tick_registered {s : State} (hc : ChainInv s) {k : Nat} {e : Entry} (h : s.entry[k]? = some e)
    (hr : e.registered = true) : (tick s).registeredAs k e ∨ s.seq.bus = [] ∧ s.seq.line = .gcallEntry k := by
  cases hb : s.seq.bus with
  | cons op rest =>
    have hs := (busTick_frame op rest s).table
    rw [tick, hb]
    exact .inl (registeredAs_of_same h hr hs)
  | nil =>
    rw [tick, hb]
    exact (lineTick_registered hc h hr).imp_right fun hl => ⟨rfl, hl⟩

theorem tick_latch {s : State} (h : s.enumFailed = true) :
    (tick s).enumFailed = true ∨ s.seq.bus = [] ∧ s.seq.line = .gcallLatch := by
  cases hb : s.seq.bus with
  | cons op rest =>
    rw [tick, hb]
    exact .inl ((busTick_frame op rest s).enumFailed.trans h)
  | nil =>
    rw [tick, hb]
    exact ((lineTick_keeps s).latch h).imp_right fun hl => ⟨rfl, hl⟩

theorem tick_ofGcall {s : State} (h : s.seq.line.ofGcall = false) : (tick s).seq.line.ofGcall = false := by
  have hn := tick_owner_ne (s := s) (o := .gcall) nofun (by rw [Ne, Line.owner_gcall, h]; nofun)
  simpa [Line.owner_gcall] using hn

/-- The engine is at no line of GCALL_RESET, and the latch is set. -/
structure LatchApart (u : State) : Prop where
  latch : u.enumFailed = true
  line : u.seq.line.ofGcall = false

theorem latchApart_tick {u : State} (h : LatchApart u) : LatchApart (tick u) := by
  refine ⟨(tick_latch h.latch).resolve_right ?_, tick_ofGcall h.line⟩
  rintro ⟨-, hl⟩
  have := h.line
  rw [hl] at this
  cases this

/-- The engine is at no line of GCALL_RESET, and the chain of `s` is kept. -/
structure ChainApart (s u : State) : Prop where
  inv : ChainInv u
  kept : ChainKept s u
  line : u.seq.line.ofGcall = false

theorem chainApart_tick {s u : State} (h : ChainApart s u) : ChainApart s (tick u) := by
  have hline {l : Line} (hl : l.ofGcall = true) : u.seq.line ≠ l := by
    rintro rfl
    rw [h.line] at hl
    cases hl
  refine ⟨chain_tick h.inv, h.kept.trans ⟨fun hf => ?_, fun k e he hr => ?_⟩, tick_ofGcall h.line⟩
  · exact (latchApart_tick ⟨hf, h.line⟩).latch
  · exact (tick_registered h.inv he hr).resolve_right fun hl => hline rfl hl.2

theorem chainApart_engineRun {s u : State} (h : ChainApart s u) : ChainApart s (engineRun u) :=
  engineRun_keeps (P := ChainApart s) (fun _ => chainApart_tick) u h

theorem launchOf_ofGcall {i : Instr} (hi : i ≠ .gcallReset) : (launchOf i).2.ofGcall = false := by
  cases i <;> first | rfl | exact absurd rfl hi

/-! ## What a claim has assigned -/

/-- Nothing has been assigned. -/
def Unassigned (s u : State) : Prop := u.idx = s.idx ∧ u.nextAddr = s.nextAddr

/-- The entry `idx` has been assigned, at the address `r`. -/
def Assigned (s u : State) (r : Byte) : Prop :=
  u.idx = s.idx + 1 ∧ r = 0x20 + 2 * s.idx ∧ u.nextAddr = 0x20 + 2 * (s.idx + 1) ∧
    ∃ e, u.entry[s.idx.toNat]? = some e ∧ e.registered = true ∧ e.terminated = true ∧ e.addr.setWidth 8 = r

/-- What the outcome of a claim says of the chain. -/
def ClaimOutcome (s u : State) (ok : Bool) (r : Byte) : Prop :=
  ok = true ∧ Assigned s u r ∨ ok = false ∧ Unassigned s u ∧ r = 0

/-- A new claim on its way: nothing assigned before its end, and then what the outcome says (R201). -/
def ClaimPath (s u : State) : Prop :=
  match u.seq.line with
  | .claim a => u.seq.bus = [] ∧ u.holds a = false ∧ Unassigned s u
  | .claimPropagated | .claimProbe | .claimProbed | .claimRetry | .claimAddressed | .claimTerminated
  | .rollback _ | .rolledBack _ | .claimFailed _ => Unassigned s u
  | .finish ok _ r => ClaimOutcome s u ok r
  | .none => ClaimOutcome s u u.ok u.result
  | _ => False

theorem unassigned_same {s u v : State} (h : Unassigned s u) (hi : v.idx = u.idx) (hn : v.nextAddr = u.nextAddr) :
    Unassigned s v := ⟨hi.trans h.1, hn.trans h.2⟩

theorem claimOutcome_same {s u v : State} {ok : Bool} {r : Byte} {n : Nat} (h : ClaimOutcome s u ok r)
    (hi : v.idx = u.idx) (hn : v.nextAddr = u.nextAddr) (ht : SameTable n u.entry v.entry) : ClaimOutcome s v ok r := by
  rcases h with ⟨hok, hidx, hr, hnext, e, he, hreg, hter, haddr⟩ | ⟨hok, hu, hr⟩
  · obtain ⟨e', he', hee⟩ := ht.get he
    exact .inl ⟨hok, hi.trans hidx, hr, hn.trans hnext, e', he', by rw [hee]; exact hreg, by rw [hee]; exact hter,
      by rw [hee]; exact haddr⟩
  · exact .inr ⟨hok, unassigned_same hu hi hn, hr⟩

/-- The address of a listed entry is below 128, so no bit is lost in the 7 of the bus. -/
theorem addr7_chain {n : Byte} (h : n.toNat < 32) :
    (addr7 (Config.chainBase + Config.chainStep * n)).setWidth 8 = Config.chainBase + Config.chainStep * n := by
  revert n
  decide

/-- The commit assigns the chain's next address (R207, R214). -/
theorem assigned_commit {s u : State} (ht : TableInv u) (hc : Claiming u) (hu : Unassigned s u) :
    Assigned s u.commitClaim (u.seq.newAddr.setWidth 8) := by
  obtain ⟨hidx, -⟩ := hu
  have hroom : s.idx.toNat < u.nmax := hidx ▸ hc.room
  have hnew : u.seq.newAddr.setWidth 8 = (0x20 + 2 * s.idx : Byte) := by
    rw [hc.new, ht.next, hidx]
    exact addr7_chain (Nat.lt_of_lt_of_le hroom ht.room)
  refine ⟨congrArg (· + 1) hidx, hnew, ?_, ⟨u.seq.newAddr, true, true, true, u.retryW⟩, ?_, rfl, rfl, rfl⟩
  · show u.nextAddr + Config.chainStep = _
    rw [ht.next, hidx]
    simp only [Config.chainStep, Config.chainBase]
    bv_omega
  · show (u.entry.set u.idx.toNat _)[s.idx.toNat]? = _
    rw [hidx]
    exact List.getElem?_set_self hroom

theorem claimPath_busTick {s u : State} {op : BusOp} {rest : List BusOp} (hb : u.seq.bus = op :: rest)
    (h : ClaimPath s u) : ClaimPath s (busTick op rest u) := by
  have f := busTick_frame op rest u
  unfold ClaimPath at h ⊢
  rw [f.line, f.ok, f.result]
  cases hl : u.seq.line <;> simp only [hl] at h ⊢
  case claim a => simp [hb] at h
  case finish ok e r => exact claimOutcome_same h f.idx f.nextAddr f.table
  case none => exact claimOutcome_same h f.idx f.nextAddr f.table
  all_goals exact unassigned_same h f.idx f.nextAddr

theorem claimPath_lineTick {s u : State} (hc : ChainInv u) (h : ClaimPath s u) :
    ClaimPath s (lineTick u.seq.line u) := by
  have hclaim := hc.claim
  unfold ClaimPath at h
  unfold ClaimInv at hclaim
  cases hl : u.seq.line <;> simp only [hl] at h hclaim
  case none => simpa [lineTick, ClaimPath, hl] using h
  case finish ok e r => exact h
  case claim a =>
    obtain ⟨-, hh, hu⟩ := h
    show ClaimPath s (claimTick a u)
    unfold claimTick
    rw [hh, if_neg Bool.false_ne_true]
    split
    · exact .inr ⟨rfl, hu, rfl⟩
    split
    · exact .inr ⟨rfl, hu, rfl⟩
    dsimp only
    split
    · exact hu
    split <;> exact hu
  case claimTerminated =>
    show ClaimPath s (claimTerminatedTick u)
    unfold claimTerminatedTick
    split
    · exact .inl ⟨rfl, assigned_commit (table_of_at hc.table (by rw [hl]; rfl)) hclaim.1 h⟩
    · exact h
  all_goals
    simp only [lineTick, claimPropagatedTick, claimProbeTick, claimProbedTick, claimRetryTick, claimAddressedTick,
      rollbackTick, rolledBackTick, claimFailedTick]
    repeat' split
  all_goals first
    | exact h
    | exact .inr ⟨rfl, h, rfl⟩

/-- A new claim with the invariants it needs. -/
structure ClaimRun (s u : State) : Prop where
  position : PositionInv u
  chain : ChainInv u
  path : ClaimPath s u

theorem claimRun_tick {s u : State} (h : ClaimRun s u) : ClaimRun s (tick u) :=
  tick_keeps (P := ClaimRun s) (fun _ h => ⟨position_pass h.position, chain_pass h.chain, h.path⟩)
    (fun _ _ _ hb h => ⟨position_busTick hb h.position, chain_busTick hb h.chain, claimPath_busTick hb h.path⟩)
    (fun _ _ h => ⟨position_lineTick h.position, chain_lineTick h.chain, claimPath_lineTick h.chain h.path⟩) u h

end Sys2Proof.Machine

open Sys2Proof Sys2Proof.Machine

/-- Settles O54: by what each micro-step can do to the latch and to an entry, and, for a run, that it does not come to a
line of GCALL_RESET. -/
theorem onlyGcallResetClearsTheChain : Obligations.OnlyGcallResetClearsTheChain := by
  refine ⟨fun i s t hi ht hx => ?_, fun i s t hi hf hx => ?_, fun s t hb hc hl hd ht => ?_,
    fun s => ⟨tick_latch, fun hc _ _ => tick_registered hc⟩⟩
  · cases executed_of_exec hx with
    | refused e => exact chainKept_of_eq rfl rfl
    | range =>
      exact ChainApart.kept (chainApart_engineRun
        ⟨⟨tableAt_of_table (table_of_eq ht rfl rfl rfl) rfl, trivial⟩, chainKept_of_eq rfl rfl, rfl⟩)
    | target => exact chainKept_of_eq rfl rfl
    | ran =>
      exact ChainApart.kept (chainApart_engineRun
        ⟨chain_launched ht i, chainKept_of_eq rfl rfl, launchOf_ofGcall hi⟩)
  · cases executed_of_exec hx with
    | refused e => exact hf
    | range => exact LatchApart.latch (engineRun_keeps (P := LatchApart) (fun _ => latchApart_tick) _ ⟨hf, rfl⟩)
    | target => exact hf
    | ran =>
      exact LatchApart.latch
        (engineRun_keeps (P := LatchApart) (fun _ => latchApart_tick) _ ⟨hf, launchOf_ofGcall hi⟩)
  · rcases stepped_running (stepped_of_step ht) hb hd with h | rfl
    · exact ⟨chainKept_of_eq h.entry h.enumFailed, by rw [h.seq, hl]⟩
    · obtain ⟨-, hkept, hline⟩ := chainApart_engineRun ⟨hc, .refl s, hl⟩
      exact ⟨hkept, hline⟩

/-- Settles O48: every micro-step keeps a new claim on its path (`ClaimRun`), and the path ends in its outcome. -/
theorem claimAssignsTheNextAddressOrNone : Obligations.ClaimAssignsTheNextAddressOrNone := by
  intro s t a ht _ _ _ _ ha hx hb
  have hrun : ClaimRun s t := by
    cases executed_of_exec hx with
    | refused e =>
      exact ⟨position_refuse s e, ⟨tableAt_of_table (table_of_eq ht rfl rfl rfl) rfl, trivial⟩,
        .inr ⟨rfl, ⟨rfl, rfl⟩, rfl⟩⟩
    | range =>
      exact engineRun_keeps (P := ClaimRun s) (fun _ => claimRun_tick) _ ⟨position_goto _ rfl nofun nofun,
        ⟨tableAt_of_table (table_of_eq ht rfl rfl rfl) rfl, trivial⟩, .inr ⟨rfl, ⟨rfl, rfl⟩, rfl⟩⟩
    | target h => cases h
    | ran =>
      exact engineRun_keeps (P := ClaimRun s) (fun _ => claimRun_tick) _ ⟨position_goto _ rfl nofun nofun,
        chain_launched ht _, rfl, holds_of_asks ha, rfl, rfl⟩
  have hl := line_none_of_idle hrun.position hb
  have hpath := hrun.path
  unfold ClaimPath at hpath
  rw [hl] at hpath
  rcases hpath with ⟨hok, hidx, hr, hn, hentry⟩ | ⟨hok, ⟨hidx, hn⟩, hr⟩
  · exact .inl ⟨hok, hidx, hr, hn, hentry⟩
  · exact .inr ⟨hok, hidx, hr, hn⟩

end

section
/-! A wire command run by itself, for a target that no host command has checked (20_memory.md R66; log 11). -/

namespace Sys2Proof.Machine

theorem targetOk_eq_false {t : Byte} (ht : 0x7F < t) : targetOk t = false :=
  decide_eq_false (BitVec.not_le.2 ht)

theorem wireAlone_of_target_above {t : Byte} (ht : 0x7F < t) (op : BusOp) (s : State) :
    wireAlone t op s = .next { s with seq := { s.seq with okx := false, rx := [] } } := by
  simp [wireAlone, targetOk_eq_false ht]

end Sys2Proof.Machine

open Sys2Proof Sys2Proof.Machine

/-- Settles O51: each of the six commands is its own transaction run alone, which looks at the target first. -/
theorem wireTargetAboveMaxIsRejected : Obligations.WireTargetAboveMaxIsRejected := by
  intro s t p i ht hi
  simp only [List.mem_cons, List.not_mem_nil, or_false] at hi
  rcases hi with rfl | rfl | rfl | rfl | rfl | rfl <;> exact wireAlone_of_target_above ht _ s

end

section
/-! Decoding and encoding as one relation: a code decodes to an instruction exactly when the instruction has an encoding
and the code is that encoding (30_encoding.md R90 to R92, R96, R99). -/

namespace Sys2Proof

/-! ## Format C -/

theorem encode_of_decodeCommand {w : Word} {i : Instr} (h : decodeCommand w = some i) : encode i = .command w := by
  simp only [decodeCommand, ite_some_iff, readIf_some, Decidable.not_not, Bool.and_eq_true, Bool.not_eq_true', beq_iff_eq,
    reduceCtorEq, and_false, false_or, or_false] at h
  obtain ⟨hr, h⟩ := h
  obtain ⟨ho, hu, rfl⟩ | ⟨-, ⟨ho, hu, rfl⟩ | ⟨-, ⟨ho, hu, rfl⟩ | ⟨-, ⟨ho, hu, rfl⟩ | ⟨-, ⟨ho, hu, rfl⟩ |
    ⟨-, ⟨ho, hu, rfl⟩ | ⟨-, ⟨ho, hu, rfl⟩ | ⟨-, ⟨ho, hu, rfl⟩ | ⟨-, ⟨ho, hu, rfl⟩ | ⟨-, ⟨ho, hu, rfl⟩ |
    ⟨-, ho, hu, rfl⟩⟩⟩⟩⟩⟩⟩⟩⟩⟩ := h <;>
  simp [encode, pack_iff, hr, ho, hu]

theorem wellFormed_of_encode_command {w : Word} {i : Instr} (h : encode i = .command w) : WellFormed i = true := by
  cases i <;> cases h <;> rfl

theorem decodeCommand_of_encode {w : Word} {i : Instr} (h : encode i = .command w) : decodeCommand w = some i := by
  cases i <;> cases h <;>
    simp [decodeCommand, readIf, Config.opStart, Config.opStop, Config.opWritebyte, Config.opReadbyte, Config.opBusscan,
      Config.opInit, Config.opClaim, Config.opDevTickread, Config.opDevReset, Config.opGcallReset, Config.opDevColor]

/-- A word decodes to an instruction exactly when it is the instruction's encoding. -/
theorem decodeCommand_eq_some_iff {w : Word} {i : Instr} : decodeCommand w = some i ↔ encode i = .command w :=
  ⟨encode_of_decodeCommand, decodeCommand_of_encode⟩

/-! ## Format W -/

theorem encode_of_wireNoPayload {t sel : Byte} {i : Instr} (ht : targetOk t = true)
    (h : wireNoPayload t sel = some i) : encode i = .wire [packTarget t false, sel] ∧ WellFormed i = true := by
  simp only [wireNoPayload, ite_some_iff, Option.some.injEq, reduceCtorEq, and_false, or_false] at h
  obtain ⟨rfl, rfl⟩ | ⟨-, ⟨rfl, rfl⟩ | ⟨-, rfl, rfl⟩⟩ := h <;> exact ⟨rfl, ht⟩

theorem encode_of_wireThree {t sel x : Byte} {i : Instr} (ht : targetOk t = true) (h : wireThree t sel x = some i) :
    encode i = .wire [packTarget t false, sel, x] ∧ WellFormed i = true := by
  simp only [wireThree, ite_some_iff, Option.some.injEq, reduceCtorEq, and_false, or_false] at h
  obtain ⟨rfl, rfl, rfl⟩ | ⟨-, ⟨rfl, rfl, rfl⟩ | ⟨-, rfl, rfl⟩⟩ := h <;> exact ⟨rfl, ht⟩

theorem encode_of_decodeWire {bs : List Byte} {i : Instr} (h : decodeWire bs = some i) :
    encode i = .wire bs ∧ WellFormed i = true := by
  match bs, h with
  | [ab], h =>
    obtain ⟨t, hw, rfl⟩ := Option.map_eq_some_iff.1 h
    obtain ⟨rfl, ht⟩ := pack_writeTarget ab t hw
    exact ⟨rfl, ht⟩
  | [ab, sel], h =>
    obtain ⟨t, hw, hs⟩ := Option.bind_eq_some_iff.1 h
    obtain ⟨rfl, ht⟩ := pack_writeTarget ab t hw
    exact encode_of_wireNoPayload ht hs
  | [ab, sel, x], h =>
    obtain ⟨t, hw, hs⟩ := Option.bind_eq_some_iff.1 h
    obtain ⟨rfl, ht⟩ := pack_writeTarget ab t hw
    exact encode_of_wireThree ht hs
  | [ab, sel, x, y], h =>
    obtain ⟨⟨hw, rfl, hm⟩, hi⟩ := Option.ite_none_right_eq_some.1 h
    obtain ⟨rfl, -⟩ := pack_writeTarget ab _ hw
    cases hi
    rw [hm]
    exact ⟨rfl, rfl⟩

theorem decodeWire_of_encode {bs : List Byte} {i : Instr} (h : encode i = .wire bs) (hi : WellFormed i = true) :
    decodeWire bs = some i := by
  have hboot : writeTarget (packTarget (Config.bootAddr.setWidth 8) false) = _ := writeTarget_pack _ rfl
  cases i <;> cases h
  case wSetaddr p => simp [decodeWire, hboot, wireThree, Config.selTickread, Config.selSetaddr]
  case wGcreset => rfl
  all_goals
    simp [decodeWire, writeTarget_pack _ hi, wireNoPayload, wireThree, Config.selTickread, Config.selReset,
      Config.selPropagate, Config.selTerminate, Config.selSetaddr, Config.selColor]

/-! ## The two formats together -/

theorem decode_eq_some_iff {c : Code} {i : Instr} : decode c = some i ↔ encode i = c ∧ WellFormed i = true := by
  cases c with
  | command w =>
    exact decodeCommand_eq_some_iff.trans ⟨fun h => ⟨h, wellFormed_of_encode_command h⟩, And.left⟩
  | wire bs => exact ⟨encode_of_decodeWire, fun h => decodeWire_of_encode h.1 h.2⟩

/-! ## Match and mask -/

/-- The mask of a row of format C: the opcode, the reserved bits, and the operand fields that the command does not use
(30_encoding.md R92). -/
def commandMask (usesF usesB usesA : Bool) : Word :=
  BitVec.allOnes 8 ++ BitVec.allOnes 7 ++ (if usesF then 0 else BitVec.allOnes 1) ++
    (if usesB then 0 else BitVec.allOnes 8) ++ (if usesA then 0 else BitVec.allOnes 8)

theorem unused_field_iff {n : Nat} (used : Bool) (x : BitVec n) :
    x &&& (if used then 0 else BitVec.allOnes n) = 0 ↔ (used = false → x = 0) := by
  cases used <;> simp

/-- A field is an operand that is 0 where it is unused: it is 0 there, and the operand where it is used. -/
theorem field_eq_iff {α : Type} {zero x y : α} (used : Bool) (h : used = false → x = zero) :
    y = x ↔ (used = false → y = zero) ∧ (used = true → x = y) := by
  cases used
  · simp [h rfl]
  · simp [eq_comm]

theorem ofBool_eq_zero_iff (f : Bool) : BitVec.ofBool f = 0 ↔ f = false := by
  cases f <;> decide

section

variable {w v : Word} {op : Byte}

/-- The test under a row's mask fixes the opcode and sets the reserved bits and every unused field to 0 (R90, R92). -/
theorem masked_iff {m : Word} {usesF usesB usesA : Bool} (hm : commandMask usesF usesB usesA = m)
    (hv : packCommand op false 0 0 = v) :
    w &&& m = v ↔
      fieldOp w = op ∧ fieldReserved w = 0 ∧ (usesF = false → fieldF w = false) ∧ (usesB = false → fieldB w = 0) ∧
        (usesA = false → fieldA w = 0) := by
  rw [← hm, ← hv, commandMask, packCommand, show BitVec.ofBool false = 0 from rfl, mask_fields, BitVec.and_allOnes,
    BitVec.and_allOnes, unused_field_iff, unused_field_iff, unused_field_iff, ofBool_eq_zero_iff]

/-- A word is a command's encoding exactly when it passes the row's test and the used fields are the operands. -/
theorem pack_iff_masked (usesF usesB usesA : Bool) (m : Word) {f : Bool} {b a : Byte}
    (hm : commandMask usesF usesB usesA = m) (hv : packCommand op false 0 0 = v) (hf : usesF = false → f = false)
    (hb : usesB = false → b = 0) (ha : usesA = false → a = 0) :
    packCommand op f b a = w ↔
      w &&& m = v ∧ (usesA = true → a = fieldA w) ∧ (usesB = true → b = fieldB w) ∧ (usesF = true → f = fieldF w) := by
  rw [masked_iff hm hv, pack_iff, field_eq_iff usesF hf, field_eq_iff usesB hb, field_eq_iff usesA ha]
  constructor
  · rintro ⟨ho, hr, ⟨hf0, hf1⟩, ⟨hb0, hb1⟩, ha0, ha1⟩
    exact ⟨⟨ho, hr, hf0, hb0, ha0⟩, ha1, hb1, hf1⟩
  · rintro ⟨⟨ho, hr, hf0, hb0, ha0⟩, ha1, hb1, hf1⟩
    exact ⟨ho, hr, ⟨hf0, hf1⟩, ⟨hb0, hb1⟩, ha0, ha1⟩

/-- START's row. -/
theorem pack_address_flag_iff {a : Byte} {f : Bool} (hv : packCommand op false 0 0 = v) :
    packCommand op f 0 a = w ↔ w &&& 0xFFFEFF00 = v ∧ a = fieldA w ∧ f = fieldF w := by
  simpa using pack_iff_masked true false true 0xFFFEFF00 rfl hv nofun (fun _ => rfl) nofun

/-- The rows with two byte operands. -/
theorem pack_two_bytes_iff {a b : Byte} (hv : packCommand op false 0 0 = v) :
    packCommand op false b a = w ↔ w &&& 0xFFFF0000 = v ∧ a = fieldA w ∧ b = fieldB w := by
  simpa using pack_iff_masked false true true 0xFFFF0000 rfl hv (fun _ => rfl) nofun nofun

/-- The rows with one byte operand. -/
theorem pack_one_byte_iff {a : Byte} (hv : packCommand op false 0 0 = v) :
    packCommand op false 0 a = w ↔ w &&& 0xFFFFFF00 = v ∧ a = fieldA w := by
  simpa using pack_iff_masked false false true 0xFFFFFF00 rfl hv (fun _ => rfl) (fun _ => rfl) nofun

/-- READBYTE's row. -/
theorem pack_flag_iff {f : Bool} (hv : packCommand op false 0 0 = v) :
    packCommand op f 0 0 = w ↔ w &&& 0xFFFEFFFF = v ∧ f = fieldF w := by
  simpa using pack_iff_masked true false false 0xFFFEFFFF rfl hv nofun (fun _ => rfl) (fun _ => rfl)

/-- The rows without operands. -/
theorem pack_no_operand_iff (hv : packCommand op false 0 0 = v) :
    packCommand op false 0 0 = w ↔ w &&& 0xFFFFFFFF = v := by
  simpa using pack_iff_masked false false false 0xFFFFFFFF rfl hv (fun _ => rfl) (fun _ => rfl)
    (fun _ => rfl)

end

end Sys2Proof

open Sys2Proof

/-- Settles O1: a code decodes to the instructions it is the encoding of. -/
theorem decodeEncodeAgree : Obligations.DecodeEncodeAgree := fun _ hi => decode_eq_some_iff.2 ⟨rfl, hi⟩

/-- Settles O2: the same relation from the word's side. -/
theorem commandWordHasOneMeaning : Obligations.CommandWordHasOneMeaning := fun w _ h =>
  decode_eq_some_iff (c := .command w) |>.1 h

/-- Settles O3: the same relation from the bytes' side. -/
theorem wireBytesHaveOneMeaning : Obligations.WireBytesHaveOneMeaning := fun bs _ h =>
  decode_eq_some_iff (c := .wire bs) |>.1 h

/-- Settles O4: a word decodes to a command exactly when it is the command's encoding, which the row's mask and match test
(`pack_iff_masked`, for the operands that the command has). -/
theorem commandDecodesByMatchAndMask : Obligations.CommandDecodesByMatchAndMask := by
  intro w a b f
  simp only [decodeCommand_eq_some_iff, encode, Code.command.injEq]
  exact ⟨fun _ _ => pack_address_flag_iff rfl, pack_no_operand_iff rfl, fun _ => pack_one_byte_iff rfl,
    fun _ => pack_flag_iff rfl, fun _ _ => pack_two_bytes_iff rfl, pack_no_operand_iff rfl,
    fun _ => pack_one_byte_iff rfl, fun _ => pack_one_byte_iff rfl, fun _ => pack_one_byte_iff rfl,
    pack_no_operand_iff rfl, fun _ _ => pack_two_bytes_iff rfl⟩

/-- Settles O5: each sample is evaluated. -/
theorem sampleWordsDecode : Obligations.SampleWordsDecode := by
  unfold Obligations.SampleWordsDecode
  decide

end

section
/-! A start and the command START (41_bus_commands.md R142, R144). -/

open Sys2Proof Sys2Proof.Machine

/-- Settles O27: the run of `DoStart`, its end state and its writes (`reach_doStart`). -/
theorem doStartMakesTheCondition : Obligations.DoStartMakesTheCondition := by
  intro s addr rd o more rest hg hl
  obtain ⟨n, h, -⟩ := reach_doStart s addr rd o more rest hg hl
  exact ⟨n, ticks_of_ticks h⟩

/-- Settles O31: the checks let the command run, `DoStart` runs to its end, and the next line completes. -/
theorem startEndsWithTheAck : Obligations.StartEndsWithTheAck := by
  intro s a f o more hg hf hi ha hl
  have hrun := (reach_doStart (s.started .startDone) (addr7 a) f o more [] hg hl).reach
  let u := (s.started .startDone).afterStart (addr7 a) f o more
  rw [← addressByte_eq]
  exact ⟨{ u.seq with bus := [], line := .none }, rfl, rfl,
    ((checked_ok (initialised_ok hf hi)).trans (addressed_ok ha)).trans
      (launch_completes (t := u) hrun rfl hg nofun nofun rfl rfl hg (by decide))⟩

end

section
/-! The wire commands run by themselves (30_encoding.md R99; log 11): a transaction on a free bus, with a target in range. -/

namespace Sys2Proof.Machine

theorem wireAlone_of_target_le {t : Byte} (ht : t ≤ 0x7F) (op : BusOp) (s : State) :
    wireAlone t op s = launch [op] .wireDone s := if_pos (decide_eq_true ht)

theorem wireStep_of_decoded {s : State} {i : Instr} (hd : decodeWire s.wireReq = some i) :
    wireStep s = exec i { s with wireReq := [] } := by simp [wireStep, hd]

/-- A wire command's transaction ends, and so does the command: the engine is at no command, and the values the
transaction returned are left (log 11). -/
theorem launch_wireDone {k : Nat} {op : BusOp} {s u : State} {q : Seq}
    (h : Reach k ((s.started .wireDone).onward [op]) ({ u with seq := q }.onward [])) (hq : q.line = .wireDone)
    (hg : u.gap = none) (hk : k + 1 ≤ maxTicks) :
    launch [op] .wireDone s = .next { u with busy := false, seq := { q with bus := [], line := .none } } := by
  have hend : Reach 1 ({ u with seq := q }.onward [])
      { u with busy := false, seq := { q with bus := [], line := .none } } :=
    reach_line rfl hg (by simp [hq]) (by simp [hq]) (by simp [hq]; rfl) rfl hg
  exact launch_eq (h.trans hend) (paused_of_atRest rfl rfl) hk

/-- A wire command without a read phase returns its start's ack. -/
theorem launch_wireWrite {s : State} {addr : BusAddr} {bytes : List Byte} {w : Write} {more : List Drive} (hg : s.gap = none)
    (ho : s.owned = false) (hb : bytes.length ≤ 3) (hf : w.fits bytes.length) (hl : s.looks = w.looks ++ more) :
    ∃ q : Seq, q.bus = [] ∧ q.line = .none ∧ q.okx = w.start.acked ∧
      launch [.xfer addr bytes 0] .wireDone s = .next { s.afterWrite addr bytes w more with busy := false, seq := q } := by
  obtain ⟨q, hq, hok, h⟩ := reach_write_xfer (s.started .wireDone) addr bytes w more [] hg ho hf hl
  refine ⟨{ q with bus := [], line := .none }, rfl, rfl, hok, ?_⟩
  exact launch_wireDone (u := (s.started .wireDone).afterWrite addr bytes w more) h hq.line hg (by unfold maxTicks; omega)

end Sys2Proof.Machine

open Sys2Proof Sys2Proof.Machine

/-- Settles O49: each command is its own transaction run alone, of at most three bytes after the address byte. -/
theorem wireWritesSendTheirBytes : Obligations.WireWritesSendTheirBytes := by
  intro s t p w more hg ho ht hl i addr bytes hi hf
  obtain ⟨hexec, hb⟩ : exec i s = launch [.xfer addr bytes 0] .wireDone s ∧ bytes.length ≤ 3 := by
    simp only [← addr7_eq, List.mem_cons, List.not_mem_nil, or_false, Prod.mk.injEq] at hi
    have alone := fun op => wireAlone_of_target_le ht op s
    obtain ⟨rfl, rfl, rfl⟩ | ⟨rfl, rfl, rfl⟩ | ⟨rfl, rfl, rfl⟩ | ⟨rfl, rfl, rfl⟩ | ⟨rfl, rfl, rfl⟩ | ⟨rfl, rfl, rfl⟩ |
      ⟨rfl, rfl, rfl⟩ := hi
    · exact ⟨alone (wireProbe _), by simp⟩
    · exact ⟨alone (wireReset _), by simp⟩
    · exact ⟨alone (wirePropagate _), by simp⟩
    · exact ⟨alone (wireTerminate _), by simp⟩
    · exact ⟨rfl, by simp⟩
    · exact ⟨rfl, by simp⟩
    · exact ⟨alone (wireColor _ p), by simp⟩
  rw [hexec]
  exact launch_wireWrite hg ho hb hf hl

/-- Settles O50: the transaction has a read phase, or its start is nacked. -/
theorem wireTickreadReadsSixBytes : Obligations.WireTickreadReadsSixBytes := by
  intro s t more hg ho ht
  have hexec : exec (.wTickread t) s = launch [wireTickread (addr7 t)] .wireDone s := wireAlone_of_target_le ht _ s
  rw [hexec, ← addr7_eq]
  constructor
  · intro x hf hl
    obtain ⟨q, hq, hok, hrx, h⟩ :=
      reach_read_xfer (s.started .wireDone) (addr7 t) [0x40] 6 x more [] hg ho (by decide) hf hl
    exact ⟨{ q with bus := [], line := .none }, rfl, rfl, hok, hrx,
      launch_wireDone (u := (s.started .wireDone).afterRead (addr7 t) [0x40] x more) h hq.line hg (by decide)⟩
  · intro w hf hn hl
    have hnone : w.frames = [] := List.length_eq_zero_iff.1 (by simpa [Write.fits, hn] using hf)
    obtain ⟨q, hq, hok, h⟩ :=
      reach_nacked_xfer (s.started .wireDone) (addr7 t) [0x40] 6 w more [] hg ho hn hnone hl
    exact ⟨{ q with bus := [], line := .none }, rfl, rfl, hok.trans hn,
      launch_wireDone (u := (s.started .wireDone).afterWrite (addr7 t) [0x40] w more) h hq.line hg (by decide)⟩

/-- Settles O11: a request that decodes is not empty, so the step takes it. -/
theorem stepRunsTheWireRequest : Obligations.StepRunsTheWireRequest := by
  intro s i hb hd
  have hw : s.wireReq ≠ [] := fun h => by
    rw [h] at hd
    cases hd
  rw [step_of_wireReq hb hw, wireStep_of_decoded hd]

end

section
/-! The line primitives and the bit cell (40_line_primitives.md R120 to R128). -/

namespace Sys2Proof.Machine

/-- `WriteCtrl` is two micro-steps, the write and the settle delay, of which only the first writes (R120). -/
theorem ticks_writeCtrl {s : State} {op : BusOp} {rest : List BusOp} {c : Ctrl} (hg : s.gap = none)
    (hw : op.writes = true)
    (ht : busTick op rest (s.onward (op :: rest)) = (s.onward (op :: rest)).writeCtrl c rest) :
    ticks 2 (s.onward (op :: rest)) = { s with ctrl := c }.onward rest ∧
      ctrlWrites 2 (s.onward (op :: rest)) = [c] := by
  let u : State := { s with ctrl := c }
  have hwrite : tick (s.onward (op :: rest)) = u.onward (.delay .settle :: rest) :=
    (tick_bus rfl (by rw [ht]; exact hg)).trans ht
  have hdelay : tick (u.onward (.delay .settle :: rest)) = u.onward rest :=
    tick_bus (s := u.onward (.delay .settle :: rest)) rfl hg
  have hwrote : wrote (s.onward (op :: rest)) = [c] := by
    simp only [wrote, State.onward_bus, hw, if_true, hwrite]
    rfl
  have hsilent : wrote (u.onward (.delay .settle :: rest)) = [] := rfl
  exact ⟨by rw [ticks, ticks, ticks, hwrite, hdelay],
    by rw [ctrlWrites, ctrlWrites, ctrlWrites, hwrote, hwrite, hsilent]; rfl⟩

end Sys2Proof.Machine

open Sys2Proof Sys2Proof.Machine

/-- Settles O21: each of the three lines is one `WriteCtrl`, of its own three fields. -/
theorem lineWritesSetTheControlRegister : Obligations.LineWritesSetTheControlRegister := by
  intro s rest hg
  obtain ⟨hrelease, hreleased⟩ := ticks_writeCtrl (op := .sdaRelease) (rest := rest) hg rfl rfl
  obtain ⟨hlow, hlowered⟩ := ticks_writeCtrl (op := .sclLow) (rest := rest) hg rfl rfl
  exact ⟨fun v => ticks_writeCtrl (op := .sdaOut v) hg rfl rfl, hrelease, hreleased, hlow, hlowered⟩

/-- Settles O22: the run of `SCL_raise`, its end state and its one write (`reach_sclRaise`). -/
theorem sclRaiseWaitsForTheLine : Obligations.SclRaiseWaitsForTheLine := by
  intro s r more rest hg hl
  obtain ⟨n, h, -⟩ := reach_sclRaise s r more rest hg hl
  exact ⟨n, ticks_of_ticks h⟩

/-- Settles O23: the run of `WaitIdle` through its failed iterations, without a write (`reach_awaitIdle`). -/
theorem waitIdleWaitsForBothLines : Obligations.WaitIdleWaitsForBothLines := by
  intro s ms x y more rest hg hc hd hl
  obtain ⟨n, h, -⟩ := reach_awaitIdle s ms x y more rest hg hc hd hl
  exact ⟨n, ticks_of_ticks h⟩

/-- Settles O24: the run of `BitCell`, its end state, its sample and its writes (`reach_bitCell`). -/
theorem bitCellCarriesOneBit : Obligations.BitCellCarriesOneBit := by
  intro s d v c more rest hg hc hl
  obtain ⟨n, h, -⟩ := reach_bitCell s d v c more rest hg hc hl
  exact ⟨n, ticks_of_ticks h⟩

end

section
/-! A stop, the command STOP, INIT, and the rejection of an address operand above ADDR_MAX (41_bus_commands.md R141,
R143, R146, R147). -/

namespace Sys2Proof.Machine

/-- A command with an address operand above ADDR_MAX answers at its first line, once its checks let it run (R143). -/
theorem answers_addrRange {i : Instr} {s : State} {n : Needs} {a : Byte} {run : Host.Outcome State Fault Refusal}
    (hexec : exec i s = checked n s (addressed a s run)) (hn : firstFailure n s = .none) (ha : 0x7F < a)
    (hd : s.hostDue = false) :
    Answers i s ({ s with gap := s.gap.map (· - 1) }.outcome false .addrRange 0) := by
  refine ⟨{ s.seq with bus := [], line := .none }, rfl, rfl, ?_⟩
  rw [hexec, checked_ok hn, addressed_above ha]
  exact launch_finish_due hd false .addrRange 0

/-- INIT with equal versions releases the lines, then the bus, and then sets `init_done`, each in its own micro-step
(R141; log 2). -/
theorem reach_initSuccess {s : State} (hg : s.gap = none) (hv : s.params.hwVersion = s.params.expectedVersion) :
    Reach 5 ((s.started .initCheck).onward [])
      (({ s with ctrl := ⟨false, true, true⟩, owned := false, initDone := true }.started (.finish true .none 0)).onward
        []) := by
  have hcheck : Reach 1 ((s.started .initCheck).onward []) ((s.started .initRelease).onward [.releaseLines]) :=
    reach_line rfl hg nofun nofun (if_neg (not_not_intro hv)) rfl hg
  have hlines := (reach_releaseLines (s.started .initRelease) [] hg).reach
  let u : State := { s with ctrl := ⟨false, true, true⟩ }
  have howned : Reach 1 ((u.started .initRelease).onward [])
      (({ u with owned := false }.started .initMark).onward []) := reach_line rfl hg nofun nofun rfl rfl hg
  have hmark : Reach 1 (({ u with owned := false }.started .initMark).onward [])
      (({ u with owned := false, initDone := true }.started (.finish true .none 0)).onward []) :=
    reach_line rfl hg nofun nofun rfl rfl hg
  exact ((hcheck.trans hlines).trans howned).trans hmark

/-- INIT with unequal versions sets `fatal` (R141). -/
theorem reach_initMismatch {s : State} (hg : s.gap = none) (hv : s.params.hwVersion ≠ s.params.expectedVersion) :
    Reach 1 ((s.started .initCheck).onward [])
      (({ s with fatal := true }.started (.finish false .fatal 0)).onward []) :=
  reach_line rfl hg nofun nofun (if_pos hv) rfl hg

end Sys2Proof.Machine

open Sys2Proof Sys2Proof.Machine

/-- Settles O28: the run of `DoStop`, its end state and its writes (`reach_doStop`). -/
theorem doStopMakesTheCondition : Obligations.DoStopMakesTheCondition := by
  intro s r more rest hg hl
  obtain ⟨n, h, -⟩ := reach_doStop s r more rest hg hl
  exact ⟨n, ticks_of_ticks h⟩

/-- Settles O33: the checks let the command run, `DoStop` runs to its end, and the next line completes. -/
theorem stopReleasesTheBus : Obligations.StopReleasesTheBus := by
  intro s r more hg hf hi hl
  have hrun := (reach_doStop (s.started (.finish true .none 0)) r more [] hg hl).reach
  let u := (s.started (.finish true .none 0)).afterStop r more
  exact ⟨{ u.seq with bus := [], line := .none }, rfl, rfl, (checked_ok (initialised_ok hf hi)).trans
    (launch_completes (t := u.onward []) hrun rfl hg nofun nofun rfl rfl hg (by decide))⟩

/-- Settles O30: the check passes and INIT goes on to its last line, or it fails and leads there at once. -/
theorem initChecksTheVersion : Obligations.InitChecksTheVersion := by
  intro s hg hf hi
  have hchecks := notInitialised_ok hf hi
  refine ⟨fun hv => ?_, fun hv => ?_⟩
  · let u : State := { s with ctrl := ⟨false, true, true⟩, owned := false, initDone := true }
    exact ⟨{ s.seq with bus := [], line := .none }, rfl, rfl, (checked_ok hchecks).trans
      (launch_completes (t := u) (reach_initSuccess hg hv) rfl hg nofun nofun rfl rfl hg (by decide))⟩
  · exact ⟨{ s.seq with bus := [], line := .none }, rfl, rfl, (checked_ok hchecks).trans
      (launch_completes (t := { s with fatal := true }) (reach_initMismatch hg hv) rfl hg nofun nofun rfl rfl hg
        (by decide))⟩

/-- Settles O32: START needs a successful INIT, the device commands a free bus besides; then the address decides. -/
theorem addressAboveMaxIsRejected : Obligations.AddressAboveMaxIsRejected := by
  intro s a b f hq hf hi ha
  have hd : s.hostDue = false := hostDue_eq_false_iff.2 hq
  refine ⟨answers_addrRange rfl (initialised_ok hf hi) ha hd, fun ho => ?_⟩
  have hn := freeBus_ok hf hi ho
  exact ⟨answers_addrRange rfl hn ha hd, answers_addrRange rfl hn ha hd, answers_addrRange rfl hn ha hd⟩

end

section
/-! INIT, the raw commands and BUSSCAN stay out of `Xfer`, the one way to the chain table (41_bus_commands.md R144,
42_bus_scan.md R160, 43_device_commands.md R176). -/

namespace Sys2Proof.Machine

theorem SameChain.refl (s : State) : SameChain s s := ⟨rfl, rfl, rfl, rfl⟩

theorem SameChain.trans {s t u : State} (h : SameChain s t) (h' : SameChain t u) : SameChain s u :=
  ⟨h'.entry.trans h.entry, h'.idx.trans h.idx, h'.nextAddr.trans h.nextAddr, h'.enumFailed.trans h.enumFailed⟩

theorem bitCellBody_raw (d v : Bool) : (bitCellBody d v).all BusOp.raw = true := by cases d <;> rfl

/-- A bus line outside `Xfer` leaves the table alone (R176). -/
theorem busTick_entry_of_raw {op : BusOp} (h : op.raw = true) (rest : List BusOp) (s : State) :
    (busTick op rest s).entry = s.entry := by
  cases op
  case awaitScl =>
    show (awaitSclTick rest s).entry = s.entry
    unfold awaitSclTick
    split <;> simp [State.onward]
  case awaitIdle => exact look_entry s
  case awaitIdleSda scl =>
    show (awaitIdleSdaTick scl rest s).entry = s.entry
    unfold awaitIdleSdaTick
    split <;> exact look_entry s
  case sample => exact look_entry s
  case touch => cases h
  all_goals rfl

/-- A bus line outside `Xfer` calls no line of it. -/
theorem busTick_bus_raw {op : BusOp} {rest : List BusOp} {s : State} (hb : s.seq.bus = op :: rest)
    (ho : op.raw = true) (hr : rest.all BusOp.raw = true) : (busTick op rest s).seq.bus.all BusOp.raw = true := by
  have hall : (op :: rest).all BusOp.raw = true := by rw [List.all_cons, ho, hr]; rfl
  have hbody {body : List BusOp} (h : body.all BusOp.raw = true) : (body ++ rest).all BusOp.raw = true := by
    rw [List.all_append, h, hr]; rfl
  cases op
  case awaitScl =>
    show (awaitSclTick rest s).seq.bus.all BusOp.raw = true
    unfold awaitSclTick
    split
    · exact hr
    · rwa [look_seq, hb]
  case awaitIdle => exact hr
  case awaitIdleSda scl =>
    show (awaitIdleSdaTick scl rest s).seq.bus.all BusOp.raw = true
    unfold awaitIdleSdaTick
    split <;> exact hr
  case bitCell d v => exact hbody (bitCellBody_raw d v)
  case txByte b => exact hbody (body := txByteBody b) rfl
  case rxByte last => exact hbody (body := rxByteBody last) rfl
  case doStart addr rd => exact hbody (body := doStartBody addr rd) rfl
  case doStop => exact hbody (body := doStopBody) rfl
  case xfer => cases ho
  case xferStarted => cases ho
  case xferRestarted => cases ho
  all_goals exact hr

/-- The engine is inside INIT, a raw command or BUSSCAN, or at no command, and the chain is that of `s`. -/
def RawApart (s u : State) : Prop := SameChain s u ∧ u.runsRaw

theorem rawApart_busTick {op : BusOp} {rest : List BusOp} {u : State} (hb : u.seq.bus = op :: rest) (h : u.runsRaw) :
    RawApart u (busTick op rest u) := by
  obtain ⟨hbus, hline⟩ := h
  rw [hb, List.all_cons, Bool.and_eq_true] at hbus
  obtain ⟨ho, hr⟩ := hbus
  have f := busTick_frame op rest u
  exact ⟨⟨busTick_entry_of_raw ho rest u, f.idx, f.nextAddr, f.enumFailed⟩, busTick_bus_raw hb ho hr,
    f.line.symm ▸ hline⟩

theorem rawApart_scanTick (c : BitVec 9) (max count : Byte) (first : Bool) (u : State) :
    RawApart u (scanTick c max count first u) := by
  unfold scanTick
  split
  · exact ⟨⟨rfl, rfl, rfl, rfl⟩, rfl, rfl⟩
  split
  · exact ⟨⟨rfl, rfl, rfl, rfl⟩, rfl, rfl⟩
  · exact ⟨⟨rfl, rfl, rfl, rfl⟩, by cases first <;> rfl, rfl⟩

theorem rawApart_lineTick {u : State} (h : u.runsRaw) : RawApart u (lineTick u.seq.line u) := by
  have hline := h.2
  cases hl : u.seq.line <;> rw [hl] at hline
  case none => exact ⟨.refl u, h⟩
  case scan c max count first => exact rawApart_scanTick c max count first u
  case initCheck =>
    show RawApart u (initCheckTick u)
    unfold initCheckTick
    split <;> exact ⟨⟨rfl, rfl, rfl, rfl⟩, rfl, rfl⟩
  case finish | initRelease | initMark | startDone | writeDone | readDone | scanned =>
    exact ⟨⟨rfl, rfl, rfl, rfl⟩, rfl, rfl⟩
  all_goals cases hline

theorem rawApart_tick {s u : State} (h : RawApart s u) : RawApart s (tick u) :=
  tick_keeps (P := RawApart s) (fun _ ⟨⟨he, hi, hn, hf⟩, hr⟩ => ⟨⟨he, hi, hn, hf⟩, hr⟩)
    (fun _ _ _ hb ⟨hs, hr⟩ => (rawApart_busTick hb hr).imp_left hs.trans)
    (fun _ _ ⟨hs, hr⟩ => (rawApart_lineTick hr).imp_left hs.trans) u h

theorem rawApart_engineRun {s u : State} (h : RawApart s u) : RawApart s (engineRun u) :=
  engineRun_keeps (P := RawApart s) (fun _ => rawApart_tick) u h

/-- A step while a raw command runs is a host access, or the engine goes on. -/
theorem rawApart_stepped {s t : State} (hs : Stepped s t) (hb : s.busy = true) (hr : s.runsRaw) : RawApart s t := by
  have hd : ¬ s.decodes := by
    rintro (h | ⟨-, -, h⟩)
    · simp [hb] at h
    · exact absurd hr.2 (by simp [h, Line.raw])
  cases hs with
  | idle h => simp [hb] at h
  | read q g u v n hu =>
    rcases hu with rfl | rfl
    · exact ⟨⟨rfl, rfl, rfl, rfl⟩, hr⟩
    · exact ⟨⟨by simp, by simp, by simp, by simp⟩, by simpa [State.runsRaw] using hr⟩
  | written => exact ⟨⟨rfl, rfl, rfl, rfl⟩, hr⟩
  | dropped => exact ⟨⟨rfl, rfl, rfl, rfl⟩, hr⟩
  | accepted _ _ _ h => simp [hb] at h
  | turnedDown _ _ _ _ h => exact absurd h hd
  | command _ _ _ _ _ h => exact absurd h hd
  | wire _ _ h => simp [hb] at h
  | engine => exact rawApart_engineRun ⟨.refl s, hr⟩

end Sys2Proof.Machine

open Sys2Proof Sys2Proof.Machine

/-- Settles O52: the commands start at raw lines, and from there every micro-step and every step stays among them and
leaves the chain alone (`RawApart`). -/
theorem rawCommandsNeverTouchTheChain : Obligations.RawCommandsNeverTouchTheChain := by
  refine ⟨fun i s t hi ht => ?_, fun s t hb hr ht => rawApart_stepped (stepped_of_step ht) hb hr,
    fun s hr => rawApart_tick ⟨.refl s, hr⟩⟩
  obtain ⟨hwell, hline⟩ : WellFormed i = true ∧ (s.launched i).runsRaw := by
    rcases hi with ⟨a, f, rfl⟩ | rfl | ⟨a, rfl⟩ | ⟨f, rfl⟩ | ⟨a, b, rfl⟩ | rfl <;> exact ⟨rfl, rfl, rfl⟩
  exact executed_keeps (executed_of_exec ht) (P := RawApart s) (fun _ => rawApart_tick)
    (fun _ => ⟨⟨rfl, rfl, rfl, rfl⟩, rfl, rfl⟩) (fun hw => absurd (hwell.symm.trans hw) nofun)
    ⟨⟨rfl, rfl, rfl, rfl⟩, rfl, rfl⟩ fun _ => ⟨⟨rfl, rfl, rfl, rfl⟩, hline⟩

end

section
/-! BUSSCAN (42_bus_scan.md R160, R161): its loop from the first candidate to the line that completes it. -/

namespace Sys2Proof.Machine

/-- The whole loop of BUSSCAN: from its first line to the line that completes it with the number of acked probes. -/
theorem reach_busscan {s : State} {a b : Byte} {ps : List Ping} {more : List Drive} (hg : s.gap = none)
    (ho : s.owned = false) (hp : ps.length = (scanned a b).length) (hl : s.looks = ps.flatMap Ping.looks ++ more) :
    ∃ q : Seq, Reach (90 * 257) ((s.started (.scan (a.setWidth 9) b 0 true)).onward [])
      (({ s.afterPings (scanned a b) ps more with seq := q }.started
        (.finish true .none (BitVec.ofNat 8 (ps.countP fun p : Ping => p.start.acked)))).onward []) := by
  have ha := a.isLt
  rw [scanned_eq] at hp ⊢
  obtain ⟨q, h⟩ := reach_scan (257 - a.toNat) a.toNat (by omega) (by omega) b 0#8 true ps more s hg ho hp hl
  rw [BitVec.zero_add, BitVec.ofNat_toNat] at h
  exact ⟨q, h.mono (by omega)⟩

end Sys2Proof.Machine

open Sys2Proof Sys2Proof.Machine

/-- Settles O36: a free bus lets the command run, its loop makes the probes in order (`reach_busscan`), and the next
line completes with their count. -/
theorem busscanCountsTheAcks : Obligations.BusscanCountsTheAcks := by
  intro s a b ps more hg hf hi ho hp hl
  obtain ⟨q, hrun⟩ := reach_busscan hg ho hp hl
  let u : State := { s.afterPings (scanned a b) ps more with seq := q }
  have hgap : u.gap = none := (afterPings_gap (scanned a b) ps more s).trans hg
  exact ⟨{ q with bus := [], line := .none }, rfl, rfl, (checked_ok (freeBus_ok hf hi ho)).trans
    (launch_completes (t := u) hrun rfl hgap nofun nofun rfl rfl hgap (by decide))⟩

end

section
/-! The device commands (43_device_commands.md R171 to R183): one transaction, whose outcome the next line reports, and for a
tick read the copy of the received bytes before that. -/

namespace Sys2Proof.Machine

section

variable {s t : State} {a : Byte} {q : Seq} {k : Nat} (hf : s.fatal = false) (hi : s.initDone = true)
  (ho : s.owned = false) (ha : a ≤ 0x7F)
include hf hi ho ha

/-- What a device command with an address in range answers, once the engine's run to a line that completes is known. -/
theorem answers_device {i : Instr} {u : State} {op : BusOp} {line : Line} {ok : Bool} {e : Err} {r : Byte}
    (hexec : exec i s = checked .freeBus s (addressed a s (launch [op] line s)))
    (hrun : Reach k ((s.started line).onward [op]) (u.onward [])) (hg : u.gap = none)
    (h0 : u.seq.line ≠ .none) (h1 : u.seq.line ≠ .decode)
    (ht : lineTick u.seq.line (u.onward []) = ({ t with seq := q } : State).complete ok e r) (hl : t.looks = u.looks)
    (hgt : t.gap = none) (hk : k + 1 ≤ maxTicks) : Answers i s (t.outcome ok e r) :=
  ⟨{ q with bus := [], line := .none }, rfl, rfl,
    (hexec.trans ((checked_ok (freeBus_ok hf hi ho)).trans (addressed_ok ha))).trans
      (launch_completes hrun rfl hg h0 h1 ht hl hgt hk)⟩

/-! ## DEV_RESET and DEV_COLOR -/

/-- A device command without a read phase reports its start's ack (R182, R183). -/
theorem answers_devWrite {i : Instr} {bytes : List Byte} {w : Write} {more : List Drive}
    (hexec : exec i s = checked .freeBus s (addressed a s (launch [.xfer (addr7 a) bytes 0] .devDone s)))
    (hg : s.gap = none) (hb : bytes.length ≤ 3) (hw : w.fits bytes.length) (hl : s.looks = w.looks ++ more) :
    Answers i s ((s.afterWrite (a.setWidth 7) bytes w more).outcome w.start.acked
      (if w.start.acked then .none else .nackStart) 0) := by
  obtain ⟨q, ⟨hline, -⟩, hok, hrun⟩ := reach_write_xfer (s.started .devDone) (addr7 a) bytes w more [] hg ho hw hl
  replace hline : q.line = .devDone := hline
  rw [← addr7_eq, ← hok]
  exact answers_device (q := q) hf hi ho ha hexec hrun hg (by simp [hline]) (by simp [hline]) (by rw [hline]; rfl) rfl hg
    (by unfold maxTicks; omega)

/-! ## DEV_TICKREAD -/

/-- A tick read whose transaction has failed leaves what the transaction left, `rxbuf` included (R181). -/
theorem answers_tickread_failed (hline : q.line = .tickreadDone) (hok : q.okx = false)
    (hrun : Reach k ((s.started .tickreadDone).onward [wireTickread (addr7 a)])
      (({ t with busy := true, seq := q } : State).onward []))
    (hg : t.gap = none) (hk : k + 1 ≤ maxTicks) : Answers (.devTickread a) s (t.outcome false .nackStart 0) := by
  refine answers_device (t := t) (q := q) hf hi ho ha rfl hrun hg (by simp [hline]) (by simp [hline]) ?_ rfl hg hk
  rw [hline]
  exact if_neg (Bool.eq_false_iff.1 hok)

/-- A tick read whose transaction has succeeded copies the received bytes and completes (R181). -/
theorem answers_tickread_done (hline : q.line = .tickreadDone) (hok : q.okx = true)
    (hrun : Reach k ((s.started .tickreadDone).onward [wireTickread (addr7 a)])
      (({ t with busy := true, seq := q } : State).onward []))
    (hg : t.gap = none) (hk : k + 8 ≤ maxTicks) :
    Answers (.devTickread a) s
      ({ t with rxbuf := Vector.ofFn fun j : Fin 6 => q.rx.getD j.val 0 }.outcome true .none 0) := by
  let v : State := { t with busy := true, seq := q }
  have hdone : Reach 1 (v.onward []) ((v.started (.tickreadKeep 0)).onward []) := by
    refine reach_line rfl hg (by simp [v, hline]) (by simp [v, hline]) ?_ rfl hg
    rw [State.onward_line, hline]
    exact if_pos hok
  exact answers_device (q := q) hf hi ho ha rfl ((hrun.trans hdone).trans (reach_keepAllRx v hg)) hg nofun nofun rfl rfl hg
    hk

end

/-- The six bytes of `rxbuf` after the copy are the received ones, in order (R181, R187). -/
theorem toList_copied (l : List Byte) (h : l.length = 6) : (Vector.ofFn fun k : Fin 6 => l.getD k.val 0).toList = l := by
  refine List.ext_getElem (by simp [h]) fun j _ hj => ?_
  simp [List.getElem?_eq_getElem hj]

/-! ## Touch -/

/-- `Touch` entry by entry (R176). -/
theorem touch_getElem? (s : State) (addr : BusAddr) (acked : Bool) {i : Nat} {e : Entry} (h : s.entry[i]? = some e) :
    (s.touch addr acked).entry[i]? =
      some (if i < s.idx.toNat ∧ e.registered = true ∧ e.addr = addr then { e with active := acked } else e) := by
  simp [State.touch, h, and_assoc]

end Sys2Proof.Machine

open Sys2Proof Sys2Proof.Machine

/-- Settles O37: the transaction with its read phase ends in success, the copy runs through the six bytes, and the next line
completes. -/
theorem tickreadDeliversSixBytes : Obligations.TickreadDeliversSixBytes := by
  intro s a x more hg hf hi ho ha hx hr hl
  obtain ⟨q, ⟨hline, -⟩, hok, hrx, hrun⟩ :=
    reach_read_xfer (s.started .tickreadDone) (addr7 a) [0x40] 6 x more [] hg ho (by decide) hx hl
  obtain ⟨-, -, hdata⟩ := hx
  have hlen : q.rx.length = 6 := by simp [hrx, hdata, hr]
  refine ⟨Vector.ofFn fun j : Fin 6 => q.rx.getD j.val 0, (toList_copied _ hlen).trans hrx, ?_⟩
  rw [← addr7_eq]
  exact answers_tickread_done hf hi ho ha hline (hok.trans hr) hrun hg (by decide)

/-- Settles O38: the start is nacked, or it is acked and the restart is nacked; either way the transaction fails. -/
theorem tickreadNackLeavesRxbuf : Obligations.TickreadNackLeavesRxbuf := by
  intro s a more hg hf hi ho ha
  rw [← addr7_eq]
  constructor
  · intro w hw hn hl
    have hnone : w.frames = [] := List.length_eq_zero_iff.1 (by simpa [Write.fits, hn] using hw)
    obtain ⟨q, ⟨hline, -⟩, hok, hrun⟩ :=
      reach_nacked_xfer (s.started .tickreadDone) (addr7 a) [0x40] 6 w more [] hg ho hn hnone hl
    exact answers_tickread_failed hf hi ho ha hline (hok.trans hn) hrun hg (by decide)
  · intro x hx hn hl
    obtain ⟨q, ⟨hline, -⟩, hok, -, hrun⟩ :=
      reach_read_xfer (s.started .tickreadDone) (addr7 a) [0x40] 6 x more [] hg ho (by decide) hx hl
    exact answers_tickread_failed hf hi ho ha hline (hok.trans hn) hrun hg (by decide)

/-- Settles O39: both commands are one transaction without a read phase, of one and of two bytes after the address byte. -/
theorem deviceWritesEndWithTheStartAck : Obligations.DeviceWritesEndWithTheStartAck := by
  intro s a b w more hg hf hi ho ha hl
  exact ⟨fun hw => answers_devWrite hf hi ho ha rfl hg (by simp) hw hl,
    fun hw => answers_devWrite hf hi ho ha rfl hg (by simp) hw hl⟩

/-- Settles O40: the entry that `Touch` leaves at an index (`touch_getElem?`), in either case. -/
theorem touchMarksTheAddressedEntry : Obligations.TouchMarksTheAddressedEntry := by
  intro s addr acked i e he
  rw [touch_getElem? s addr acked he]
  exact ⟨fun h => by rw [if_pos h], fun h => by rw [if_neg h]⟩

end

section
/-! GCALL_RESET and CLAIM (44_chain_enumeration.md R201 to R212): a claim's stages from its gates to the commit, and the
rollback that the failure of a stage leads to. -/

namespace Sys2Proof.Machine

theorem afterWrite_nmax (s : State) (addr : BusAddr) (bytes : List Byte) (w : Write) (more : List Drive) :
    (s.afterWrite addr bytes w more).nmax = s.nmax := by
  simp [State.nmax, State.afterWrite, State.touch, State.afterTransaction]

/-- One transaction without a read phase, before a line of a command. -/
theorem reach_write_started {s : State} (line : Line) (addr : BusAddr) {bytes : List Byte} {w : Write} {more : List Drive}
    (hg : s.gap = none) (ho : s.owned = false) (hw : w.fits bytes.length) (hl : s.looks = w.looks ++ more) :
    ∃ q : Seq, q.okx = w.start.acked ∧
      Reach (90 + 65 * bytes.length) ((s.started line).onward [.xfer addr bytes 0])
        (({ s.afterWrite addr bytes w more with seq := q }.started line).onward []) := by
  obtain ⟨q, ⟨hline, -⟩, hok, hrun⟩ := reach_write_xfer (s.started line) addr bytes w more [] hg ho hw hl
  obtain rfl : q.line = line := hline
  exact ⟨q, hok, hrun⟩

/-! ## GCALL_RESET -/

/-- GCALL_RESET to its end: the general call, then the destruction of the table whatever its ack (R212). -/
theorem reach_gcallReset {s : State} {w : Write} {more : List Drive} (hg : s.gap = none) (ho : s.owned = false)
    (hw : w.fits 3) (hl : s.looks = w.looks ++ more) :
    ∃ q : Seq, Reach (s.nmax + 292) ((s.started .gcallDestroy).onward [wireGcreset])
      (({ s.afterWrite Config.bcastAddr (Config.selGcreset :: Config.gcrMagic) w more with
          entry := List.replicate s.nmax Entry.zero, idx := 0, nextAddr := Config.chainBase, enumFailed := false,
          seq := q } : State).complete w.start.acked (if w.start.acked then .none else .nackStart) 0) := by
  obtain ⟨q, hok, hcall⟩ := reach_write_started .gcallDestroy Config.bcastAddr
    (bytes := Config.selGcreset :: Config.gcrMagic) hg ho hw hl
  let u : State := { s.afterWrite Config.bcastAddr (Config.selGcreset :: Config.gcrMagic) w more with seq := q }
  have hdestroy := reach_destroy u hg
  rw [show u.nmax = s.nmax from afterWrite_nmax _ _ _ _ _, show u.seq.okx = w.start.acked from hok] at hdestroy
  refine ⟨q, ((hcall.trans hdestroy).trans (reach_line rfl hg nofun nofun rfl rfl hg)).mono ?_⟩
  simp only [Config.gcrMagic, List.length_cons, List.length_nil]
  omega

/-! ## The gates, one equation per branch (R202 to R204) -/

/-- The address is a registered entry's: one W.RESET (R202). -/
theorem claimTick_held {a : Byte} {s : State} (h : s.holds a = true) :
    claimTick a s = s.goto [wireReset (addr7 a)] (.finish true .none a) := if_pos h

/-- The latch is set (R203). -/
theorem claimTick_latched {a : Byte} {s : State} (hh : s.holds a = false) (hl : s.enumFailed = true) :
    claimTick a s = s.goto [] (.finish false .enumLatched 0) := by
  simp [claimTick, hh, hl]

/-- The table is full (R203). -/
theorem claimTick_full {a : Byte} {s : State} (hh : s.holds a = false) (hl : s.enumFailed = false)
    (hr : s.nmax ≤ s.idx.toNat) : claimTick a s = s.goto [] (.finish false .chainFull 0) := by
  simp [claimTick, hh, hl, hr]

/-- The previous device is not registered and active (R204). -/
theorem claimTick_broken {a : Byte} {s : State} (hh : s.holds a = false) (hl : s.enumFailed = false)
    (hr : s.idx.toNat < s.nmax) (h0 : s.idx ≠ 0) (hp : ¬(s.prevEntry.registered = true ∧ s.prevEntry.active = true)) :
    claimTick a s =
      { s with retryW := 0, seq := { s.seq with newAddr := addr7 s.nextAddr } }.goto [] (.claimFailed .chainBroken) := by
  rw [← Bool.and_eq_true] at hp
  rw [claimTick, if_neg (by simp [hh]), if_neg (by simp [hl]), if_neg (Nat.not_le.2 hr), if_neg h0, if_neg hp]

section

variable {s : State} {a : Byte} (hg : s.gap = none) (hf : s.fatal = false) (hi : s.initDone = true)
  (ho : s.owned = false)
include hg hf hi ho

/-- A claim whose first line goes on to its end at once leaves only the outcome. -/
theorem answers_claim_stops {e : Err}
    (ht : claimTick a ((s.started (.claim a)).onward []) =
      ((s.started (.claim a)).onward []).goto [] (.finish false e 0)) :
    Answers (.claim a) s (s.outcome false e 0) := by
  have hgate : Reach 1 ((s.started (.claim a)).onward []) ((s.started (.finish false e 0)).onward []) :=
    reach_line rfl hg nofun nofun ht rfl hg
  have hend : Reach 1 ((s.started (.finish false e 0)).onward []) (s.complete false e 0) :=
    reach_line rfl hg nofun nofun rfl rfl hg
  exact claim_answers hf hi ho (t := s) (q := s.seq) (hgate.trans hend) (by decide)

/-- A claim whose previous device is missing sets the latch (R204). -/
theorem answers_claim_broken (ha : asksForNew s a) (hl : s.enumFailed = false) (hr : s.idx.toNat < s.nmax)
    (h0 : s.idx ≠ 0) (hp : ¬(s.prevEntry.registered = true ∧ s.prevEntry.active = true)) :
    Answers (.claim a) s ({ s with retryW := 0, enumFailed := true }.outcome false .chainBroken 0) := by
  let u : State := { s with retryW := 0 }
  have hgate : Reach 1 ((s.started (.claim a)).onward [])
      ((u.running s.seq (.claimFailed .chainBroken) (addr7 s.nextAddr)).onward []) :=
    reach_line rfl hg nofun nofun
      (claimTick_broken (s := (s.started (.claim a)).onward []) (holds_of_asks ha) hl hr h0 hp) rfl hg
  exact claim_answers hf hi ho (t := { u with enumFailed := true }) (hgate.trans (claim_failed u s.seq _ _ hg)) (by decide)

/-- A claim of a held address is one W.RESET, whose ack decides nothing of the outcome (R202). -/
theorem answers_reclaim {w : Write} {more : List Drive} (hh : s.holds a = true) (hw : w.fits 1)
    (hl : s.looks = w.looks ++ more) :
    Answers (.claim a) s ((s.afterWrite (addr7 a) [Config.selReset] w more).outcome true .none a) := by
  have hgate : Reach 1 ((s.started (.claim a)).onward [])
      ((s.started (.finish true .none a)).onward [wireReset (addr7 a)]) :=
    reach_line rfl hg nofun nofun (claimTick_held (s := (s.started (.claim a)).onward []) hh) rfl hg
  obtain ⟨q, -, hreset⟩ := reach_write_started (.finish true .none a) (addr7 a) (bytes := [Config.selReset]) hg ho hw hl
  let t := s.afterWrite (addr7 a) [Config.selReset] w more
  have hend : Reach 1 (({ t with seq := q }.started (.finish true .none a)).onward [])
      (({ t with seq := q } : State).complete true .none a) := reach_line rfl hg nofun nofun rfl rfl hg
  exact claim_answers hf hi ho ((hgate.trans hreset).trans hend) (by decide)

end

/-! ## The stages of a new claim

Between two transactions of a claim of `s` the bus is free and the chain's counters are still those of `s`. -/

/-- `t` stands between two transactions of a claim of `s`, with the looks `more` to come. -/
structure ClaimStage (s t : State) (more : List Drive) : Prop where
  gap : t.gap = none
  owned : t.owned = false
  looks : t.looks = more
  next : t.nextAddr = s.nextAddr
  idx : t.idx = s.idx

theorem ClaimStage.afterWrite {s t : State} {m : List Drive} (h : ClaimStage s t m) (addr : BusAddr) (bytes : List Byte)
    (w : Write) (more : List Drive) : ClaimStage s (t.afterWrite addr bytes w more) more :=
  ⟨h.gap, rfl, rfl, h.next, h.idx⟩

theorem ClaimStage.afterProbing {s t : State} {m : List Drive} (h : ClaimStage s t m) (p : Probing) (more : List Drive) :
    ClaimStage s (t.afterProbing p more) more := by
  obtain ⟨hgap, howned, hlooks, hnext, hidx⟩ := probing_facts t p more
  exact ⟨hgap.trans h.gap, howned, hlooks, hnext.trans h.next, hidx.trans h.idx⟩

theorem claimStage_handoff {s : State} (hg : s.gap = none) (h : Write) (more : List Drive) :
    ClaimStage s (s.afterHandoff h more) more := by
  unfold State.afterHandoff
  split <;> exact ⟨hg, rfl, rfl, rfl, rfl⟩

theorem claimStage_handedOff {s : State} (hg : s.gap = none) (h : Write) (more : List Drive) :
    ClaimStage s (s.afterHandoff h more).handedOff more :=
  ⟨(handoff_gap s h more).trans hg, handoff_owned s h more, handoff_looks s h more, handoff_next s h more,
    handoff_idx s h more⟩

/-- The state at the test of the probes' outcome (R206). -/
def State.probed (s : State) (h : Write) (p : Probing) (more : List Drive) : State :=
  (s.afterHandoff h (p.looks ++ more)).handedOff.afterProbing p more

/-- The state at the test of change-address's outcome (R207). -/
def State.readdressed (s : State) (h : Write) (p : Probing) (c : Write) (more : List Drive) : State :=
  (s.probed h p (c.looks ++ more)).afterSetaddr c more

/-- The state at the test of terminate's outcome (R207). -/
def State.ending (s : State) (h : Write) (p : Probing) (c t : Write) (more : List Drive) : State :=
  (s.readdressed h p c (t.looks ++ more)).afterTerminate t more

section

variable {s : State} {a : Byte} {h : Write} {p : Probing} {c t : Write} {more : List Drive} (hg : s.gap = none)

include hg in
theorem claimStage_probed : ClaimStage s (s.probed h p more) more :=
  (claimStage_handedOff hg h (p.looks ++ more)).afterProbing p more

include hg in
theorem claimStage_readdressed : ClaimStage s (s.readdressed h p c more) more :=
  (claimStage_probed hg).afterWrite _ _ c more

include hg in
theorem claimStage_ending : ClaimStage s (s.ending h p c t more) more :=
  (claimStage_readdressed hg).afterWrite _ _ t more

variable (ho : s.owned = false) (ha : asksForNew s a) (hk : GatesOpen s)
include hg ho ha hk

/-- A later claim up to the test of the propagate's outcome (R204, R205). -/
theorem reach_propagated (h0 : s.idx ≠ 0) (hf : h.fits 1) (hl : s.looks = h.looks ++ more) :
    ∃ q : Seq, q.okx = h.start.acked ∧ Reach 290 ((s.started (.claim a)).onward [])
      (((s.afterHandoff h more).running q .claimPropagated (addr7 s.nextAddr)).onward []) := by
  obtain ⟨q, hok, hrun⟩ := run_xfer { s with retryW := 0 } s.seq .claimPropagated (addr7 s.nextAddr) s.prevEntry.addr
    [Config.selPropagate] h more [] hg ho hf hl (by decide)
  refine ⟨q, hok, (((claim_gates_next s a hg ha hk h0).trans hrun).mono (by decide)).cast ?_⟩
  rw [State.afterHandoff, if_neg h0]
  rfl

variable (hf : s.handoffFits h) (hn : s.idx ≠ 0 → h.start.acked = true) (hp : p.fits)
include hf hn hp

/-- A new claim up to the test of its last probe's outcome (R202 to R206). -/
theorem reach_probed (hl : s.looks = h.looks ++ (p.looks ++ more)) :
    ∃ q : Seq, q.okx = p.last.start.acked ∧ Reach 870 ((s.started (.claim a)).onward [])
      (((s.probed h p more).running q .claimProbed (addr7 s.nextAddr)).onward []) := by
  obtain ⟨q, hhandoff⟩ := claim_handoff s a h (p.looks ++ more) hg ho ha hk hf hn hl
  obtain ⟨hgap, howned, hlooks, -, -⟩ := claimStage_handedOff hg h (p.looks ++ more)
  obtain ⟨q', hok, hprobing⟩ := claim_probing _ q (addr7 s.nextAddr) p more hgap howned
    (handoff_retry s h (p.looks ++ more)) hp hlooks
  exact ⟨q', hok, hhandoff.trans hprobing⟩

variable (hpa : p.last.start.acked = true) (hc : c.fits 2)
include hpa hc

/-- A new claim whose probe is acked, up to the test of change-address's outcome (R207). -/
theorem reach_readdressed (hl : s.looks = h.looks ++ (p.looks ++ (c.looks ++ more))) :
    ∃ q : Seq, q.okx = c.start.acked ∧ Reach 1160 ((s.started (.claim a)).onward [])
      (((s.readdressed h p c more).running q .claimAddressed (addr7 s.nextAddr)).onward []) := by
  obtain ⟨q, hprobe, hrun⟩ := reach_probed hg ho ha hk hf hn hp hl
  obtain ⟨hgap, howned, hlooks, hnext, -⟩ := claimStage_probed (h := h) (p := p) (more := c.looks ++ more) hg
  obtain ⟨q', hok, hsetaddr⟩ := claim_setaddr _ q (addr7 s.nextAddr) c more hgap howned (hprobe.trans hpa) hc hlooks
  refine ⟨q', hok, ((hrun.trans hsetaddr).mono (by decide)).cast ?_⟩
  rw [State.readdressed, State.afterSetaddr, hnext]

variable (hca : c.start.acked = true) (ht : t.fits 1)
include hca ht

/-- A new claim whose change-address is acked, up to the test of terminate's outcome (R207). -/
theorem reach_ending (hl : s.looks = h.looks ++ (p.looks ++ (c.looks ++ (t.looks ++ more)))) :
    ∃ q : Seq, q.okx = t.start.acked ∧ Reach 1450 ((s.started (.claim a)).onward [])
      (((s.ending h p c t more).running q .claimTerminated (addr7 s.nextAddr)).onward []) := by
  obtain ⟨q, hset, hrun⟩ := reach_readdressed hg ho ha hk hf hn hp hpa hc hl
  obtain ⟨hgap, howned, hlooks, hnext, -⟩ :=
    claimStage_readdressed (h := h) (p := p) (c := c) (more := t.looks ++ more) hg
  obtain ⟨q', hok, hterminate⟩ := claim_terminate _ q (addr7 s.nextAddr) t more hgap howned (hset.trans hca) ht hlooks
  refine ⟨q', hok, ((hrun.trans hterminate).mono (by decide)).cast ?_⟩
  rw [State.ending, State.afterTerminate, hnext]

end

/-! ## Failed stages (R209) -/

section

variable {u : State} (hok : u.seq.okx = false)
include hok

theorem lineTick_propagate_nacked : lineTick .claimPropagated u = u.goto [] (.rollback .handshake) :=
  if_neg (Bool.eq_false_iff.1 hok)

theorem lineTick_setaddr_nacked : lineTick .claimAddressed u = u.goto [] (.rollback .handshake) :=
  if_neg (Bool.eq_false_iff.1 hok)

theorem lineTick_terminate_nacked : lineTick .claimTerminated u = u.goto [] (.rollback .handshake) :=
  if_neg (Bool.eq_false_iff.1 hok)

/-- No retry is left after a nacked probe (R206). -/
theorem lineTick_probe_exhausted (hr : ¬ u.retryW.toNat < Config.probeRetries) :
    lineTick .claimProbed u = u.goto [] (.rollback .noBootDevice) :=
  (if_neg (Bool.eq_false_iff.1 hok)).trans (if_neg hr)

end

/-- A claim that has reached a failing test rolls back (R209). -/
theorem answers_rollback {s t : State} {a : Byte} {w : Write} {more : List Drive} {k : Nat} {q : Seq} {l : Line}
    {n : BusAddr} {e : Err} (hf : s.fatal = false) (hi : s.initDone = true) (ho : s.owned = false)
    (hs : ClaimStage s t (s.rollbackLooks w ++ more)) (hw : w.fits 1)
    (hrun : Reach k ((s.started (.claim a)).onward []) ((t.running q l n).onward [])) (h0 : l ≠ .none) (h1 : l ≠ .decode)
    (ht : lineTick l ((t.running q l n).onward []) = ((t.running q l n).onward []).goto [] (.rollback e))
    (hk : k + 291 ≤ maxTicks) : Answers (.claim a) s ((t.afterRollback w more).outcome false e 0) := by
  obtain ⟨hgap, howned, hlooks, -, hidx⟩ := hs
  have hfail : Reach 1 ((t.running q l n).onward []) ((t.running q (.rollback e) n).onward []) :=
    run_line hgap h0 h1 ht rfl hgap
  have hlooks' : t.looks = t.rollbackLooks w ++ more := by rw [hlooks, State.rollbackLooks, State.rollbackLooks, hidx]
  obtain ⟨q', hback⟩ := claim_rollback t q n e w more hgap howned hw hlooks'
  exact claim_answers hf hi ho ((hrun.trans hfail).trans hback) (by omega)

end Sys2Proof.Machine

open Sys2Proof Sys2Proof.Machine

/-- Settles O41: the general call and the destruction of the table run to the line that completes (`reach_gcallReset`). -/
theorem gcallResetDestroysTheTable : Obligations.GcallResetDestroysTheTable := by
  intro s w more hg hf hi ho hw hl
  obtain ⟨q, hrun⟩ := reach_gcallReset hg ho hw hl
  exact ⟨{ q with bus := [], line := .none }, rfl, rfl, (checked_ok (freeBus_ok hf hi ho)).trans
    (launch_eq_table hrun (paused_of_atRest rfl rfl) (Nat.add_le_add_left (by decide) _))⟩

/-- Settles O42: the address is held (`holds_of_entry`), and a claim of a held address is one W.RESET. -/
theorem reclaimOnlyClearsTheCounter : Obligations.ReclaimOnlyClearsTheCounter := by
  intro s a w more i e hg hf hi ho ha hidx he hr hx hw hl
  rw [← addr7_eq] at hx ⊢
  exact answers_reclaim hg hf hi ho (holds_of_entry ha hidx he hr (hx.trans (addr7_eq a))) hw hl

/-- Settles O43: each gate has its branch of the claim's first line; none of them starts a transaction. -/
theorem claimGatesStopWithoutTraffic : Obligations.ClaimGatesStopWithoutTraffic := by
  intro s a hg hf hi ho ha
  have hh : ((s.started (.claim a)).onward []).holds a = false := holds_of_asks ha
  exact ⟨fun hl => answers_claim_stops hg hf hi ho (claimTick_latched hh hl),
    fun hl hr => answers_claim_stops hg hf hi ho (claimTick_full hh hl hr),
    fun hl hr h0 hp => answers_claim_broken hg hf hi ho ha hl hr h0 hp⟩

/-- Settles O44: the stages up to terminate's outcome, each acked (`reach_ending`), then the commit and its W.RESET. -/
theorem claimEnumeratesTheNextDevice : Obligations.ClaimEnumeratesTheNextDevice := by
  intro s a h p c t r more hg hf hi ho ha hk hh hn hp hpa hc hca ht hta hr hl
  obtain ⟨q, hok, hrun⟩ := reach_ending hg ho ha hk hh hn hp hpa hc hca ht hl
  obtain ⟨hgap, howned, hlooks, hnext, -⟩ :=
    claimStage_ending (h := h) (p := p) (c := c) (t := t) (more := r.looks ++ more) hg
  rw [← hnext] at hrun ⊢
  obtain ⟨q', hcommit⟩ := claim_commit _ q r more hgap howned (hok.trans hta) hr hlooks
  exact claim_answers hf hi ho (hrun.trans hcommit) (by decide)

/-- Settles O45: the propagate's outcome is the first test that can lead to the rollback. -/
theorem claimPropagateNackedRollsBack : Obligations.ClaimPropagateNackedRollsBack := by
  intro s a h w more hg hf hi ho ha hk h0 hh hn hw hl
  obtain ⟨q, hok, hrun⟩ := reach_propagated hg ho ha hk h0 hh hl
  have hs : ClaimStage s (s.afterHandoff h (w.looks ++ more)) (s.rollbackLooks w ++ more) := by
    rw [State.rollbackLooks, if_neg h0]
    exact claimStage_handoff hg h _
  exact answers_rollback hf hi ho hs hw hrun nofun nofun (lineTick_propagate_nacked (hok.trans hn)) (by decide)

/-- Settles O46: after the retry `retry_w` is at its bound, so the second nacked probe leads to the rollback. -/
theorem claimWithoutBootDeviceRollsBack : Obligations.ClaimWithoutBootDeviceRollsBack := by
  intro s a h p1 p2 w more hg hf hi ho ha hk hh hn hp1 hn1 hp2 hn2 hw hl
  let p : Probing := ⟨some p1, p2⟩
  have hp : p.fits := ⟨fun w' hw' => Option.some.inj hw' ▸ ⟨hp1, hn1⟩, hp2⟩
  have hl' : s.looks = h.looks ++ (p.looks ++ (s.rollbackLooks w ++ more)) := by simpa [p, Probing.looks] using hl
  obtain ⟨q, hok, hrun⟩ := reach_probed hg ho ha hk hh hn hp hl'
  have hanswer := answers_rollback hf hi ho (claimStage_probed hg) hw hrun nofun nofun
    (lineTick_probe_exhausted (hok.trans hn2) (Nat.lt_irrefl 1)) (by decide)
  simpa [State.probed, p, Probing.looks] using hanswer

/-- Settles O47: change-address's outcome, or terminate's after it, leads to the rollback. -/
theorem claimHandshakeNackedRollsBack : Obligations.ClaimHandshakeNackedRollsBack := by
  intro s a h p c t w more hg hf hi ho ha hk hh hn hp hpa hc ht hw
  constructor
  · intro hcn hl
    obtain ⟨q, hok, hrun⟩ := reach_readdressed hg ho ha hk hh hn hp hpa hc hl
    exact answers_rollback hf hi ho (claimStage_readdressed hg) hw hrun nofun nofun
      (lineTick_setaddr_nacked (hok.trans hcn)) (by decide)
  · intro hca htn hl
    obtain ⟨q, hok, hrun⟩ := reach_ending hg ho ha hk hh hn hp hpa hc hca ht hl
    exact answers_rollback hf hi ho (claimStage_ending hg) hw hrun nofun nofun
      (lineTick_terminate_nacked (hok.trans htn)) (by decide)

end

section
/-! The refusals and the hang (60_exceptions.md R243, R244, R249, R250): what a failed check answers, in the order of the
checks, and that an engine at a line which nothing raises stays there. -/

namespace Sys2Proof.Machine

/-! ## The checks that fail -/

theorem firstFailure_of_fatal {s : State} (n : Needs) (hf : s.fatal = true) : firstFailure n s = .fatal := by
  simp [firstFailure, hf]

theorem firstFailure_of_uninitialised {s : State} {n : Needs} (hn : n ≠ .notInitialised) (hf : s.fatal = false)
    (hi : s.initDone = false) : firstFailure n s = .notInit := by
  cases n
  case notInitialised => exact absurd rfl hn
  all_goals simp [firstFailure, hf, hi]

section

variable {s : State} (hf : s.fatal = false) (hi : s.initDone = true)
include hf hi

theorem notInitialised_fails : firstFailure .notInitialised s = .seq := by simp [firstFailure, hf, hi]

theorem ownedBus_fails (ho : s.owned = false) : firstFailure .ownedBus s = .seq := by simp [firstFailure, hf, hi, ho]

theorem freeBus_fails (ho : s.owned = true) : firstFailure .freeBus s = .seq := by simp [firstFailure, hf, hi, ho]

end

/-! ## What an instruction needs -/

/-- A host command has checks (60_exceptions.md R244). -/
theorem needsOf_of_decodeCommand {w : Word} {i : Instr} (h : decodeCommand w = some i) : ∃ n, needsOf i = some n := by
  have he := encode_of_decodeCommand h
  cases i <;> cases he <;> exact ⟨_, rfl⟩

theorem eq_init_of_needsOf {i : Instr} (h : needsOf i = some .notInitialised) : i = .init := by
  cases i <;> cases h
  rfl

/-- A check that fails refuses the instruction, whichever it is (R243). -/
theorem exec_of_failure {i : Instr} {s : State} {n : Needs} {e : Err} (hn : needsOf i = some n)
    (h : firstFailure n s = e) (he : e ≠ .none) : exec i s = .next (s.refuse e) := by
  cases i <;> cases hn <;> exact checked_fail h he

/-! ## A write to CMD with the host then polling -/

/-- The state in which the word of a polling host is decoded. -/
def State.polledWord (s : State) (w : Word) : State := accept w { s with gap := none }

theorem hostAccess_cmd_polled {s : State} (w : Word) (hb : s.busy = false) :
    hostAccess (.write s.params.hostBase 32 w) { s with gap := none } = runCommand (s.polledWord w) :=
  (hostAccess_cmd { s with gap := none } w).trans (hostCommand_of_not_due w hb (hostDue_of_polite rfl))

theorem runCommand_of_failure {s : State} {i : Instr} {n : Needs} {e : Err} (hf : s.fatal = false)
    (hw : decodeCommand s.cmdw = some i) (hn : needsOf i = some n) (h : firstFailure n s = e) (he : e ≠ .none) :
    runCommand s = .next (s.refuse e) :=
  (runCommand_of_decoded hf hw).trans (exec_of_failure hn h he)

/-! ## The hang -/

/-- The read at which an engine hangs, and the line that it finds low there (R250; log 4). -/
theorem hung_inv {s : State} (h : s.hung = true) :
    s.looks = [] ∧ ∃ (op : BusOp) (rest : List BusOp), s.seq.bus = op :: rest ∧
      (op = .awaitScl ∧ s.sclLevel = false ∨
        op = .awaitIdle ∧ (s.sclLevel = false ∨ s.sdaLevel = false) ∨
        ∃ scl, op = .awaitIdleSda scl ∧ (s.sdaLevel = false ∨ scl = false ∧ s.sclLevel = false)) := by
  obtain ⟨hl, hw⟩ := Bool.and_eq_true_iff.1 h
  refine ⟨List.isEmpty_iff.1 hl, ?_⟩
  split at hw
  case h_1 rest hbus => exact ⟨_, rest, hbus, .inl ⟨rfl, by simpa using hw⟩⟩
  case h_2 rest hbus => exact ⟨_, rest, hbus, .inr (.inl ⟨rfl, by simpa [Decidable.imp_iff_not_or] using hw⟩)⟩
  case h_3 scl rest hbus =>
    exact ⟨_, rest, hbus, .inr (.inr ⟨scl, rfl, by simpa [Decidable.imp_iff_not_or] using hw⟩)⟩
  case h_4 => cases hw

/-- With no access of the host to come, a hung engine is left where it is. -/
theorem paused_of_hung {s : State} (h : s.hung = true) (hq : s.hostQ = []) : s.paused = true := by
  simp [State.paused, State.hostPending, h, hq]

theorem engineRun_of_paused {s : State} (h : s.paused = true) : engineRun s = s := engine_of_paused h

theorem engineStep_of_bus {s : State} (h : s.seq.bus ≠ []) : engineStep s = .next (engineRun s) := by
  simp [engineStep, h]

end Sys2Proof.Machine

open Sys2Proof Sys2Proof.Machine

/-- Settles O57: the reads at which an engine can hang are `hung_inv`'s, and a hung engine is left where it is. -/
theorem hangLastsForever : Obligations.HangLastsForever := by
  intro s hb h hq
  obtain ⟨hl, op, rest, hbus, hlow⟩ := hung_inv h
  refine ⟨hl, ?_, op, rest, hbus, hlow⟩
  calc step s = engineStep s := step_of_not_hostDue hb (hostDue_eq_false_iff.2 (.inl hq))
    _ = .next (engineRun s) := engineStep_of_bus (by simp [hbus])
    _ = .next s := congrArg _ (engineRun_of_paused (paused_of_hung h hq))

/-- Settles O12: the busy branch of the write, then the decoding step's branches, then the check that fails first. -/
theorem checksDecideInOrder : Obligations.ChecksDecideInOrder := by
  intro s w
  refine ⟨fun hb => (hostAccess_cmd { s with gap := none } w).trans (hostCommand_of_busy w hb), fun hb => ?_⟩
  let u := s.polledWord w
  have hanswer := hostAccess_cmd_polled (s := s) w hb
  refine ⟨fun hf => hanswer.trans (runCommand_of_fatal (s := u) hf), fun hf =>
    ⟨fun hw => hanswer.trans (runCommand_of_illegal (s := u) hf hw), fun i hw => ?_⟩⟩
  have refused {n : Needs} {e : Err} (hn : needsOf i = some n) (h : firstFailure n u = e) (he : e ≠ .none) :=
    hanswer.trans (runCommand_of_failure (s := u) hf hw hn h he)
  refine ⟨?_, fun hne => ⟨fun hi => ?_, fun hi => ⟨?_, ?_⟩⟩⟩
  · rintro rfl hi
    exact refused rfl (notInitialised_fails hf hi) nofun
  · obtain ⟨n, hn⟩ := needsOf_of_decodeCommand hw
    have hn' : n ≠ .notInitialised := fun e => hne (eq_init_of_needsOf (e ▸ hn))
    exact refused hn (firstFailure_of_uninitialised hn' hf hi) nofun
  · intro h ho
    have hn : needsOf i = some .ownedBus := by rcases h with ⟨a, rfl⟩ | ⟨f, rfl⟩ <;> rfl
    exact refused hn (ownedBus_fails hf hi ho) nofun
  · intro h ho
    have hn : needsOf i = some .freeBus := by
      rcases h with ⟨a, b, rfl⟩ | ⟨a, rfl⟩ | ⟨a, rfl⟩ | ⟨a, rfl⟩ | rfl | ⟨a, b, rfl⟩ <;> rfl
    exact refused hn (freeBus_fails hf hi ho) nofun

/-- Settles O56: a host command has checks, and in the fatal state each of them fails first on `fatal`. -/
theorem fatalRefusesEveryCommand : Obligations.FatalRefusesEveryCommand := by
  intro i s w hf hw
  obtain ⟨n, hn⟩ := needsOf_of_decodeCommand hw
  exact ⟨{ s.seq with bus := [], line := .none }, rfl, rfl,
    exec_of_failure hn (firstFailure_of_fatal n hf) nofun⟩

end
